-- ==== Sys2Proof/Word.lean ====
section
/-! DEFINITION. The word types of the register window and of the line (00_scope.md R10, R13). -/

namespace Sys2Proof

/-- A register of the window: 32 bits (10_state.md R28). -/
abbrev Word := BitVec 32

/-- A byte of the line, of a ROM code or of an operand (00_scope.md R10). -/
abbrev Byte := BitVec 8

/-- A ROM code: eight bytes, byte 0 (the family code) in bits 7:0 (30_encoding.md R101,
20_memory.md R74). ROM bit position `n` of 1..64 is bit `n - 1` (00_scope.md R20). -/
abbrev RomCode := BitVec 64

end Sys2Proof
end

