-- ==== Sys2Proof/Config.lean ====
section
/-! DEFINITION. What an implementation fixes: the protocol constants (00_scope.md R8), the build
parameters (R9), and the free values, which have no body. -/

namespace Sys2Proof

/-- The two pad outputs (10_state.md R65): `oeLow` pulls the line low, `pu` drives it actively high. -/
structure Pads where
  oeLow : Bool
  pu : Bool
deriving DecidableEq, Repr, Inhabited

/-- The pad outputs became `pads` at clock edge `edge`. -/
structure PadEvent where
  edge : Nat
  pads : Pads
deriving DecidableEq, Repr

/-- The build parameters of one machine (00_scope.md R9). They are no registers: no step changes them. -/
structure Config where
  /-- `CLK_PER_US`, clock cycles in one microsecond; legal 2..255. -/
  clkPerUs : BitVec 8
  /-- `HAS_CRC16`: the optional 16-bit CRC is present (00_scope.md R7). -/
  hasCrc16 : Bool
  /-- `CRC16_POLY`, the reflected polynomial. -/
  crc16Poly : BitVec 16
  /-- `TSAMPLE_RESET`, the reset value of TSAMPLE; legal 1..59. -/
  tsampleReset : Byte
deriving DecidableEq, Repr, Inhabited

namespace Config

/-- Reset pulse, µs of line low (R8). -/
abbrev tRstl : Nat := 480
/-- Release to presence sample, µs (R8, D13). -/
abbrev tPds : Nat := 70
/-- Presence sample to the end of the reset, µs (R8, D13). -/
abbrev tRsth : Nat := 410
/-- Samples of the idle check before a reset pulse (R8, D17). -/
abbrev tIdleMax : Nat := 250
/-- Low time of a write-1 slot, µs (R8). -/
abbrev tW1l : Nat := 1
/-- Low time of a write-0 slot, µs (R8). -/
abbrev tW0l : Nat := 60
/-- Length of every time slot, µs (R8). -/
abbrev tSlot : Nat := 61
/-- Low time at the start of a read slot, µs (R8, D13). -/
abbrev tRl : Nat := 1
/-- The "match ROM" command byte (R8, D19). -/
abbrev romCmdMatch : Byte := 0x55#8
/-- The "skip ROM" command byte (R8, D19). -/
abbrev romCmdSkip : Byte := 0xCC#8
/-- The "search ROM" command byte (R8, D19). -/
abbrev romCmdSearch : Byte := 0xF0#8
/-- The reflected CRC-8 constant (R8). -/
abbrev crc8Poly : Byte := 0x8C#8
/-- Clock cycles of input synchronisation (R8, D4). -/
abbrev syncStages : Nat := 2

/-- FREE VALUE. `CLK_PER_US` is OPEN in 2..255 with no default (R9, D3): this unknown number of 0..253
is what it exceeds 2 by, in the machine that `State.reset` describes. Log 5. -/
opaque clkOffset : Fin 254

/-- FREE VALUE. The level the bus gives at a clock edge where the block does not pull the line low
(20_memory.md R84, R85): any level, as a choice that may depend on which bus is attached (the first
argument), on the whole history of the pad outputs before that edge, newest first, and on the edge.
Log 3. -/
opaque freeLevel : Nat → List PadEvent → Nat → Bool

/-- The build `State.reset` describes: `CLK_PER_US` unknown, the other parameters at the defaults of
R9. Log 5. -/
def build : Config where
  clkPerUs := BitVec.ofNat 8 (clkOffset.val + 2)
  hasCrc16 := false
  crc16Poly := 0xA001#16
  tsampleReset := 10#8

end Config

end Sys2Proof
end

