-- ==== Sys2Proof/Machine/State.lean ====
section
/-! DEFINITION. The machine's state as plain data: every register and flag of 10_state.md R58, the
sequencer's hidden registers (R61, R62), the pad outputs (R65), and beside them the build parameters
and the inputs the block sees (the host's port, the bus). -/

namespace Sys2Proof.Machine

/-- Why a step can stop the machine with a fault: never. Host accesses never fault (60_exceptions.md
R189) and every command completes with a result code (R188), so the type has no constructor. -/
inductive Fault
deriving DecidableEq, Repr

/-- Why a step can be refused. -/
inductive Refusal
  /-- An instruction the model gives no meaning yet: raised by an arm of `exec` alone. Safe. No arm of
  this model raises it. -/
  | notModelled (mnemonic : String)
deriving DecidableEq, Repr

/-- The values of `STATUS.RESULT`: the result codes of 60_exceptions.md R187, and the seven codes that name
no result. -/
inductive ResultCode
  | ok
  | noPresence
  | busCollisionAbort
  | crcMismatch
  | zeroFamily
  | exhausted
  | notCalibrated
  | calibrationError
  | illegalCmd
  /-- Code `9 + k`: no command writes it (93_implementation_defined.md I15); only a block that has seen no
  reset edge yet can hold it (70_reset_and_hazards.md R210). -/
  | unassigned (k : Fin 7)
deriving DecidableEq, Repr, Inhabited

/-- The fields of STATUS (10_state.md R32), but for POWER, which equals the pad output `line_pu`
(R37) and is stored there. -/
structure Status where
  /-- R33. -/
  busy : Bool
  /-- R34. -/
  done : Bool
  /-- R35. -/
  ovr : Bool
  /-- R36. -/
  presence : Bool
  /-- R38. -/
  found : Bool
  /-- R39. -/
  cal : Bool
  /-- R39. -/
  calerr : Bool
  /-- R40. -/
  result : ResultCode
  /-- R36. -/
  stuck : Bool
deriving DecidableEq, Repr, Inhabited

/-- The search state (10_state.md R48 to R50): SRCH_ROM_LO, SRCH_ROM_HI and the fields of SRCH_STATE. -/
structure Search where
  romLo : Word
  romHi : Word
  ld : BitVec 7
  lfd : BitVec 4
  term : Bool
deriving DecidableEq, Repr, Inhabited

/-- The hidden working registers of the sequencer (10_state.md R61, R62). The spec gives `step` no
width: it counts the primitives the running command has performed (log 11). -/
structure Working where
  cmd : Word
  step : Nat
  timer : Nat
  data : Byte
  hold : Bool
  selrom : RomCode
  tsample : Byte
  shift : Byte
  buf : RomCode
  lastZero : BitVec 7
  famZero : BitVec 4
  n : BitVec 7
  crc : BitVec 16
  cal : BitVec 16
deriving DecidableEq, Repr, Inhabited

/-- A host access on the register port, `word` being `reg_addr[5:2]` (20_memory.md R69, R70). -/
inductive Access
  | read (word : BitVec 4)
  | write (word : BitVec 4) (value : Word)
deriving DecidableEq, Repr

/-- One cycle of the host's port that carries something: `gap` cycles without an access pass first; then
comes a cycle with `rst_n` low if `rst`, and with the access if there is one (20_memory.md R69,
70_reset_and_hazards.md R207). -/
structure PortCycle where
  gap : Nat
  rst : Bool
  access : Option Access
deriving DecidableEq, Repr

/-- What `reg_rdata` answered to a read presented in the cycle that ended at `edge` (20_memory.md R69). -/
structure ReadAnswer where
  edge : Nat
  word : BitVec 4
  value : Word
deriving DecidableEq, Repr

/-- Where the devices of the reference model stand in the protocol (20_memory.md R86); `k` is the search
bit position 1..64. -/
inductive DevicePhase
  /-- No reset pulse seen yet. -/
  | waiting
  /-- After a reset pulse: `count` bits of the command byte received. -/
  | command (count : Nat) (byte : Byte)
  /-- In a search: the next slot reads ROM bit `k`. -/
  | searchId (k : Nat)
  /-- In a search: the next slot reads the complement of ROM bit `k`. -/
  | searchComplement (k : Nat)
  /-- In a search: the next slot writes the direction at position `k`. -/
  | searchDirection (k : Nat)
  /-- After the command byte or the search: no search slot comes before the next reset pulse. -/
  | data
deriving DecidableEq, Repr

/-- The devices of the reference model (20_memory.md R86, log 4). -/
structure Devices where
  /-- The ROM codes on the bus. -/
  roms : List RomCode
  /-- Those still taking part in the transaction. -/
  alive : List RomCode
  phase : DevicePhase
  /-- The edge at which the block began the low pulse that is under way. -/
  lowSince : Option Nat
  /-- The devices pull the line low at the edges from `holdFrom` on and before `holdTo`. -/
  holdFrom : Nat
  holdTo : Nat
  /-- The levels of the coming read slots that no search answers (R86 (d)); high when it has run out. -/
  script : List Bool
  /-- The slot under way is a read slot of the block: what R86 (d) tells read slots from write slots by,
  which look alike on the line (log 4). -/
  reading : Bool
deriving DecidableEq, Repr

/-- Everything attached to the line (`BusEnv`, 20_memory.md R84), as plain data. -/
inductive BusEnv
  /-- Nothing is known: every level is the free value `Config.freeLevel`, of bus number `draw`. -/
  | free (draw : Nat)
  /-- Something pulls the line low at the edges of the given intervals (first included, last not), and
  the line is high elsewhere: for the worked examples. -/
  | lows (intervals : List (Nat × Nat))
  /-- The reference device model (R86). -/
  | devices (d : Devices)
deriving DecidableEq, Repr, Inhabited

/-- The state of the machine: the block's (10_state.md R58), the build, and the inputs it sees. -/
structure State where
  status : Status
  /-- DATA (10_state.md R42). -/
  data : Byte
  /-- CONFIG.IE (R43). -/
  ie : Bool
  /-- TSAMPLE (R44). -/
  tsample : Byte
  /-- LATENCY (R46). -/
  latency : BitVec 16
  /-- SEL_ROM_LO (R47). -/
  selRomLo : Word
  /-- SEL_ROM_HI (R47). -/
  selRomHi : Word
  search : Search
  /-- CRC8 (R53). -/
  crc8 : Byte
  /-- CRC16 (R54). -/
  crc16 : BitVec 16
  /-- `line_oe_low` and `line_pu` (R65). -/
  pads : Pads
  /-- The hidden registers (R62). -/
  w : Working
  /-- The build parameters (00_scope.md R9); no step changes them. -/
  cfg : Config
  /-- The number of the last clock edge. -/
  now : Nat
  /-- The pad outputs' history, newest first (20_memory.md R84). -/
  wave : List PadEvent
  /-- The host's coming port cycles (20_memory.md R69): an input. -/
  port : List PortCycle
  /-- What the port has answered, newest first. -/
  reads : List ReadAnswer
  /-- What is attached to the line: an input. -/
  env : BusEnv
  /-- No reset edge has come since power-up: what the block's registers and pad outputs hold is
  unspecified (70_reset_and_hazards.md R210, log 9). -/
  awaitingReset : Bool
deriving DecidableEq, Repr, Inhabited

/-- STATUS after reset (10_state.md R66). -/
def Status.atReset : Status where
  busy := false
  done := false
  ovr := false
  presence := false
  found := false
  cal := false
  calerr := false
  result := .ok
  stuck := false

/-- The search state after reset (10_state.md R66): "all-zero buffer", 0, 0, false. -/
def Search.cleared : Search where
  romLo := 0#32
  romHi := 0#32
  ld := 0#7
  lfd := 0#4
  term := false

/-- The working registers after reset: the spec leaves them unspecified (10_state.md R62, R66); zero is
the model's choice (DESIGN CHOICE, log 6). -/
def Working.atReset : Working where
  cmd := 0#32
  step := 0
  timer := 0
  data := 0#8
  hold := false
  selrom := 0#64
  tsample := 0#8
  shift := 0#8
  buf := 0#64
  lastZero := 0#7
  famZero := 0#4
  n := 0#7
  crc := 0#16
  cal := 0#16

/-- The block right after reset (10_state.md R66) in the build `cfg`, with nothing on the port yet and an
unknown bus. -/
def State.resetFor (cfg : Config) : State where
  status := .atReset
  data := 0#8
  ie := false
  tsample := cfg.tsampleReset
  latency := 0#16
  selRomLo := 0#32
  selRomHi := 0#32
  search := .cleared
  crc8 := 0#8
  crc16 := 0#16
  pads := ⟨false, false⟩
  w := .atReset
  cfg := cfg
  now := 0
  wave := []
  port := []
  reads := []
  env := .free 0
  awaitingReset := false

/-- The machine right after reset (10_state.md R66, 70_reset_and_hazards.md R207). -/
def State.reset : State := .resetFor .build

end Sys2Proof.Machine

namespace Sys2Proof.Config

open Sys2Proof.Machine

/-- FREE VALUE. What the block holds after a clock edge that no reset edge has preceded since power-up:
every register, the sequencer's point in a command, and the pad outputs are unspecified
(70_reset_and_hazards.md R210), so the block's part of this state is any, as a choice that may depend on
all that went before. Log 9. -/
opaque unresetBlock : State → State

end Sys2Proof.Config
end

