-- ==== Sys2Proof/Machine/Operands.lean ====
section
/-! DEFINITION. Operand forms: the register a port access names (10_state.md R28), the bytes and bits of
a ROM code (20_memory.md R74, 00_scope.md R20), and the operands of a command (30_encoding.md R95). -/

namespace Sys2Proof.Machine

/-- The sixteen registers of the window (10_state.md R28). -/
inductive RegName
  | cmd | status | data | config | tsample | latency | selRomLo | selRomHi
  | srchRomLo | srchRomHi | srchState | crc8 | crc16 | hwcfg | reserved38 | reserved3C
deriving DecidableEq, Repr

/-- The register at a word offset `reg_addr[5:2]`, a byte offset divided by 4 (10_state.md R28,
20_memory.md R68). -/
def regAt (word : BitVec 4) : RegName :=
  match word.toNat with
  | 0x0 => .cmd
  | 0x1 => .status
  | 0x2 => .data
  | 0x3 => .config
  | 0x4 => .tsample
  | 0x5 => .latency
  | 0x6 => .selRomLo
  | 0x7 => .selRomHi
  | 0x8 => .srchRomLo
  | 0x9 => .srchRomHi
  | 0xA => .srchState
  | 0xB => .crc8
  | 0xC => .crc16
  | 0xD => .hwcfg
  | 0xE => .reserved38
  | _ => .reserved3C

/-- The word offset of a register (10_state.md R28). -/
def wordOf : RegName → BitVec 4
  | .cmd => 0x0#4
  | .status => 0x1#4
  | .data => 0x2#4
  | .config => 0x3#4
  | .tsample => 0x4#4
  | .latency => 0x5#4
  | .selRomLo => 0x6#4
  | .selRomHi => 0x7#4
  | .srchRomLo => 0x8#4
  | .srchRomHi => 0x9#4
  | .srchState => 0xA#4
  | .crc8 => 0xB#4
  | .crc16 => 0xC#4
  | .hwcfg => 0xD#4
  | .reserved38 => 0xE#4
  | .reserved3C => 0xF#4

/-- `v[7:0]`. -/
def lowByte (v : Word) : Byte := v.setWidth 8

/-- `{hi, lo}`: a ROM code from its two registers (20_memory.md R74, R77). -/
def romOf (hi lo : Word) : RomCode := hi ++ lo

/-- Bytes 0..3 of a ROM code, as the LO register holds them. -/
def romLoOf (r : RomCode) : Word := r.extractLsb' 0 32

/-- Bytes 4..7 of a ROM code, as the HI register holds them. -/
def romHiOf (r : RomCode) : Word := r.extractLsb' 32 32

/-- Byte `i` of 0..7 of a ROM code: `r[8i+7:8i]` (20_memory.md R74). -/
def romByte (r : RomCode) (i : Nat) : Byte := r.extractLsb' (8 * i) 8

/-- ROM bit position `n` of 1..64: bit `(n-1) mod 8` of byte `(n-1) div 8` (00_scope.md R20). -/
def romBit (r : RomCode) (n : Nat) : Bool := (romByte r ((n - 1) / 8)).getLsbD ((n - 1) % 8)

/-- `buf[n-1] := d` on a ROM code, for a position `n` of 1..64 (41_rom_search.md R149). -/
def setRomBit (r : RomCode) (n : Nat) (d : Bool) : RomCode :=
  let one : RomCode := 1#64 <<< (n - 1)
  if d then r ||| one else r &&& ~~~one

/-- `r[i] := b` on a byte (40_bus_transactions.md R115). -/
def setByteBit (r : Byte) (i : Nat) (b : Bool) : Byte :=
  let one : Byte := 1#8 <<< i
  if b then r ||| one else r &&& ~~~one

/-- `zext_8(bit)` (10_state.md R42). -/
def bitByte (b : Bool) : Byte := (BitVec.ofBool b).setWidth 8

/-- The clock cycles of one microsecond (00_scope.md R9). -/
def State.cyclesPerUs (s : State) : Nat := s.cfg.clkPerUs.toNat

/-- The candidate ROM buffer `{SRCH_ROM_HI, SRCH_ROM_LO}` (41_rom_search.md R139). -/
def Search.buf (q : Search) : RomCode := romOf q.romHi q.romLo

/-- Bit positions of one byte, in line order: bit 0 first (20_memory.md R75). -/
abbrev byteBits : List Nat := [0, 1, 2, 3, 4, 5, 6, 7]

/-- The bit positions of a search pass, ascending (41_rom_search.md R144). -/
abbrev searchPositions : List Nat := List.range' 1 64

end Sys2Proof.Machine
end

