-- ==== Sys2Proof/Machine/Bus.lean ====
section
/-! DEFINITION. The line: the pad outputs of each line primitive (20_memory.md R82), the level the bus
gives at an edge (R84, R85), and the reference device model (R86). -/

namespace Sys2Proof.Machine

/-- `drive_low()` (20_memory.md R82). -/
def Pads.low : Pads := ⟨true, false⟩
/-- `release()` (R82). -/
def Pads.released : Pads := ⟨false, false⟩
/-- `drive_high()` (R82). -/
def Pads.high : Pads := ⟨false, true⟩

/-- The pad outputs throughout the cycle that ends at edge `u`: those the newest event before `u` left;
released if there was none (10_state.md R65). -/
def padsBefore (wave : List PadEvent) (u : Nat) : Pads :=
  match wave with
  | [] => Pads.released
  | e :: es => if e.edge < u then e.pads else padsBefore es u

/-- The history of the pad outputs before edge `u`: all the bus can depend on when it gives `L(u)`
(20_memory.md R84). -/
def historyBefore (wave : List PadEvent) (u : Nat) : List PadEvent :=
  wave.filter fun e => decide (e.edge < u)

/-- Whether some interval of the list holds `u`, its first edge included, its last not. -/
def inIntervals (intervals : List (Nat × Nat)) (u : Nat) : Bool :=
  intervals.any fun i => decide (i.1 ≤ u) && decide (u < i.2)

/-- The level the bus gives at edge `u` when the block does not pull the line low in the cycle before. -/
def BusEnv.level (env : BusEnv) (wave : List PadEvent) (u : Nat) : Bool :=
  match env with
  | .free draw => Config.freeLevel draw (historyBefore wave u) u
  | .lows intervals => !inIntervals intervals u
  | .devices d => !(decide (d.holdFrom ≤ u) && decide (u < d.holdTo))

/-- `L(u)`, the level of the line at edge `u`: 0 if the block pulled it low throughout the cycle ending
there, else the bus's choice (20_memory.md R84). -/
def State.lineLevel (s : State) (u : Nat) : Bool :=
  !(padsBefore s.wave u).oeLow && s.env.level s.wave u

namespace Devices

/-- The AND of the levels the participating devices put on the line, 1 if there are none
(20_memory.md R86 (b)). -/
def wiredAnd (alive : List RomCode) (bit : RomCode → Bool) : Bool := alive.all bit

/-- In a slot that began at `t0` and whose low time ended at `r`, the devices hold the line low until
60 µs after `t0` if `level` is 0 (log 4). -/
def answer (d : Devices) (c t0 r : Nat) (level : Bool) : Devices :=
  if level then { d with holdFrom := 0, holdTo := 0 }
  else { d with holdFrom := r, holdTo := t0 + 60 * c }

/-- The block's reset pulse ended at `r`: every device takes part again and, if there is one, pulls the
line low in the presence window of 60 to 240 µs after the release (20_memory.md R86 (a), log 4). -/
def afterReset (d : Devices) (c r : Nat) : Devices :=
  { d with
    alive := d.roms
    phase := .command 0 0#8
    holdFrom := if d.roms.isEmpty then 0 else r + 60 * c
    holdTo := if d.roms.isEmpty then 0 else r + 240 * c }

/-- A slot that is no read slot of a search: a read slot has the script's next level, in a write slot no
device pulls the line low (20_memory.md R86 (d)). The script decides whatever was sent before, also after
a SELECT of a code that no device has, where 70_reset_and_hazards.md R218 says that read slots read 1: a
script stands for such a bus only if it gives 1 there (DESIGN CHOICE, log 4). -/
def otherSlot (d : Devices) (c t0 r : Nat) : Devices :=
  if d.reading then { d.answer c t0 r (d.script.headD true) with script := d.script.tail }
  else d.answer c t0 r true

/-- A slot whose low time ran from `t0` to `r`, carrying the bit `b` if the block wrote one
(20_memory.md R86 (b) to (d)). R86 speaks of a search whose slots come as SEARCH_NEXT sends them. Where
another kind of slot comes in one of its places, the place decides (DESIGN CHOICE, log 4), since a device
cannot tell a read slot from a write slot for a 1: where a read slot is due, the devices drive in a write
slot or the pulse of CALIBRATE too, and where a direction, or a bit of the ROM command, is due, a read
slot carries a 1. -/
def afterSlot (d : Devices) (c t0 r : Nat) (b : Bool) : Devices :=
  match d.phase with
  | .waiting | .data => d.otherSlot c t0 r
  | .command count byte =>
    let byte := setByteBit byte count b
    let d := d.otherSlot c t0 r
    if count < 7 then { d with phase := .command (count + 1) byte }
    else if byte = Config.romCmdSearch then { d with phase := .searchId 1 }
    else { d with phase := .data }
  | .searchId k =>
    { d.answer c t0 r (wiredAnd d.alive fun rom => romBit rom k) with phase := .searchComplement k }
  | .searchComplement k =>
    { d.answer c t0 r (wiredAnd d.alive fun rom => !romBit rom k) with phase := .searchDirection k }
  | .searchDirection k =>
    let d := d.otherSlot c t0 r
    { d with
      alive := d.alive.filter fun rom => romBit rom k == b
      phase := if k < 64 then .searchId (k + 1) else .data }

/-- The devices see the block's pad outputs become `p` at edge `t`, `c` cycles to the µs: a low pulse of
480 µs or more is a reset pulse, a shorter one the start of a slot, whose written bit is 1 if it is
shorter than 60 µs (30_encoding.md R98, R100, log 4). A pulse that a reset of the block cuts short leaves
real devices at an unknown point of their protocol (70_reset_and_hazards.md R208); here it counts by its
length as a whole slot or reset pulse, and the protocol moves on (DESIGN CHOICE, log 4). -/
def onPads (d : Devices) (c t : Nat) (p : Pads) : Devices :=
  match d.lowSince, p.oeLow with
  | none, true => { d with lowSince := some t }
  | some t0, false =>
    let d := { d with lowSince := none }
    let d := if 480 * c ≤ t - t0 then d.afterReset c t
      else d.afterSlot c t0 t (decide (t - t0 < 60 * c))
    { d with reading := false }
  | none, false => d
  | some _, true => d

/-- A bus with the devices `roms` that has seen nothing yet, and the levels `script` for read slots
outside a search (20_memory.md R86). -/
def fresh (roms : List RomCode) (script : List Bool) : Devices where
  roms := roms
  alive := []
  phase := .waiting
  lowSince := none
  holdFrom := 0
  holdTo := 0
  script := script
  reading := false

end Devices

/-- What the bus makes of new pad outputs at edge `t`. Only the reference devices keep state of their
own: the free bus sees the whole history instead. -/
def BusEnv.onPads (env : BusEnv) (c t : Nat) (p : Pads) : BusEnv :=
  match env with
  | .free draw => .free draw
  | .lows intervals => .lows intervals
  | .devices d => .devices (d.onPads c t p)

/-- A read slot of the block is about to begin. The reference devices learn it, since R86 (d) gives a
level to each read slot and to no other; no other bus can see it (20_memory.md R84, log 4). -/
def BusEnv.announceRead (env : BusEnv) : BusEnv :=
  match env with
  | .free draw => .free draw
  | .lows intervals => .lows intervals
  | .devices d => .devices { d with reading := true }

/-- The slot that begins now is a read slot (20_memory.md R86 (d)). -/
def State.announceRead (s : State) : State := { s with env := s.env.announceRead }

/-- The pad outputs become `p` at the current edge; the history records it and the bus sees it
(20_memory.md R82). -/
def State.setPads (s : State) (p : Pads) : State :=
  { s with
    pads := p
    wave := ⟨s.now, p⟩ :: s.wave
    env := s.env.onPads s.cyclesPerUs s.now p }

end Sys2Proof.Machine
end

