-- ==== Sys2Proof/Machine/Flags.lean ====
section
/-! DEFINITION. The flags: the numeric result codes (60_exceptions.md R187), the words STATUS, SRCH_STATE
and HWCFG read as (10_state.md R32, R50, R55), `irq` (R64), and the write-1-to-clear rule (R41). -/

namespace Sys2Proof.Machine

/-- The code `STATUS.RESULT` reads as (60_exceptions.md R187). -/
def ResultCode.code : ResultCode → BitVec 4
  | .ok => 0#4
  | .noPresence => 1#4
  | .busCollisionAbort => 2#4
  | .crcMismatch => 3#4
  | .zeroFamily => 4#4
  | .exhausted => 5#4
  | .notCalibrated => 6#4
  | .calibrationError => 7#4
  | .illegalCmd => 8#4
  | .unassigned k => BitVec.ofNat 4 (9 + k.val)

/-- `STATUS.POWER`: 1 while the block drives the line actively high (10_state.md R37). -/
def State.power (s : State) : Bool := s.pads.pu

/-- The value STATUS reads as, field by field from bit 12 down (10_state.md R32); bits 31:13 read 0. -/
def State.statusWord (s : State) : Word :=
  (BitVec.ofBool s.status.stuck ++ s.status.result.code ++ BitVec.ofBool s.status.calerr
    ++ BitVec.ofBool s.status.cal ++ BitVec.ofBool s.power ++ BitVec.ofBool s.status.found
    ++ BitVec.ofBool s.status.presence ++ BitVec.ofBool s.status.ovr ++ BitVec.ofBool s.status.done
    ++ BitVec.ofBool s.status.busy : BitVec 13).setWidth 32

/-- The value SRCH_STATE reads as: TERM at bit 16, LFD at 11:8, LD at 6:0 (10_state.md R50). -/
def Search.stateWord (q : Search) : Word :=
  (BitVec.ofBool q.term ++ 0#4 ++ q.lfd ++ 0#1 ++ q.ld : BitVec 17).setWidth 32

/-- The value HWCFG reads as: CLK_PER_US at bits 15:8, HAS_CRC16 at bit 0 (10_state.md R55). -/
def State.hwcfgWord (s : State) : Word :=
  (s.cfg.clkPerUs ++ 0#7 ++ BitVec.ofBool s.cfg.hasCrc16 : BitVec 16).setWidth 32

/-- The interrupt output `irq` (10_state.md R64, 60_exceptions.md R200). -/
def State.irq (s : State) : Bool := s.status.done && s.ie

/-- A host write of `v` to STATUS: DONE and OVR are cleared where the written bit is 1, nothing else
changes (10_state.md R34, R35, R41). -/
def Status.clearOnes (q : Status) (v : Word) : Status :=
  { q with done := q.done && !v.getLsbD 1, ovr := q.ovr && !v.getLsbD 2 }

/-- STATUS at an acceptance edge (20_memory.md R77). -/
def Status.accepted (q : Status) : Status := { q with busy := true, done := false }

/-- STATUS at a completion edge (20_memory.md R78): the one event of the block (60_exceptions.md R188). -/
def Status.completed (q : Status) (r : ResultCode) : Status :=
  { q with result := r, busy := false, done := true }

end Sys2Proof.Machine
end

