-- ==== Sys2Proof/Machine/Ops.lean ====
section
/-! DEFINITION. The named operations: the register port (20_memory.md R69 to R80), reset
(70_reset_and_hazards.md R207 to R209), the passing of time, the line primitives and slot routines
(40_bus_transactions.md R111 to R116), and the one way every command starts and ends: `gate`
(43_control.md R183) and the completion edge (20_memory.md R78), which stands here for taking an
exception, since the block has no other event (60_exceptions.md R188). -/

namespace Sys2Proof.Machine

/-! ### The register port -/

/-- What a host read returns: the whole register, with no side effect (10_state.md R28 to R55,
20_memory.md R71). -/
def State.readReg (s : State) : RegName → Word
  | .cmd => 0#32
  | .status => s.statusWord
  | .data => s.data.setWidth 32
  | .config => (BitVec.ofBool s.ie).setWidth 32
  | .tsample => s.tsample.setWidth 32
  | .latency => s.latency.setWidth 32
  | .selRomLo => s.selRomLo
  | .selRomHi => s.selRomHi
  | .srchRomLo => s.search.romLo
  | .srchRomHi => s.search.romHi
  | .srchState => s.search.stateWord
  | .crc8 => s.crc8.setWidth 32
  | .crc16 => if s.cfg.hasCrc16 then s.crc16.setWidth 32 else 0#32
  | .hwcfg => s.hwcfgWord
  | .reserved38 => 0#32
  | .reserved3C => 0#32

/-- The acceptance edge of the command word `v` (20_memory.md R77): the operands are latched, BUSY is set
and DONE cleared. -/
def State.accept (s : State) (v : Word) : State :=
  { s with
    status := s.status.accepted
    w := { s.w with
      cmd := v
      step := 0
      timer := 0
      data := s.data
      hold := v.getLsbD 8
      selrom := romOf s.selRomHi s.selRomLo
      tsample := s.tsample } }

/-- A write dropped because a command runs: OVR is set and nothing else happens (10_state.md R35). -/
def State.dropWrite (s : State) : State := { s with status := { s.status with ovr := true } }

/-- Whether `v` is a sample offset TSAMPLE takes: 1..59 (10_state.md R44). -/
def legalTsample (v : Byte) : Bool := decide (1 ≤ v.toNat) && decide (v.toNat ≤ 59)

/-- The lock of TSAMPLE: a CALIBRATE has run (10_state.md R45). -/
def State.tsampleLocked (s : State) : Bool := s.status.cal || s.status.calerr

/-- A host write of `v` (20_memory.md R72, R79). A write that meets both the busy rule and the TSAMPLE
lock sets OVR (DEDUCED, log 8). -/
def State.writeReg (s : State) (r : RegName) (v : Word) : State :=
  match r with
  | .cmd => if s.status.busy then s.dropWrite else s.accept v
  | .status => { s with status := s.status.clearOnes v }
  | .data => if s.status.busy then s.dropWrite else { s with data := lowByte v }
  | .config => { s with ie := v.getLsbD 0 }
  | .tsample =>
    if s.status.busy then s.dropWrite
    else if s.tsampleLocked || !legalTsample (lowByte v) then s
    else { s with tsample := lowByte v }
  | .selRomLo => if s.status.busy then s.dropWrite else { s with selRomLo := v }
  | .selRomHi => if s.status.busy then s.dropWrite else { s with selRomHi := v }
  | .crc8 => if s.status.busy then s.dropWrite else { s with crc8 := lowByte v }
  | .crc16 =>
    if !s.cfg.hasCrc16 then s
    else if s.status.busy then s.dropWrite
    else { s with crc16 := v.setWidth 16 }
  | .latency | .srchRomLo | .srchRomHi | .srchState | .hwcfg | .reserved38 | .reserved3C => s

/-- A host access at the current edge: a read answers the register as it stood after the previous edge
and changes nothing else (20_memory.md R69, R71). -/
def State.hostAccess (s : State) : Access → State
  | .read a => { s with reads := ⟨s.now, a, s.readReg (regAt a)⟩ :: s.reads }
  | .write a v => s.writeReg (regAt a) v

/-- The reset edge (70_reset_and_hazards.md R207, R208): every register takes its reset value and the
line is released; time, the inputs and the records of what happened go on. What the reference devices make
of a pulse it cuts short is the model's choice (`Devices.onPads`, log 4). -/
def State.resetEdge (s : State) : State :=
  { State.resetFor s.cfg with
    now := s.now
    wave := ⟨s.now, Pads.released⟩ :: s.wave
    port := s.port
    reads := s.reads
    env := s.env.onPads s.cyclesPerUs s.now Pads.released }

/-- Before the first reset edge after power-up every register and both pad outputs hold an unspecified
value, a new one at each edge for all the spec says (70_reset_and_hazards.md R210). -/
def State.unspecified (s : State) : State :=
  let q := Config.unresetBlock s
  { s with
    status := q.status
    data := q.data
    ie := q.ie
    tsample := q.tsample
    latency := q.latency
    selRomLo := q.selRomLo
    selRomHi := q.selRomHi
    search := q.search
    crc8 := q.crc8
    crc16 := q.crc16
    w := q.w
    pads := q.pads
    wave := ⟨s.now, q.pads⟩ :: s.wave
    env := s.env.onPads s.cyclesPerUs s.now q.pads }

/-- A block of the build `cfg` at power-up (70_reset_and_hazards.md R210). -/
def State.powerUp (cfg : Config) : State :=
  State.unspecified { State.resetFor cfg with awaitingReset := true }

/-- The edge that ends a port cycle, the clock being already at it. While `rst_n` is low a write is
ignored and a read still answers (70_reset_and_hazards.md R209). -/
def State.portEdge (s : State) (c : PortCycle) : State :=
  if c.rst then
    match c.access with
    | some (.read a) => (s.hostAccess (.read a)).resetEdge
    | some (.write _ _) | none => s.resetEdge
  else
    match c.access with
    | some a => s.hostAccess a
    | none => s

/-! ### The sequencer -/

/-- How a command can end before its completion edge: `rst_n` (70_reset_and_hazards.md R208). -/
inductive Aborted
  | byReset
deriving DecidableEq, Repr

/-- A piece of a command's pseudocode: it takes the state at one edge to the state at a later one, and
ends early, in the state after the reset edge, where `rst_n` cuts it short. -/
abbrev Run (α : Type) := EStateM Aborted State α

/-- The state at the current edge. -/
def Run.state : Run State := get

/-- A change that takes no time. -/
def Run.change (f : State → State) : Run Unit := modify f

/-- One primitive of the pseudocode has been performed (10_state.md R61, log 11). -/
def State.countStep (s : State) : State := { s with w := { s.w with step := s.w.step + 1 } }

/-- The port cycle `c` ends, `left` cycles of the sequencer's wait remaining, `rest` coming after. -/
def State.nextPortCycle (s : State) (c : PortCycle) (rest : List PortCycle) (left : Nat) : State :=
  ({ s with
    now := s.now + (c.gap + 1)
    port := rest
    w := { s.w with timer := left } }).portEdge c

/-- `n` cycles pass, no access being presented in any of them. -/
def State.quietCycles (s : State) (n : Nat) (port : List PortCycle) : State :=
  { s with now := s.now + n, port := port, w := { s.w with timer := 0 } }

/-- `n` cycles of a wait pass, the host's port cycles that fall into them happening at their own edges
(20_memory.md R69); a cycle with `rst_n` low ends the command (70_reset_and_hazards.md R208). -/
def passCycles : List PortCycle → Nat → Run Unit
  | [], n, s => .ok () (s.quietCycles n [])
  | c :: rest, n, s =>
    if c.gap < n then
      if c.rst then .error .byReset (s.nextPortCycle c rest (n - (c.gap + 1)))
      else passCycles rest (n - (c.gap + 1)) (s.nextPortCycle c rest (n - (c.gap + 1)))
    else .ok () (s.quietCycles n ({ c with gap := c.gap - n } :: rest))

/-- `n` clock cycles pass with the pad outputs unchanged (00_scope.md R17). -/
def cycles (n : Nat) : Run Unit := fun s => passCycles s.port n s.countStep

/-- `tick()` (43_control.md R178): one clock cycle. -/
def tick : Run Unit := cycles 1

/-- `wait_us(n)`: `n * CLK_PER_US` clock cycles (00_scope.md R17). -/
def waitUs (n : Nat) : Run Unit := do cycles (n * (← Run.state).cyclesPerUs)

/-- A line primitive sets the pad outputs (20_memory.md R82). -/
def drive (p : Pads) : Run Unit := Run.change fun s => s.countStep.setPads p

/-- `drive_low()` (00_scope.md R16). -/
def driveLow : Run Unit := drive Pads.low
/-- `release()` (R16). -/
def release : Run Unit := drive Pads.released
/-- `drive_high()` (R16). -/
def driveHigh : Run Unit := drive Pads.high

/-- `sample()` at edge `t`: `L(t - SYNC_STAGES)` (20_memory.md R84). No command samples before edge 2 of
a run from reset (log 10). -/
def sample : Run Bool := do
  Run.change State.countStep
  let s ← Run.state
  return s.lineLevel (s.now - Config.syncStages)

/-- `begin_line()`: a power hold ends (40_bus_transactions.md R111). -/
def beginLine : Run Unit := do
  if (← Run.state).pads.pu then release

/-- `write_slot(b)`: one bit out, 61 µs (40_bus_transactions.md R112). -/
def writeSlot (b : Bool) : Run Unit := do
  driveLow
  if b then
    waitUs Config.tW1l; release; waitUs (Config.tSlot - Config.tW1l)
  else
    waitUs Config.tW0l; release; waitUs (Config.tSlot - Config.tW0l)

/-- `read_slot()`: one bit in, 61 µs, the level at the sample point (40_bus_transactions.md R113). -/
def readSlot : Run Bool := do
  let offset := (← Run.state).w.tsample.toNat
  Run.change State.announceRead
  driveLow; waitUs Config.tRl; release
  waitUs offset
  let b ← sample
  waitUs (Config.tSlot - Config.tRl - offset)
  return b

/-- One write slot per listed bit position of `v`. -/
def txBits (v : Byte) : List Nat → Run Unit
  | [] => return ()
  | i :: is => do writeSlot (v.getLsbD i); txBits v is

/-- The shift register `w.shift` takes the byte being sent or received (10_state.md R62). -/
def State.setShift (s : State) (v : Byte) : State := { s with w := { s.w with shift := v } }

/-- The received bit `b` enters the shift register at position `i` (40_bus_transactions.md R115). -/
def State.shiftIn (s : State) (i : Nat) (b : Bool) : State := s.setShift (setByteBit s.w.shift i b)

/-- `tx_byte(v)`: eight write slots, bit 0 first (40_bus_transactions.md R114). -/
def txByte (v : Byte) : Run Unit := do
  Run.change fun s => s.setShift v
  txBits v byteBits

/-- One read slot per listed bit position, into the shift register. -/
def rxBits : List Nat → Run Unit
  | [] => return ()
  | i :: is => do
    let b ← readSlot
    Run.change fun s => s.shiftIn i b
    rxBits is

/-- `rx_byte()`: eight read slots, bit 0 first (40_bus_transactions.md R115). -/
def rxByte : Run Byte := do
  Run.change fun s => s.setShift 0#8
  rxBits byteBits
  return (← Run.state).w.shift

/-- The idle check of a reset, `left` samples remaining: true when a sample reads high, false when none
does; consecutive samples are 1 µs apart (40_bus_transactions.md R116). -/
def idleCheck : Nat → Run Bool
  | 0 => return false
  | left + 1 => do
    if ← sample then return true
    else if left = 0 then return false
    else waitUs 1; idleCheck left

/-- The outcome of a bus reset: `(presence, stuck)`. -/
structure ResetOutcome where
  presence : Bool
  stuck : Bool
deriving DecidableEq, Repr

/-- `bus_reset()`: the idle check, then the reset pulse and the presence sample
(40_bus_transactions.md R116). -/
def busReset : Run ResetOutcome := do
  if ← idleCheck Config.tIdleMax then
    driveLow; waitUs Config.tRstl
    release; waitUs Config.tPds
    let level ← sample
    waitUs Config.tRsth
    return ⟨!level, false⟩
  else return ⟨false, true⟩

/-- `gate()`: a gated line command runs only when CAL = 1 (43_control.md R183). -/
def gated (body : Run ResultCode) : Run ResultCode := do
  if (← Run.state).status.cal then body else return .notCalibrated

/-- The completion edge, `raise <Result>` (00_scope.md R18, 20_memory.md R78, 60_exceptions.md R188):
RESULT gets the code, BUSY is cleared and DONE set. The command's register writes are made at the same
edge, just before (R80), and a host write at that edge comes before both, so that the completion wins
(10_state.md R34). -/
def State.complete (s : State) (r : ResultCode) : State :=
  { s with status := s.status.completed r }

/-- A command from the edge after its acceptance to its end (70_reset_and_hazards.md R221): one cycle
passes, then its pseudocode runs; it ends at the completion edge with its result, or at a reset edge
with none (R208). -/
def runCommand (body : Run ResultCode) (s : State) : State :=
  match (do tick; body : Run ResultCode) s with
  | .ok r t => t.complete r
  | .error .byReset t => t

/-- The answer of a command: always a next state, since nothing traps (60_exceptions.md R188). -/
def command (body : Run ResultCode) (s : State) : Host.Outcome State Fault Refusal :=
  .next (runCommand body s)

end Sys2Proof.Machine
end

