-- ==== Sys2Proof/Machine/Control.lean ====
section
/-! DEFINITION. NOP, CALIBRATE and the reserved opcode (43_control.md). -/

namespace Sys2Proof.Machine

/-- NOP (43_control.md R177). -/
def execNop (s : State) : Host.Outcome State Fault Refusal :=
  command (return .ok) s

/-- The value of the latency counter before a sample has read 1 (43_control.md R180). -/
abbrev noLatency : BitVec 16 := 0xFFFF#16

/-- The cycle counter `w.cal` takes a value (10_state.md R62). -/
def State.setCounter (s : State) (c : BitVec 16) : State := { s with w := { s.w with cal := c } }

/-- The measurement window: `left` more ticks, the next being number `j`; the counter `w.cal` takes the
first `j` whose sample reads 1 (43_control.md R178, R180). -/
def measure : Nat → Nat → Run Unit
  | 0, _ => return ()
  | left + 1, j => do
    tick
    if (← Run.state).w.cal = noLatency then
      if ← sample then
        Run.change fun s => s.setCounter (BitVec.ofNat 16 j)
    measure left (j + 1)

/-- The commit of a measurement (43_control.md R178, R181). -/
def State.commitCalibration (s : State) (pass : Bool) : State :=
  { s with
    latency := s.w.cal
    status :=
      if pass then { s.status with cal := true } else { s.status with calerr := true } }

/-- CALIBRATE (43_control.md R178): once per reset (R179). -/
def execCalibrate (s : State) : Host.Outcome State Fault Refusal :=
  command (do
    let s ← Run.state
    if s.status.cal || s.status.calerr then return .illegalCmd
    else
      beginLine
      driveLow; waitUs Config.tW1l; release
      Run.change fun s => s.setCounter noLatency
      measure ((Config.tSlot - Config.tW1l) * s.cyclesPerUs) 1
      let s ← Run.state
      let pass := decide (s.w.cal.toNat < s.w.tsample.toNat * s.cyclesPerUs)
      Run.change fun s => s.commitCalibration pass
      return if pass then .ok else .calibrationError) s

/-- OP 0xF (43_control.md R184): ILLEGAL_CMD, nothing else. -/
def execReserved (s : State) : Host.Outcome State Fault Refusal :=
  command (return .illegalCmd) s

end Sys2Proof.Machine
end

