-- ==== Sys2Proof/Machine/Crc.lean ====
section
/-! DEFINITION. The CRC engine (42_crc.md). -/

namespace Sys2Proof.Machine

/-- `crc8_bit(crc, b)` (42_crc.md R165). -/
def crc8Bit (crc : Byte) (b : Bool) : Byte :=
  if crc.getLsbD 0 ^^ b then (crc >>> 1) ^^^ Config.crc8Poly else crc >>> 1

/-- `crc8_byte(crc, v)`: bit 0 of `v` first (42_crc.md R166). -/
def crc8Byte (crc v : Byte) : Byte := byteBits.foldl (fun c i => crc8Bit c (v.getLsbD i)) crc

/-- `crc8(b[0..k-1])`, from 0x00 (42_crc.md R167). -/
def crc8 (bytes : List Byte) : Byte := bytes.foldl crc8Byte 0x00#8

/-- `crc16_bit(crc, b)` (42_crc.md R173). -/
def crc16Bit (poly crc : BitVec 16) (b : Bool) : BitVec 16 :=
  if crc.getLsbD 0 ^^ b then (crc >>> 1) ^^^ poly else crc >>> 1

/-- `crc16_byte(crc, v)`: bit 0 of `v` first (42_crc.md R173). -/
def crc16Byte (poly crc : BitVec 16) (v : Byte) : BitVec 16 :=
  byteBits.foldl (fun c i => crc16Bit poly c (v.getLsbD i)) crc

/-- `crc16(b[0..k-1], seed)` (30_encoding.md R108). -/
def crc16 (poly seed : BitVec 16) (bytes : List Byte) : BitVec 16 :=
  bytes.foldl (crc16Byte poly) seed

/-- Whether `inv0` and `inv1` are the low and the high byte of the complement of `c` (42_crc.md R174). -/
def isInvertedPair (c : BitVec 16) (inv0 inv1 : Byte) : Bool :=
  decide ((~~~c).setWidth 8 = inv0) && decide ((~~~c >>> 8).setWidth 8 = inv1)

/-- `checkCrc16` (42_crc.md R174). -/
def checkCrc16 (poly seed : BitVec 16) (bytes : List Byte) (inv0 inv1 : Byte) : Bool :=
  isInvertedPair (crc16 poly seed bytes) inv0 inv1

/-- The bytes 0..6 of a ROM code, in line order. -/
def romSerial (r : RomCode) : List Byte := [0, 1, 2, 3, 4, 5, 6].map (romByte r)

/-- The CRC over a ROM code's bytes 0..6 (41_rom_search.md R153). -/
def romCrc (r : RomCode) : Byte := crc8 (romSerial r)

/-- A ROM code is valid iff `crc8(r[0..6]) = r[7]` (30_encoding.md R101, 42_crc.md R169). -/
def validRom (r : RomCode) : Bool := decide (romCrc r = romByte r 7)

/-- The CRC8 register advances by the latched byte (42_crc.md R168), through `w.crc` (10_state.md R62). -/
def State.advanceCrc8 (s : State) : State :=
  let c := crc8Byte s.crc8 s.w.data
  { s with crc8 := c, w := { s.w with crc := c.setWidth 16 } }

/-- The CRC16 register advances by the latched byte (42_crc.md R172), through `w.crc`. -/
def State.advanceCrc16 (s : State) : State :=
  let c := crc16Byte s.cfg.crc16Poly s.crc16 s.w.data
  { s with crc16 := c, w := { s.w with crc := c } }

/-- CRC8 (42_crc.md R168). -/
def execCrc8 (s : State) : Host.Outcome State Fault Refusal :=
  command (do Run.change State.advanceCrc8; return .ok) s

/-- CRC16 (42_crc.md R172): ILLEGAL_CMD when the build has none. -/
def execCrc16 (s : State) : Host.Outcome State Fault Refusal :=
  command (do
    if (← Run.state).cfg.hasCrc16 then
      Run.change State.advanceCrc16
      return .ok
    else return .illegalCmd) s

end Sys2Proof.Machine
end

