-- ==== Sys2Proof/Machine/Transactions.lean ====
section
/-! DEFINITION. The bit and byte transaction commands (40_bus_transactions.md). -/

namespace Sys2Proof.Machine

/-- A bus reset's outcome in STATUS (10_state.md R36). -/
def State.recordReset (s : State) (o : ResetOutcome) : State :=
  { s with status := { s.status with presence := o.presence, stuck := o.stuck } }

/-- DATA[7:0] takes the result of READ_BIT or READ_BYTE (10_state.md R42). -/
def State.setData (s : State) (v : Byte) : State := { s with data := v }

/-- OW_RESET (40_bus_transactions.md R117). -/
def execOwReset (s : State) : Host.Outcome State Fault Refusal :=
  command (gated do
    beginLine
    let o ← busReset
    Run.change fun s => s.recordReset o
    return if o.presence then .ok else .noPresence) s

/-- WRITE_BIT (40_bus_transactions.md R119). -/
def execWriteBit (s : State) : Host.Outcome State Fault Refusal :=
  command (gated do
    beginLine
    writeSlot ((← Run.state).w.data.getLsbD 0)
    return .ok) s

/-- READ_BIT (40_bus_transactions.md R121). -/
def execReadBit (s : State) : Host.Outcome State Fault Refusal :=
  command (gated do
    beginLine
    let b ← readSlot
    Run.change fun s => s.setData (bitByte b)
    return .ok) s

/-- WRITE_BYTE with HOLD = 0 (40_bus_transactions.md R123): the line stays released. -/
def execWriteByte (s : State) : Host.Outcome State Fault Refusal :=
  command (gated do
    beginLine
    txByte (← Run.state).w.data
    return .ok) s

/-- WRITE_BYTE with HOLD = 1 (40_bus_transactions.md R123, R124): driven high at the completion edge. -/
def execWriteByteH (s : State) : Host.Outcome State Fault Refusal :=
  command (gated do
    beginLine
    txByte (← Run.state).w.data
    driveHigh
    return .ok) s

/-- READ_BYTE (40_bus_transactions.md R126). -/
def execReadByte (s : State) : Host.Outcome State Fault Refusal :=
  command (gated do
    beginLine
    let r ← rxByte
    Run.change fun s => s.setData r
    return .ok) s

/-- The listed bytes of the latched ROM code go out, in order (40_bus_transactions.md R128). -/
def txRomBytes (rom : RomCode) : List Nat → Run Unit
  | [] => return ()
  | i :: is => do txByte (romByte rom i); txRomBytes rom is

/-- SELECT (40_bus_transactions.md R128). -/
def execSelect (s : State) : Host.Outcome State Fault Refusal :=
  command (gated do
    beginLine
    txByte Config.romCmdMatch
    txRomBytes (← Run.state).w.selrom [0, 1, 2, 3, 4, 5, 6, 7]
    return .ok) s

/-- SKIP (40_bus_transactions.md R130). -/
def execSkip (s : State) : Host.Outcome State Fault Refusal :=
  command (gated do
    beginLine
    txByte Config.romCmdSkip
    return .ok) s

/-- DEPOWER (40_bus_transactions.md R132): not gated. -/
def execDepower (s : State) : Host.Outcome State Fault Refusal :=
  command (do beginLine; return .ok) s

end Sys2Proof.Machine
end

