-- ==== Sys2Proof/Machine/Search.lean ====
section
/-! DEFINITION. The ROM search commands (41_rom_search.md). -/

namespace Sys2Proof.Machine

/-- `clear_search()` (41_rom_search.md R139). -/
def State.clearSearch (s : State) : State :=
  { s with search := .cleared, status := { s.status with found := false } }

/-- The direction at position `n`, from the two bits read, the last discrepancy `ld` of the previous
pass and the bit `old` the buffer held (41_rom_search.md R146, R147). -/
def searchDirection (id complement old : Bool) (n ld : Nat) : Bool :=
  if id != complement then id
  else if n < ld then old
  else if n = ld then true
  else false

/-- The working registers after the direction `d` was chosen at position `n`: the last-zero candidates at
a discrepancy (41_rom_search.md R148) and the buffer bit (R149). -/
def Working.noteDirection (w : Working) (n : Nat) (discrepancy d : Bool) : Working :=
  let zero := discrepancy && !d
  { w with
    lastZero := if zero then BitVec.ofNat 7 n else w.lastZero
    famZero := if zero && decide (n ≤ 8) then BitVec.ofNat 4 n else w.famZero
    buf := setRomBit w.buf n d }

/-- The pass is at bit position `n` (10_state.md R62). -/
def State.setPosition (s : State) (n : Nat) : State :=
  { s with w := { s.w with n := BitVec.ofNat 7 n } }

/-- The direction `d` was chosen at position `n`. -/
def State.noteDirection (s : State) (n : Nat) (discrepancy d : Bool) : State :=
  { s with w := s.w.noteDirection n discrepancy d }

/-- The listed positions of a pass, ascending: true when every one was visited, false when one read
`(1,1)` (41_rom_search.md R144 to R149). -/
def searchPass (ld : Nat) : List Nat → Run Bool
  | [] => return true
  | n :: ns => do
    Run.change fun s => s.setPosition n
    let id ← readSlot
    let complement ← readSlot
    if id && complement then return false
    else
      let d := searchDirection id complement (romBit (← Run.state).w.buf n) n ld
      Run.change fun s => s.noteDirection n (id == complement) d
      writeSlot d
      searchPass ld ns

/-- The working copies a pass starts from (41_rom_search.md R143). -/
def State.startPass (s : State) : State :=
  { s with w := { s.w with buf := s.search.buf, lastZero := 0#7, famZero := 0#4 } }

/-- The commit of a pass that passed validation (41_rom_search.md R150, R151, R154). -/
def State.commitPass (s : State) : State :=
  { s with
    search :=
      { romLo := romLoOf s.w.buf
        romHi := romHiOf s.w.buf
        ld := s.w.lastZero
        lfd := s.w.famZero
        term := decide (s.w.lastZero = 0#7) }
    status := { s.status with found := true } }

/-- The ROM check's CRC is in `w.crc` (42_crc.md R176). -/
def State.checkCrc (s : State) : State :=
  { s with w := { s.w with crc := (romCrc s.w.buf).setWidth 16 } }

/-- FOUND becomes 0 (10_state.md R38). -/
def State.dropFound (s : State) : State := { s with status := { s.status with found := false } }

/-- The end of a full pass: the family check, then the ROM's CRC in `w.crc`, then the commit
(41_rom_search.md R152 to R154, 42_crc.md R176). -/
def finishPass : Run ResultCode := do
  let s ← Run.state
  if romByte s.w.buf 0 = 0x00#8 then
    Run.change State.clearSearch
    return .zeroFamily
  else
    Run.change State.checkCrc
    if validRom s.w.buf then
      Run.change State.commitPass
      return .ok
    else
      Run.change State.clearSearch
      return .crcMismatch

/-- A search pass that reaches the bus (41_rom_search.md R142 to R154). PRESENCE and STUCK are written at
the completion edge with the rest (20_memory.md R80). -/
def searchOnBus : Run ResultCode := do
  beginLine
  let o ← busReset
  if o.presence then
    txByte Config.romCmdSearch
    Run.change State.startPass
    let ld := (← Run.state).search.ld.toNat
    let full ← searchPass ld searchPositions
    Run.change fun s => s.recordReset o
    if full then finishPass
    else
      Run.change State.clearSearch
      return .busCollisionAbort
  else
    Run.change fun s => (s.recordReset o).clearSearch
    return .noPresence

/-- SEARCH_NEXT (41_rom_search.md R140): the gate first, the terminal flag second (R141). -/
def execSearchNext (s : State) : Host.Outcome State Fault Refusal :=
  command (gated do
    if (← Run.state).search.term then
      Run.change State.dropFound
      return .exhausted
    else searchOnBus) s

/-- SEARCH_RESET (41_rom_search.md R159). -/
def execSearchReset (s : State) : Host.Outcome State Fault Refusal :=
  command (do Run.change State.clearSearch; return .ok) s

/-- The search state TARGET_SEARCH seeds for a family code (41_rom_search.md R160). -/
def Search.target (family : Byte) : Search where
  romLo := family.setWidth 32
  romHi := 0#32
  ld := 64#7
  lfd := 0#4
  term := false

/-- The search state is seeded with the latched family code, and FOUND becomes 0 (41_rom_search.md R160). -/
def State.seedSearch (s : State) : State :=
  { s with search := .target s.w.data, status := { s.status with found := false } }

/-- TARGET_SEARCH (41_rom_search.md R160). -/
def execTargetSearch (s : State) : Host.Outcome State Fault Refusal :=
  command (do Run.change State.seedSearch; return .ok) s

end Sys2Proof.Machine
end

