-- ==== Sys2Proof/Syntax.lean ====
section
/-! DEFINITION. The commands: one constructor per row of spec/opcode_table.json (30_encoding.md R91).
No row has an operand field: the operands are latched from registers at acceptance (R95), and the one
operand bit of the command word, HOLD, is told apart by the table's two WRITE_BYTE rows. -/

namespace Sys2Proof

inductive Instr
  /-- OP 0x0 (43_control.md R177). -/
  | nop
  /-- OP 0x1 (40_bus_transactions.md R117). -/
  | owReset
  /-- OP 0x2 (R119). -/
  | writeBit
  /-- OP 0x3 (R121). -/
  | readBit
  /-- OP 0x4 with HOLD = 0 (R123). -/
  | writeByte
  /-- OP 0x4 with HOLD = 1 (R123, R124): `WRITE_BYTE.H`. -/
  | writeByteH
  /-- OP 0x5 (R126). -/
  | readByte
  /-- OP 0x6 (R128). -/
  | select
  /-- OP 0x7 (R130). -/
  | skip
  /-- OP 0x8 (R132). -/
  | depower
  /-- OP 0x9 (41_rom_search.md R140). -/
  | searchNext
  /-- OP 0xA (R159). -/
  | searchReset
  /-- OP 0xB (R160). -/
  | targetSearch
  /-- OP 0xC (42_crc.md R168). -/
  | crc8
  /-- OP 0xD (R172). -/
  | crc16
  /-- OP 0xE (43_control.md R178). -/
  | calibrate
  /-- OP 0xF (R184). -/
  | reserved
deriving DecidableEq, Repr

end Sys2Proof
end

