-- ==== Sys2Proof/Machine/Dispatch.lean ====
section
/-! DEFINITION. One arm per command (30_encoding.md R91). -/

namespace Sys2Proof.Machine

def exec (i : Instr) (s : State) : Host.Outcome State Fault Refusal :=
  match i with
  | .nop => Sys2Proof.Machine.execNop s
  | .owReset => Sys2Proof.Machine.execOwReset s
  | .writeBit => Sys2Proof.Machine.execWriteBit s
  | .readBit => Sys2Proof.Machine.execReadBit s
  | .writeByte => Sys2Proof.Machine.execWriteByte s
  | .writeByteH => Sys2Proof.Machine.execWriteByteH s
  | .readByte => Sys2Proof.Machine.execReadByte s
  | .select => Sys2Proof.Machine.execSelect s
  | .skip => Sys2Proof.Machine.execSkip s
  | .depower => Sys2Proof.Machine.execDepower s
  | .searchNext => Sys2Proof.Machine.execSearchNext s
  | .searchReset => Sys2Proof.Machine.execSearchReset s
  | .targetSearch => Sys2Proof.Machine.execTargetSearch s
  | .crc8 => Sys2Proof.Machine.execCrc8 s
  | .crc16 => Sys2Proof.Machine.execCrc16 s
  | .calibrate => Sys2Proof.Machine.execCalibrate s
  | .reserved => Sys2Proof.Machine.execReserved s

end Sys2Proof.Machine
end

