-- ==== Sys2Proof/WellFormed.lean ====
section
/-! DEFINITION. The checks on terms: which commands a build offers (30_encoding.md R92), which build
parameters are legal (00_scope.md R9), and which command words are an assembler's (30_encoding.md
R105). A command that fails its check still runs: it completes with ILLEGAL_CMD (R92). -/

namespace Sys2Proof

/-- The commands that are no illegal encoding in a build: all but OP 0xF, and but OP 0xD when
`HAS_CRC16 = 0` (30_encoding.md R92). -/
def Instr.legal (cfg : Config) : Instr → Bool
  | .reserved => false
  | .crc16 => cfg.hasCrc16
  | .nop | .owReset | .writeBit | .readBit | .writeByte | .writeByteH | .readByte | .select | .skip
  | .depower | .searchNext | .searchReset | .targetSearch | .crc8 | .calibrate => true

/-- The legal build parameters: `CLK_PER_US` in 2..255 (its width bounds it above), `TSAMPLE_RESET` in
1..59 (00_scope.md R9). -/
def Config.wf (cfg : Config) : Bool :=
  decide (2 ≤ cfg.clkPerUs.toNat) && decide (1 ≤ cfg.tsampleReset.toNat)
    && decide (cfg.tsampleReset.toNat ≤ 59)

/-- A command word as the assembler writes it (30_encoding.md R105): every reserved bit clear, and
HOLD set on no command but WRITE_BYTE. -/
def canonicalWord (w : Word) : Bool :=
  decide (w &&& 0xFFFFFEF0#32 = 0#32) && (!w.getLsbD 8 || decide (w &&& 0xF#32 = 4#32))

end Sys2Proof
end

