-- ==== Sys2Proof/Decode.lean ====
section
/-! DEFINITION. Decoding a command word, total on 32 bits (30_encoding.md R90), and the encoder, written
from the same table (R91, R105). No word is refused: OP 0xF is the RESERVED row, which executes and
completes with ILLEGAL_CMD (R92). -/

namespace Sys2Proof

/-- `OP`, bits 3:0 of the command word (30_encoding.md R89). -/
def opField (w : Word) : BitVec 4 := w.extractLsb' 0 4

/-- `HOLD`, bit 8 of the command word (30_encoding.md R89). -/
def holdField (w : Word) : Bool := w.getLsbD 8

/-- The opcode map (30_encoding.md R91). `HOLD` selects between the two rows of WRITE_BYTE and nothing
else; every other bit is ignored (R93). -/
def decode (w : Word) : Instr :=
  match (opField w).toNat with
  | 0x0 => .nop
  | 0x1 => .owReset
  | 0x2 => .writeBit
  | 0x3 => .readBit
  | 0x4 => if holdField w then .writeByteH else .writeByte
  | 0x5 => .readByte
  | 0x6 => .select
  | 0x7 => .skip
  | 0x8 => .depower
  | 0x9 => .searchNext
  | 0xA => .searchReset
  | 0xB => .targetSearch
  | 0xC => .crc8
  | 0xD => .crc16
  | 0xE => .calibrate
  | _ => .reserved

/-- The word an assembler writes for a command (30_encoding.md R105): `OP`, plus 0x100 for `.H`. -/
def encode : Instr → Word
  | .nop => 0x00000000#32
  | .owReset => 0x00000001#32
  | .writeBit => 0x00000002#32
  | .readBit => 0x00000003#32
  | .writeByte => 0x00000004#32
  | .writeByteH => 0x00000104#32
  | .readByte => 0x00000005#32
  | .select => 0x00000006#32
  | .skip => 0x00000007#32
  | .depower => 0x00000008#32
  | .searchNext => 0x00000009#32
  | .searchReset => 0x0000000A#32
  | .targetSearch => 0x0000000B#32
  | .crc8 => 0x0000000C#32
  | .crc16 => 0x0000000D#32
  | .calibrate => 0x0000000E#32
  | .reserved => 0x0000000F#32

/-- The bits of a command word its row of the opcode table fixes: `OP`, and `HOLD` for the two rows of
WRITE_BYTE (30_encoding.md R89, R91). -/
def rowMask : Instr → Word
  | .writeByte | .writeByteH => 0x0000010F#32
  | .nop | .owReset | .writeBit | .readBit | .readByte | .select | .skip | .depower | .searchNext
  | .searchReset | .targetSearch | .crc8 | .crc16 | .calibrate | .reserved => 0x0000000F#32

/-- The instruction the decoder reads from a table row's bits: the command word is one 32-bit word
(30_encoding.md R94), so a row of at most 32 bits fills it from bit 0, the bits above being 0. -/
def decodeTableWord (nbits w : Nat) : Option Instr :=
  if nbits ≤ 32 then some (decode (BitVec.ofNat 32 (w % 2 ^ nbits))) else none

end Sys2Proof
end

