-- ==== Sys2Proof/Machine/Fetch.lean ====
section
/-! DEFINITION. How a command word reaches the sequencer (20_memory.md R77), and what the idle block does
in one step. -/

namespace Sys2Proof.Machine

/-- The command the busy sequencer executes: the accepted word, decoded (10_state.md R33, 30_encoding.md
R90). -/
def State.fetch (s : State) : Instr := decode s.w.cmd

/-- The idle block (10_state.md R59): the access-free cycles before the host's next port cycle pass, and
that cycle's edge happens; with nothing on the port one cycle passes (70_reset_and_hazards.md R225,
log 13). -/
def State.idle (s : State) : State :=
  match s.port with
  | [] => { s with now := s.now + 1 }
  | c :: rest => ({ s with now := s.now + (c.gap + 1), port := rest }).portEdge c

/-- One clock edge of a block that has seen no reset edge since power-up: a read in the cycle before it
answers what the register happens to hold; unless `rst_n` was low, everything is unspecified again
afterwards, whatever the host did (70_reset_and_hazards.md R207, R209, R210). -/
def State.unresetEdge (s : State) : State :=
  match s.port with
  | [] => State.unspecified { s with now := s.now + 1 }
  | c :: rest =>
    if c.gap = 0 then
      let t := ({ s with now := s.now + 1, port := rest }).portEdge c
      if c.rst then t else t.unspecified
    else State.unspecified { s with now := s.now + 1, port := { c with gap := c.gap - 1 } :: rest }

/-- The state right after the acceptance edge of the command word `v`, as if the host had written it to
CMD in the cycle that ends there (20_memory.md R77). -/
def State.acceptNow (s : State) (v : Word) : State :=
  ({ s with now := s.now + 1 }).accept v

end Sys2Proof.Machine
end

