-- ==== Sys2Proof/Machine/Step.lean ====
section
/-! DEFINITION. One step: an accepted command runs to its end (00_scope.md R12); an idle block lets the
host's next port cycle happen; a block that awaits its first reset edge lets one clock edge pass. -/

namespace Sys2Proof.Machine

/-- One step of the machine (logs 1, 9, 13, 14). -/
def step (s : State) : Host.Outcome State Fault Refusal :=
  if s.awaitingReset then .next s.unresetEdge
  else if s.status.busy then exec s.fetch s else .next s.idle

/-- `s` right after the acceptance edge of the command word of `nbits` bits with value `w`, the bits above
being 0: the block fetches nothing, a host write to CMD is how a command comes to run (00_scope.md R24,
20_memory.md R77, logs 2 and 14), in a block that has been reset. The next step runs that command. -/
def State.withFetchWord (s : State) (nbits w : Nat) : State :=
  { s.acceptNow (BitVec.ofNat 32 (w % 2 ^ nbits)) with awaitingReset := false }

end Sys2Proof.Machine
end

