-- ==== Sys2Proof/Machine/HostProgram.lean ====
section
/-! DEFINITION. The host's side: programs of port accesses (30_encoding.md R105) and the
pseudo-instructions that expand to them (R106 to R110, 70_reset_and_hazards.md R211). They are no
commands of the block (00_scope.md R3): each is a list of accesses the host presents. -/

namespace Sys2Proof.Machine

/-- One line of a host program (00_scope.md R15, 30_encoding.md R105). -/
inductive HostOp
  /-- `wr REG, value`. -/
  | wr (r : RegName) (v : Word)
  /-- `rd REG`: the answer is recorded in `State.reads`. -/
  | rd (r : RegName)
  /-- `wr DST, rd SRC` (30_encoding.md R110): a read, and in the next cycle a write of its answer. -/
  | move (dst src : RegName)
  /-- `wait_idle`: `rd STATUS` until BUSY = 0 (00_scope.md R15). -/
  | waitIdle
  /-- The host's other way to wait, when IE = 1: until `irq` (70_reset_and_hazards.md R214). -/
  | waitIrq
deriving DecidableEq, Repr

/-- `cmd MNEMONIC`: a write of the command's word to CMD (30_encoding.md R105). -/
def HostOp.cmd (i : Instr) : HostOp := .wr .cmd (encode i)

/-- One step, as a function on states: no step stops (60_exceptions.md R188, R189). -/
def stepState (s : State) : State :=
  match step s with
  | .next t => t
  | .fault _ => s
  | .refused _ => s

/-- At most `fuel` steps, until the block is idle and the port carries nothing more. -/
def settleFor : Nat → State → State
  | 0, s => s
  | fuel + 1, s => if !s.status.busy && s.port.isEmpty then s else settleFor fuel (stepState s)

/-- The accesses presented so far take effect and the running command ends: each port cycle is one step
at most and starts one command at most. -/
def settle (s : State) : State := settleFor (2 * s.port.length + 1) s

/-- The host presents an access in the cycle right after those already presented. -/
def State.present (s : State) (a : Access) : State :=
  { s with port := s.port ++ [⟨0, false, some a⟩] }

/-- The edge that ends the last of the port cycles `port`, the last clock edge being `now`. -/
def lastEdge : List PortCycle → Nat → Nat
  | [], now => now
  | c :: rest, now => lastEdge rest (now + (c.gap + 1))

/-- How many reads of STATUS, one a cycle from now on, a loop of them until BUSY = 0 takes: one for every
edge at which the block is still to reach the end of its command, and the one that finds BUSY = 0. A read
shows what the edge before its cycle left, and disturbs nothing (20_memory.md R69, R71), so that the run
without the reads says when that is. -/
def State.pollsToIdle (s : State) : Nat := (settle s).now - lastEdge s.port s.now + 1

/-- The host presents `rd STATUS` in each of the next `n` cycles. -/
def State.presentPolls (s : State) (n : Nat) : State :=
  { s with port := s.port ++ List.replicate n ⟨0, false, some (.read (wordOf .status))⟩ }

/-- The value answered to the read that `back` others have followed. -/
def State.answer (s : State) (back : Nat) : Word :=
  match s.reads[back]? with
  | some a => a.value
  | none => 0#32

/-- What one line of a host program does. The host learns the value a `move` writes from the read it
presents the cycle before; an answer depends on nothing presented after its read, so that it is the one
which the accesses up to the read give. -/
def hostOp (s : State) : HostOp → State
  | .wr r v => s.present (.write (wordOf r) v)
  | .rd r => s.present (.read (wordOf r))
  | .move dst src =>
    let s := s.present (.read (wordOf src))
    s.present (.write (wordOf dst) ((settle s).answer 0))
  | .waitIdle => settle (s.presentPolls s.pollsToIdle)
  | .waitIrq => settle s

/-- A host program, run to the end of its last access and command. -/
def hostProgram (s : State) (ops : List HostOp) : State := settle (ops.foldl hostOp s)

/-- `cmd MNEMONIC; wait_idle`. -/
def doCmd (i : Instr) : List HostOp := [.cmd i, .waitIdle]

/-! ### The source's calls (30_encoding.md R109) -/

/-- `reset() -> presence`. -/
def resetProgram : List HostOp := doCmd .owReset ++ [.rd .status]

/-- `writeBit(bit)`. -/
def writeBitProgram (b : Bool) : List HostOp :=
  .wr .data ((bitByte b).setWidth 32) :: doCmd .writeBit

/-- `readBit() -> bit`. -/
def readBitProgram : List HostOp := doCmd .readBit ++ [.rd .data]

/-- `writeByte(v, hold)`. -/
def writeByteProgram (v : Byte) (hold : Bool) : List HostOp :=
  .wr .data (v.setWidth 32) :: doCmd (if hold then .writeByteH else .writeByte)

/-- `readByte() -> byte`. -/
def readByteProgram : List HostOp := doCmd .readByte ++ [.rd .data]

/-- `select(rom)`. -/
def selectProgram (rom : RomCode) : List HostOp :=
  [.wr .selRomLo (romLoOf rom), .wr .selRomHi (romHiOf rom)] ++ doCmd .select

/-- `skip()`. -/
def skipProgram : List HostOp := doCmd .skip

/-- `depower()`. -/
def depowerProgram : List HostOp := doCmd .depower

/-- `resetSearch()`. -/
def resetSearchProgram : List HostOp := doCmd .searchReset

/-- `targetSearch(f)`. -/
def targetSearchProgram (family : Byte) : List HostOp :=
  .wr .data (family.setWidth 32) :: doCmd .targetSearch

/-- `search() -> (found, rom)`. -/
def searchProgram : List HostOp :=
  doCmd .searchNext ++ [.rd .status, .rd .srchRomLo, .rd .srchRomHi]

/-- Construction, with a sample offset of its own or without one. -/
def constructionProgram (t : Option Byte) : List HostOp :=
  (match t with
    | some t => [.wr .tsample (t.setWidth 32)]
    | none => []) ++ doCmd .calibrate ++ [.rd .status]

/-- What `reset()` returns: `rd STATUS .PRESENCE`. -/
def presenceAnswer (s : State) : Bool := (s.answer 0).getLsbD 3

/-- What `readBit()` returns: `rd DATA [0]`. -/
def bitAnswer (s : State) : Bool := (s.answer 0).getLsbD 0

/-- What `readByte()` returns, and `crc8`: bits 7:0 of the value read. -/
def byteAnswer (s : State) : Byte := lowByte (s.answer 0)

/-- What `search()` returns: `rd STATUS .FOUND` and the ROM code from its two registers. -/
def searchAnswer (s : State) : Bool × RomCode :=
  ((s.answer 2).getLsbD 4, romOf (s.answer 0) (s.answer 1))

/-- Whether construction passed: `rd STATUS .CAL = 1`. -/
def constructionPassed (s : State) : Bool := (s.answer 0).getLsbD 6

/-! ### The pseudo-instructions (30_encoding.md R106 to R110) -/

/-- `writeBytes` (R106). -/
def writeBytesProgram (bs : List Byte) : List HostOp :=
  bs.flatMap fun b => writeByteProgram b false

/-- `readBytes` (R106). -/
def readBytesProgram (k : Nat) : List HostOp := (List.replicate k readByteProgram).flatten

/-- `crc8` (R107). -/
def crc8Program (bs : List Byte) : List HostOp :=
  .wr .crc8 0#32 :: bs.flatMap (fun b => .wr .data (b.setWidth 32) :: doCmd .crc8) ++ [.rd .crc8]

/-- `crc16` (R108). -/
def crc16Program (seed : BitVec 16) (bs : List Byte) : List HostOp :=
  .wr .crc16 (seed.setWidth 32)
    :: bs.flatMap (fun b => .wr .data (b.setWidth 32) :: doCmd .crc16) ++ [.rd .crc16]

/-- What `checkCrc16` returns after `crc16Program`: the value read is the one the inverted pair stands
for (R108, 42_crc.md R174). -/
def crc16PairAnswer (s : State) (inv0 inv1 : Byte) : Bool :=
  isInvertedPair ((s.answer 0).setWidth 16) inv0 inv1

/-- `selectFound` (R110). -/
def selectFoundProgram : List HostOp :=
  [.move .selRomLo .srchRomLo, .move .selRomHi .srchRomHi] ++ doCmd .owReset ++ doCmd .select

/-! ### Boot -/

/-- The optional end of the boot sequence (70_reset_and_hazards.md R211). -/
def bootOptions (enableIrq resetSearch : Bool) : List HostOp :=
  (if enableIrq then [.wr .config 1#32] else []) ++ (if resetSearch then resetSearchProgram else [])

/-- The boot sequence (70_reset_and_hazards.md R211): it stops where CAL is not 1. -/
def boot (s : State) (t : Option Byte) (enableIrq resetSearch : Bool) : State :=
  let u := hostProgram s (constructionProgram t)
  if constructionPassed u then hostProgram u (bootOptions enableIrq resetSearch) else u

end Sys2Proof.Machine
end

