-- ==== Sys2Proof/Safety.lean ====
section
/-! DEFINITION. The terms claims are made in: the inputs of a run, what a command leaves alone, the
waveforms of 30_encoding.md R97 to R100 with their edges (70_reset_and_hazards.md R221), and the
invariant every step keeps. Nothing here is part of the machine. -/

namespace Sys2Proof.Machine

/-! ### The inputs of a run -/

/-- No port cycle to come holds `rst_n` low. -/
abbrev NoReset (s : State) : Prop := ∀ c ∈ s.port, c.rst = false

/-- Whether an access is a write. -/
def Access.isWrite : Access → Bool
  | .read _ => false
  | .write _ _ => true

/-- No port cycle to come carries a write. -/
abbrev NoWrites (s : State) : Prop := ∀ c ∈ s.port, c.access.any Access.isWrite = false

/-- A bus whose levels depend on the history of the pad outputs alone (20_memory.md R84): not the
reference devices, whose own state moves with it. -/
def BusEnv.passive : BusEnv → Bool
  | .free _ => true
  | .lows _ => true
  | .devices _ => false

/-- The reads among the port cycles `port`, the last clock edge being `now`, that end at edge `last` or
before: for each the edge and the word offset, in order of time (20_memory.md R69). -/
def readCycles : List PortCycle → Nat → Nat → List (Nat × BitVec 4)
  | [], _, _ => []
  | c :: rest, now, last =>
    let edge := now + (c.gap + 1)
    if edge ≤ last then
      match c.access with
      | some (.read word) => (edge, word) :: readCycles rest edge last
      | some (.write _ _) | none => readCycles rest edge last
    else []

/-- The writes among the port cycles `port` that end at edge `last` or before: for each the word offset
and the value, in order of time. -/
def writeCycles : List PortCycle → Nat → Nat → List (BitVec 4 × Word)
  | [], _, _ => []
  | c :: rest, now, last =>
    let edge := now + (c.gap + 1)
    if edge ≤ last then
      match c.access with
      | some (.write word v) => (word, v) :: writeCycles rest edge last
      | some (.read _) | none => writeCycles rest edge last
    else []

/-- What a host write can change in a busy block: CONFIG.IE, DONE and OVR. -/
structure HostBits where
  ie : Bool
  done : Bool
  ovr : Bool
deriving DecidableEq, Repr

/-- Those bits of a state. -/
def State.hostBits (s : State) : HostBits := ⟨s.ie, s.status.done, s.status.ovr⟩

/-- What a write to a busy block makes of them, in a build that has the 16-bit CRC or not (20_memory.md
R79, 10_state.md R35, R41, R43). -/
def HostBits.write (hasCrc16 : Bool) (b : HostBits) (w : BitVec 4 × Word) : HostBits :=
  match regAt w.1 with
  | .cmd | .data | .tsample | .selRomLo | .selRomHi | .crc8 => { b with ovr := true }
  | .crc16 => { b with ovr := b.ovr || hasCrc16 }
  | .config => { b with ie := w.2.getLsbD 0 }
  | .status => { b with done := b.done && !w.2.getLsbD 1, ovr := b.ovr && !w.2.getLsbD 2 }
  | .latency | .srchRomLo | .srchRomHi | .srchState | .hwcfg | .reserved38 | .reserved3C => b

/-- Those bits at edge `last` of a command that runs on from `s`: the writes up to that edge have been
made, in order. -/
def State.hostBitsAt (s : State) (last : Nat) : HostBits :=
  (writeCycles s.port s.now last).foldl (HostBits.write s.cfg.hasCrc16) s.hostBits

/-- Which read an answer is the answer to: its edge and its word offset. -/
def ReadAnswer.asked (a : ReadAnswer) : Nat × BitVec 4 := (a.edge, a.word)

/-- What is still to come of the port cycles `port` after `n` clock cycles. -/
def restCycles : List PortCycle → Nat → List PortCycle
  | [], _ => []
  | c :: rest, n =>
    if c.gap < n then restCycles rest (n - (c.gap + 1)) else { c with gap := c.gap - n } :: rest

/-- The first of the port cycles `port` with `rst_n` low, the last clock edge being `now`: the edge that
ends it, the access it carries, and the cycles after it (70_reset_and_hazards.md R207). -/
def firstReset : List PortCycle → Nat → Option (Nat × Option Access × List PortCycle)
  | [], _ => none
  | c :: rest, now =>
    if c.rst then some (now + (c.gap + 1), c.access, rest) else firstReset rest (now + (c.gap + 1))

/-- `s` with the host's port cycles up to the first with `rst_n` low, and none after. -/
def State.untilReset (s : State) : State := { s with port := s.port.takeWhile fun c => !c.rst }

/-- `s` without the host accesses that are to come. -/
def State.withoutHost (s : State) : State := { s with port := [] }

/-! ### How a command ends -/

/-- `i` runs to a completion edge `d` cycles after acceptance with result `r`, in a state of which `Q`
holds: RESULT is the code, BUSY 0, DONE 1 (20_memory.md R78, 70_reset_and_hazards.md R221). -/
def CompletesWith (i : Instr) (s : State) (r : ResultCode) (d : Nat) (Q : State → Prop) : Prop :=
  ∃ t, exec i s = .next t ∧ t.status.result = r ∧ t.status.busy = false ∧ t.status.done = true
    ∧ t.now = s.now + d ∧ Q t

/-- Everything a command may leave alone: every register of the window, every flag but BUSY, DONE and
RESULT, and the build. CONFIG.IE and OVR are the host's, and stay too unless the host writes meanwhile.
A command that writes one of these registers leaves `{ t with <it> := <old value> }` untouched. -/
def Untouched (s t : State) : Prop :=
  t.data = s.data ∧ t.tsample = s.tsample ∧ t.latency = s.latency ∧ t.selRomLo = s.selRomLo
    ∧ t.selRomHi = s.selRomHi ∧ t.search = s.search ∧ t.crc8 = s.crc8 ∧ t.crc16 = s.crc16
    ∧ t.cfg = s.cfg ∧ t.status.presence = s.status.presence ∧ t.status.found = s.status.found
    ∧ t.status.cal = s.status.cal ∧ t.status.calerr = s.status.calerr
    ∧ t.status.stuck = s.status.stuck
    ∧ (NoWrites s → t.ie = s.ie ∧ t.status.ovr = s.status.ovr)

/-- No line activity: the pad outputs, their history and the bus are as before. -/
def LineQuiet (s t : State) : Prop := t.pads = s.pads ∧ t.wave = s.wave ∧ t.env = s.env

/-- What a register of the window reads after reset in the build `cfg` (10_state.md R66): TSAMPLE its
reset value, HWCFG CLK_PER_US at bits 15:8 and HAS_CRC16 at bit 0 (R55), every other 0. -/
def resetReading (cfg : Config) : RegName → Word
  | .tsample => cfg.tsampleReset.setWidth 32
  | .hwcfg => cfg.clkPerUs.setWidth 32 <<< 8 ||| (BitVec.ofBool cfg.hasCrc16).setWidth 32
  | .cmd | .status | .data | .config | .latency | .selRomLo | .selRomHi | .srchRomLo | .srchRomHi
  | .srchState | .crc8 | .crc16 | .reserved38 | .reserved3C => 0#32

/-- `i` is refused with result `r`: one cycle, nothing but RESULT, DONE and BUSY written, no line
activity (43_control.md R186, 70_reset_and_hazards.md R222). -/
def RefusedWith (i : Instr) (s : State) (r : ResultCode) : Prop :=
  CompletesWith i s r 1 fun t => Untouched s t ∧ LineQuiet s t

/-- The gated line commands (43_control.md R183). -/
def gatedCommands : List Instr :=
  [.owReset, .writeBit, .readBit, .writeByte, .writeByteH, .readByte, .select, .skip, .searchNext]

/-! ### Waveforms -/

/-- The edge at which a command accepted at the current edge performs its first primitive
(70_reset_and_hazards.md R221). -/
def State.firstEdge (s : State) : Nat := s.now + 1

/-- The pad events `events`, in order of time, are what was added to the history from `s` to `t`. -/
def PadTrace (s t : State) (events : List PadEvent) : Prop := t.wave = events.reverse ++ s.wave

/-- The pad events of a write slot for bit `b` that starts at `t0`, `c` cycles to the µs: low for 1 or
60 µs (30_encoding.md R98). A read slot has the pad events of a write-1 slot (R99). -/
def slotEvents (c t0 : Nat) (b : Bool) : List PadEvent :=
  [⟨t0, Pads.low⟩, ⟨t0 + (if b then 1 else 60) * c, Pads.released⟩]

/-- The pad events of consecutive slots, 61 µs each, with no gap (30_encoding.md R97). -/
def slotsEvents (c t0 : Nat) : List Bool → List PadEvent
  | [] => []
  | b :: bs => slotEvents c t0 b ++ slotsEvents c (t0 + 61 * c) bs

/-- The bits of a byte in line order (20_memory.md R75). -/
def lineBits (v : Byte) : List Bool := byteBits.map v.getLsbD

/-- The bits of the SELECT frame: 0x55, then the eight ROM bytes (30_encoding.md R104). -/
def selectBits (rom : RomCode) : List Bool :=
  lineBits 0x55#8 ++ [0, 1, 2, 3, 4, 5, 6, 7].flatMap fun i => lineBits (romByte rom i)

/-- The pad event of `begin_line()` at edge `t0` (40_bus_transactions.md R111). -/
def holdEndEvents (s : State) (t0 : Nat) : List PadEvent :=
  if s.pads.pu then [⟨t0, Pads.released⟩] else []

/-- The edge whose line level the read slot that starts at `t0` returns: the sample point is
`1 + TSAMPLE` µs into the slot, and the synchronizer adds two cycles (30_encoding.md R99,
20_memory.md R84). -/
def State.slotLevelEdge (s : State) (t0 : Nat) : Nat :=
  t0 + (1 + s.w.tsample.toNat) * s.cyclesPerUs - 2

/-- The edge whose line level sample `j` of the idle check returns (40_bus_transactions.md R116). -/
def State.idleLevelEdge (s : State) (j : Nat) : Nat := s.firstEdge + j * s.cyclesPerUs - 2

/-- The edge whose line level the presence sample returns after an idle check of `k` µs
(30_encoding.md R100). -/
def State.presenceLevelEdge (s : State) (k : Nat) : Nat :=
  s.firstEdge + (k + 550) * s.cyclesPerUs - 2

/-- The pad events of a reset pulse that starts at `t0` (30_encoding.md R100). -/
def resetPulseEvents (c t0 : Nat) : List PadEvent :=
  [⟨t0, Pads.low⟩, ⟨t0 + 480 * c, Pads.released⟩]

/-- Sample `k` of the idle check is the first that reads high, of a line whose levels are those `t`
records (40_bus_transactions.md R116). -/
def IdleAfter (s t : State) (k : Nat) : Prop :=
  k < 250 ∧ t.lineLevel (s.idleLevelEdge k) = true
    ∧ ∀ j < k, t.lineLevel (s.idleLevelEdge j) = false

/-! ### The search -/

/-- The start of the slots of ROM bit position `n` in a full pass that completed at edge `t.now`: 183 µs
for each position, the last ending at the completion edge (41_rom_search.md R157). -/
def State.positionStart (s t : State) (n : Nat) : Nat := t.now - (65 - n) * 183 * s.cyclesPerUs

/-- `idBit` at position `n` of that pass: the level its first slot sampled (41_rom_search.md R144). -/
def State.idBitOf (s t : State) (n : Nat) : Bool :=
  t.lineLevel (s.slotLevelEdge (s.positionStart t n))

/-- `complementBit` at position `n`: the level its second slot sampled (41_rom_search.md R144). -/
def State.complementBitOf (s t : State) (n : Nat) : Bool :=
  t.lineLevel (s.slotLevelEdge (s.positionStart t n + 61 * s.cyclesPerUs))

/-- Position `n` of that pass was a discrepancy, read back as `(0,0)` (41_rom_search.md R144). -/
def State.discrepancyAt (s t : State) (n : Nat) : Prop :=
  s.idBitOf t n = false ∧ s.complementBitOf t n = false

/-- The start of the slots of position `n` in a pass of `s` whose bus reset idled for `k` µs: after the
reset and the eight slots of the command byte, 183 µs for each position (30_encoding.md R103,
41_rom_search.md R157). -/
def State.passStart (s : State) (k n : Nat) : Nat :=
  s.firstEdge + (k + 960 + 488 + 183 * (n - 1)) * s.cyclesPerUs

/-- The two bits read at position `n` of that pass, from the levels `t` records: `idBit`, then
`complementBit` (41_rom_search.md R144). -/
def State.bitsRead (s t : State) (k n : Nat) : Bool × Bool :=
  (t.lineLevel (s.slotLevelEdge (s.passStart k n)),
    t.lineLevel (s.slotLevelEdge (s.passStart k n + 61 * s.cyclesPerUs)))

/-- The bit the working buffer of `t` has at position `n` is the direction for the two bits read there,
which are not both 1: the bits' own where they differ, and at a discrepancy the old buffer's below the
last discrepancy of `s`, 1 at it, 0 above it (41_rom_search.md R145 to R147, R149). -/
def TookDirection (s t : State) (k n : Nat) : Prop :=
  s.bitsRead t k n ≠ (true, true)
    ∧ (s.bitsRead t k n = (true, false) → romBit t.w.buf n = true)
    ∧ (s.bitsRead t k n = (false, true) → romBit t.w.buf n = false)
    ∧ (s.bitsRead t k n = (false, false) →
      (n < s.search.ld.toNat → romBit t.w.buf n = romBit s.search.buf n)
        ∧ (n = s.search.ld.toNat → romBit t.w.buf n = true)
        ∧ (s.search.ld.toNat < n → romBit t.w.buf n = false))

/-- `v` is the highest position in `1..top` at which `p` holds, or 0 if there is none
(41_rom_search.md R148). -/
def HighestOrZero (p : Nat → Prop) (top v : Nat) : Prop :=
  (v = 0 ∨ (1 ≤ v ∧ v ≤ top ∧ p v)) ∧ ∀ n, v < n → n ≤ top → ¬p n

/-- The bits of the slots of `k` positions of a search pass from `lo` on, a read slot looking like a
write-1 slot: two read slots, then the direction, which is the position's bit in `buf`
(30_encoding.md R103, 41_rom_search.md R149). -/
def passBits (buf : RomCode) (lo k : Nat) : List Bool :=
  (List.range' lo k).flatMap fun n => [true, true, romBit buf n]

/-- `n` SEARCH_NEXT commands in a row from an idle state: the ROM codes found, and the last state. -/
def enumerate : Nat → State → List RomCode × State
  | 0, s => ([], s)
  | n + 1, s =>
    match step (s.acceptNow (encode .searchNext)) with
    | .next t =>
      let r := enumerate n t
      (if t.status.found then t.search.buf :: r.1 else r.1, r.2)
    | .fault _ => ([], s)
    | .refused _ => ([], s)

/-- The order of 41_rom_search.md R161: at the lowest position where the two codes differ, the first has
0 and the second 1. -/
def romBefore (a b : RomCode) : Prop :=
  ∃ n, 1 ≤ n ∧ n ≤ 64 ∧ romBit a n = false ∧ romBit b n = true
    ∧ ∀ m, 1 ≤ m → m < n → romBit a m = romBit b m

/-- An idle block with a legal build, a passed calibration and no host access to come, whose line is
released and is pulled low neither by it nor by the reference devices `roms` (20_memory.md R86) attached
to it. -/
structure OnDevices (s : State) (roms : List RomCode) : Prop where
  wasReset : s.awaitingReset = false
  build : s.cfg.wf = true
  idle : s.status.busy = false
  calibrated : s.status.cal = true
  offset : 1 ≤ s.tsample.toNat ∧ s.tsample.toNat ≤ 59
  /-- 43_control.md R181, R182 (d): what a passed calibration leaves. -/
  passed : Config.syncStages < s.latency.toNat
    ∧ s.latency.toNat < s.tsample.toNat * s.cyclesPerUs
  noHost : s.port = []
  released : s.pads = Pads.released
  history : ∀ e ∈ s.wave, e.edge ≤ s.now
  notPulled : (padsBefore s.wave s.now).oeLow = false
  bus : ∃ d, s.env = .devices d ∧ d.roms = roms ∧ d.lowSince = none ∧ d.holdTo ≤ s.now

/-- The ROM codes the enumeration property is about: distinct, valid, no family code 0x00
(41_rom_search.md R162). -/
structure GoodRoms (roms : List RomCode) : Prop where
  distinct : roms.Nodup
  valid : ∀ r ∈ roms, validRom r = true
  family : ∀ r ∈ roms, romByte r 0 ≠ 0x00#8

/-! ### The invariant -/

/-- The search state is in range (10_state.md R52). -/
def Search.inRange (q : Search) : Prop :=
  q.ld.toNat ≤ 64 ∧ q.lfd.toNat ≤ 8 ∧ q.lfd.toNat ≤ q.ld.toNat
    ∧ (q.term = true → q.ld = 0#7 ∧ q.lfd = 0#4)

/-- The history of the pad outputs lies in the past, is in order of time, and ends with the pad outputs
there are. -/
abbrev State.Timely (s : State) : Prop :=
  (∀ e ∈ s.wave, e.edge ≤ s.now) ∧ s.wave.Pairwise (fun a b => b.edge ≤ a.edge)
    ∧ s.pads = padsBefore s.wave (s.now + 1)

/-- What holds between any two steps. -/
structure Invariant (s : State) : Prop where
  /-- 70_reset_and_hazards.md R210: a reset edge has come. -/
  wasReset : s.awaitingReset = false
  /-- 60_exceptions.md R187: RESULT is one of the nine codes. -/
  result : s.status.result.code.toNat ≤ 8
  /-- 00_scope.md R9. -/
  build : s.cfg.wf = true
  /-- 10_state.md R65. -/
  padsNotBoth : ¬(s.pads.oeLow = true ∧ s.pads.pu = true)
  /-- 20_memory.md R83: no line is left driven low. -/
  notLow : s.pads.oeLow = false
  /-- 10_state.md R44. -/
  offset : 1 ≤ s.tsample.toNat ∧ s.tsample.toNat ≤ 59
  /-- 10_state.md R39. -/
  calOnce : ¬(s.status.cal = true ∧ s.status.calerr = true)
  /-- 43_control.md R181: a passed calibration's latency is below the sample offset. -/
  calPassed : s.status.cal = true → s.latency.toNat < s.tsample.toNat * s.cyclesPerUs
  /-- 43_control.md R182 (d): no sample of the measurement sees a level from before the release. -/
  calLatency : s.status.cal = true → Config.syncStages < s.latency.toNat
  /-- 43_control.md R181: a failed one's is not. -/
  calFailed : s.status.calerr = true → s.tsample.toNat * s.cyclesPerUs ≤ s.latency.toNat
  /-- 70_reset_and_hazards.md R220, 43_control.md R183: only a gated command starts a hold. -/
  holdCalibrated : s.pads.pu = true → s.status.cal = true
  /-- 10_state.md R52. -/
  search : s.search.inRange
  /-- 10_state.md R36. -/
  stuckAbsent : s.status.stuck = true → s.status.presence = false
  /-- 10_state.md R38, 41_rom_search.md R152, R153: a found code is valid, of non-zero family. -/
  foundValid : s.status.found = true →
    validRom s.search.buf = true ∧ romByte s.search.buf 0 ≠ 0x00#8
  /-- 20_memory.md R77, R81: a command about to run has its operands latched. -/
  latched : s.status.busy = true →
    s.status.done = false ∧ s.w.data = s.data ∧ s.w.tsample = s.tsample
      ∧ s.w.selrom = romOf s.selRomHi s.selRomLo ∧ s.w.hold = s.w.cmd.getLsbD 8
  /-- The history is in order of time and ends with the pad outputs there are. -/
  history : s.Timely

end Sys2Proof.Machine
end

