-- ==== Sys2Proof/Certificates/Slice0/Obligations.lean ====
section
/-! DEFINITION. The statements for the provers, each a `Prop` about the machine. Registers, flags and
edges are named as the spec names them; every docstring cites the rules it formalises. -/

open Sys2Proof Sys2Proof.Machine

/-! ### Encoding -/

/-- Words written out from the table of 30_encoding.md R91, some with reserved bits set (R93). -/
def Obligations.TableWordsDecode : Prop :=
  decode 0x00000000#32 = .nop ∧ decode 0xFFFFFFF0#32 = .nop ∧ decode 0x00000001#32 = .owReset
    ∧ decode 0x00000104#32 = .writeByteH ∧ decode 0xFFFFFE04#32 = .writeByte
    ∧ decode 0x00000109#32 = .searchNext ∧ decode 0x0000000C#32 = .crc8
    ∧ decode 0x0000000E#32 = .calibrate ∧ decode 0xFFFFFFFF#32 = .reserved

/-- 30_encoding.md R90, R93: OP alone selects the command, HOLD tells the two WRITE_BYTE rows apart and
is ignored by every other command, every word is exactly one row of the table, and decoding undoes
encoding in both directions. -/
def Obligations.EveryWordIsExactlyOneRow : Prop :=
  (∀ w : Word, w &&& rowMask (decode w) = encode (decode w))
    ∧ (∀ (w : Word) i, w &&& rowMask i = encode i → decode w = i)
    ∧ (∀ v w : Word, opField v = opField w → opField w ≠ 4#4 → decode v = decode w)
    ∧ (∀ v w : Word, opField v = opField w → holdField v = holdField w → decode v = decode w)
    ∧ (∀ i, canonicalWord (encode i) = true ∧ decode (encode i) = i)
    ∧ (∀ w : Word, canonicalWord w = true → encode (decode w) = w)

/-! ### The register port -/

/-- 10_state.md R66, 70_reset_and_hazards.md R207: what the window reads after reset, at the start and
after any cycle with `rst_n` low. -/
def Obligations.ResetLeavesTheListedValues : Prop :=
  (∀ (s : State) (c : PortCycle), c.rst = true →
    let t := s.portEdge c
    (∀ r, t.readReg r = resetReading s.cfg r)
    ∧ t.pads = ⟨false, false⟩ ∧ t.irq = false ∧ t.status.busy = false ∧ t.cfg = s.cfg)
  ∧ (∀ r, State.reset.readReg r = resetReading State.reset.cfg r)
  ∧ State.reset.readReg .tsample = 10#32

/-- 70_reset_and_hazards.md R210: before the first reset edge after power-up every register and both pad
outputs are free values, whatever the host does; one edge with `rst_n` low gives the reset values. That
they are free anew at every edge is the model's reading of it (log 9). -/
def Obligations.UnresetBlockAwaitsOneResetEdge : Prop :=
  (∀ s : State, s.awaitingReset = true →
    (∀ c rest, s.port = c :: rest → c.gap = 0 → c.rst = true →
      ∃ t, step s = .next t ∧ t.awaitingReset = false ∧ t.now = s.now + 1 ∧ t.port = rest
        ∧ (∀ r, t.readReg r = resetReading s.cfg r) ∧ t.pads = ⟨false, false⟩ ∧ t.irq = false
        ∧ t.status.busy = false ∧ t.cfg = s.cfg)
    ∧ ((∀ c rest, s.port = c :: rest → c.gap = 0 → c.rst = false) →
      ∃ t u, step s = .next t ∧ t.awaitingReset = true ∧ t.now = s.now + 1 ∧ t.cfg = s.cfg
        ∧ (let q := Config.unresetBlock u
          t.status = q.status ∧ t.data = q.data ∧ t.ie = q.ie ∧ t.tsample = q.tsample
            ∧ t.latency = q.latency ∧ t.selRomLo = q.selRomLo ∧ t.selRomHi = q.selRomHi
            ∧ t.search = q.search ∧ t.crc8 = q.crc8 ∧ t.crc16 = q.crc16 ∧ t.w = q.w
            ∧ t.pads = q.pads ∧ t.wave = ⟨t.now, q.pads⟩ :: s.wave)))
  ∧ ∀ cfg, (State.powerUp cfg).awaitingReset = true ∧ (State.powerUp cfg).cfg = cfg

/-- 10_state.md R28, 20_memory.md R68, R69: which register each word offset of the window is, for a read
and for a write, busy or not. -/
def Obligations.TheWindowHasItsMap : Prop :=
  ∀ (s : State) (a : BitVec 4), ∃ r,
    [RegName.cmd, .status, .data, .config, .tsample, .latency, .selRomLo, .selRomHi, .srchRomLo,
      .srchRomHi, .srchState, .crc8, .crc16, .hwcfg, .reserved38, .reserved3C][a.toNat]? = some r
    ∧ regAt a = r
    ∧ (s.hostAccess (.read a)).reads = ⟨s.now, a, s.readReg r⟩ :: s.reads
    ∧ ∀ v, s.hostAccess (.write a v) = s.writeReg r v

/-- 10_state.md R29 to R31, R42 to R55: what every register but STATUS reads as, bit by bit. -/
def Obligations.EveryRegisterReadsItsFields : Prop :=
  ∀ s : State,
    s.readReg .cmd = 0#32 ∧ s.readReg .reserved38 = 0#32 ∧ s.readReg .reserved3C = 0#32
    ∧ ((s.readReg .data).extractLsb' 0 8 = s.data ∧ s.readReg .data >>> 8 = 0#32)
    ∧ ((s.readReg .config).getLsbD 0 = s.ie ∧ s.readReg .config >>> 1 = 0#32)
    ∧ ((s.readReg .tsample).extractLsb' 0 8 = s.tsample ∧ s.readReg .tsample >>> 8 = 0#32)
    ∧ ((s.readReg .latency).extractLsb' 0 16 = s.latency ∧ s.readReg .latency >>> 16 = 0#32)
    ∧ (s.readReg .selRomLo = s.selRomLo ∧ s.readReg .selRomHi = s.selRomHi)
    ∧ (s.readReg .srchRomLo = s.search.romLo ∧ s.readReg .srchRomHi = s.search.romHi)
    ∧ (∀ i < 4, (s.readReg .srchRomLo).extractLsb' (8 * i) 8 = romByte s.search.buf i
      ∧ (s.readReg .srchRomHi).extractLsb' (8 * i) 8 = romByte s.search.buf (i + 4))
    ∧ (let v := s.readReg .srchState
      v.extractLsb' 0 7 = s.search.ld ∧ v.getLsbD 7 = false ∧ v.extractLsb' 8 4 = s.search.lfd
        ∧ v.extractLsb' 12 4 = 0#4 ∧ v.getLsbD 16 = s.search.term ∧ v >>> 17 = 0#32)
    ∧ ((s.readReg .crc8).extractLsb' 0 8 = s.crc8 ∧ s.readReg .crc8 >>> 8 = 0#32)
    ∧ (s.cfg.hasCrc16 = true →
      (s.readReg .crc16).extractLsb' 0 16 = s.crc16 ∧ s.readReg .crc16 >>> 16 = 0#32)
    ∧ (s.cfg.hasCrc16 = false → s.readReg .crc16 = 0#32)
    ∧ (let v := s.readReg .hwcfg
      v.getLsbD 0 = s.cfg.hasCrc16 ∧ v.extractLsb' 1 7 = 0#7 ∧ v.extractLsb' 8 8 = s.cfg.clkPerUs
        ∧ v >>> 16 = 0#32)

/-- 10_state.md R32, R37, 60_exceptions.md R187: the place of every STATUS field and the code of every
result. -/
def Obligations.StatusReadsItsFields : Prop :=
  (∀ s : State, let v := s.readReg .status
    v.getLsbD 0 = s.status.busy ∧ v.getLsbD 1 = s.status.done ∧ v.getLsbD 2 = s.status.ovr
    ∧ v.getLsbD 3 = s.status.presence ∧ v.getLsbD 4 = s.status.found ∧ v.getLsbD 5 = s.pads.pu
    ∧ v.getLsbD 6 = s.status.cal ∧ v.getLsbD 7 = s.status.calerr
    ∧ v.extractLsb' 8 4 = s.status.result.code ∧ v.getLsbD 12 = s.status.stuck
    ∧ v >>> 13 = 0#32)
  ∧ [ResultCode.ok, .noPresence, .busCollisionAbort, .crcMismatch, .zeroFamily, .exhausted,
      .notCalibrated, .calibrationError, .illegalCmd].map ResultCode.code
    = [0#4, 1#4, 2#4, 3#4, 4#4, 5#4, 6#4, 7#4, 8#4]

/-- 20_memory.md R71, 60_exceptions.md R189: a read records its answer and has no side effect. -/
def Obligations.ReadsHaveNoSideEffect : Prop :=
  ∀ (s : State) a, s.hostAccess (.read a) =
      { s with reads := ⟨s.now, a, s.readReg (regAt a)⟩ :: s.reads }
    ∧ ∀ r, (s.hostAccess (.read a)).readReg r = s.readReg r

/-- 10_state.md R41: a host write to STATUS clears DONE and OVR where the written bit is 1, busy or not,
and changes nothing else. -/
def Obligations.StatusWriteClearsOnlyDoneAndOvr : Prop :=
  ∀ (s : State) v,
    (s.writeReg .status v).readReg .status = s.readReg .status &&& ~~~(v &&& 0x6#32)
    ∧ (∀ r, r ≠ .status → (s.writeReg .status v).readReg r = s.readReg r)
    ∧ (s.writeReg .status v).w = s.w ∧ (s.writeReg .status v).pads = s.pads
    ∧ (s.writeReg .status v).wave = s.wave

/-- 10_state.md R42 to R55, R29, R30: what each register of an idle block reads after a host write to
it through the port, and that a write to a read-only or reserved one does nothing. -/
def Obligations.IdleWritesStoreTheirFields : Prop :=
  ∀ (s : State) a v, s.status.busy = false →
    let t := s.hostAccess (.write a v)
    (regAt a = .data → t.readReg .data = v &&& 0xFF#32)
    ∧ (regAt a = .config → t.readReg .config = v &&& 1#32)
    ∧ (regAt a = .tsample → t.readReg .tsample =
        (if s.status.cal = false ∧ s.status.calerr = false ∧ 1 ≤ (v &&& 0xFF#32).toNat
            ∧ (v &&& 0xFF#32).toNat ≤ 59
          then v &&& 0xFF#32 else s.readReg .tsample))
    ∧ (regAt a = .selRomLo → t.readReg .selRomLo = v)
    ∧ (regAt a = .selRomHi → t.readReg .selRomHi = v)
    ∧ (regAt a = .crc8 → t.readReg .crc8 = v &&& 0xFF#32)
    ∧ (regAt a = .crc16 → t.readReg .crc16 =
        (if s.cfg.hasCrc16 = true then v &&& 0xFFFF#32 else 0#32))
    ∧ (regAt a ∈ [RegName.data, .config, .tsample, .selRomLo, .selRomHi, .crc8, .crc16] →
        ∀ q, q ≠ regAt a → t.readReg q = s.readReg q)
    ∧ (regAt a ∈ [RegName.latency, .srchRomLo, .srchRomHi, .srchState, .hwcfg, .reserved38,
        .reserved3C] → t = s)

/-- 20_memory.md R79, 10_state.md R35: a busy block drops these writes and sets OVR; STATUS (its DONE and
OVR, R41) and CONFIG stay writable, and the rest ignores the write. That a TSAMPLE write under the lock of
R45 sets OVR too is the model's reading (log 8). -/
def Obligations.BusyWritesAreDropped : Prop :=
  ∀ (s : State) a v, s.status.busy = true →
    (regAt a ∈ [RegName.cmd, .data, .tsample, .selRomLo, .selRomHi, .crc8]
        ∨ (regAt a = .crc16 ∧ s.cfg.hasCrc16 = true) →
      s.hostAccess (.write a v) = { s with status := { s.status with ovr := true } })
    ∧ (regAt a = .crc16 → s.cfg.hasCrc16 = false → s.hostAccess (.write a v) = s)
    ∧ (regAt a = .config → s.hostAccess (.write a v) = { s with ie := v.getLsbD 0 })
    ∧ (regAt a = .status → s.hostAccess (.write a v) = { s with status := { s.status with
        done := s.status.done && !v.getLsbD 1, ovr := s.status.ovr && !v.getLsbD 2 } })
    ∧ (regAt a ∈ [RegName.latency, .srchRomLo, .srchRomHi, .srchState, .hwcfg, .reserved38,
        .reserved3C] → s.hostAccess (.write a v) = s)

/-- 20_memory.md R77: a CMD write to an idle block is accepted, whatever its value: the operands are
latched, BUSY set, DONE cleared, and nothing else changes. The statement leaves open what the hidden
position and timer of the sequencer become (log 11). -/
def Obligations.AcceptanceLatchesTheOperands : Prop :=
  ∀ (s : State) gap a v rest, s.awaitingReset = false → s.status.busy = false → regAt a = .cmd →
    s.port = ⟨gap, false, some (.write a v)⟩ :: rest →
    ∃ t, step s = .next t ∧ t.status = { s.status with busy := true, done := false }
      ∧ t.w = { s.w with
          cmd := v, step := t.w.step, timer := t.w.timer, data := s.data, hold := v.getLsbD 8
          selrom := romOf s.selRomHi s.selRomLo, tsample := s.tsample }
      ∧ t = { s with
          status := t.status, w := t.w, now := s.now + gap + 1, port := rest }

/-- 10_state.md R34: DONE is set at every completion edge, whatever the host writes at it; it is cleared
at every acceptance edge and by a host write of 1 to its bit, and left by a write of 0. -/
def Obligations.DoneFollowsCompletionAndAcceptance : Prop :=
  (∀ i (s t : State), s.status.busy = true → NoReset s → exec i s = .next t → t.status.done = true)
    ∧ (∀ (s : State) v, (s.accept v).status.done = false)
    ∧ (∀ (s : State) v, (s.writeReg .status v).status.done = (s.status.done && !v.getLsbD 1))

/-- 10_state.md R64: `irq` equals DONE AND IE, in every state. -/
def Obligations.IrqEqualsDoneAndIe : Prop :=
  ∀ s : State, s.irq = ((s.readReg .status).getLsbD 1 && (s.readReg .config).getLsbD 0)

/-! ### The machine as a whole -/

/-- 10_state.md R33, R59, 30_encoding.md R90: a step of a busy block runs the accepted word's command; a
step of an idle one lets the host's next port cycle happen, a reset edge or an access at the edge that ends
it (20_memory.md R69, 70_reset_and_hazards.md R207), the cycles before it having passed (log 13); the
interface's word is run at once. -/
def Obligations.StepRunsTheAcceptedCommand : Prop :=
  (∀ (s : State) i, s.awaitingReset = false → s.status.busy = true → decode s.w.cmd = i →
      step s = exec i s)
    ∧ (∀ s : State, s.awaitingReset = false → s.status.busy = false →
        (s.port = [] → step s = .next { s with now := s.now + 1 })
        ∧ ∀ c rest, s.port = c :: rest →
          let u := { s with now := s.now + (c.gap + 1), port := rest }
          (c.rst = true → step s = .next (u.portEdge c))
          ∧ (c.rst = false → ∀ a, c.access = some a → step s = .next (u.hostAccess a))
          ∧ (c.rst = false → c.access = none → step s = .next u))
    ∧ (∀ (s : State) nbits w i, decodeTableWord nbits w = some i →
        step (s.withFetchWord nbits w) = exec i (s.withFetchWord nbits w))

/-- 70_reset_and_hazards.md R225: with no host access to come, an idle block lets time pass and changes
nothing, a power hold included. -/
def Obligations.IdleBlockKeepsEverything : Prop :=
  ∀ s : State, s.awaitingReset = false → s.status.busy = false → s.port = [] →
    step s = .next { s with now := s.now + 1 }

/-- 60_exceptions.md R188, R189: no step stops the machine, time goes on, and the build stays. -/
def Obligations.EveryStepAnswersANextState : Prop :=
  ∀ s : State, ∃ t, step s = .next t ∧ s.now < t.now ∧ t.cfg = s.cfg

/-- 60_exceptions.md R188, 70_reset_and_hazards.md R208: a command ends in its one completion event, or
at a reset edge that leaves every register at its reset value, the line released and DONE 0; the second
only if a cycle with `rst_n` low is to come. The hidden working registers, unspecified after reset (R207,
log 6), are left open. -/
def Obligations.EveryCommandCompletesOrIsResetAway : Prop :=
  ∀ i (s : State), s.status.busy = true → ∃ t, exec i s = .next t ∧ s.now < t.now
    ∧ ((t.status.busy = false ∧ t.status.done = true ∧ t.irq = t.ie ∧ s.wave <:+ t.wave)
      ∨ (¬NoReset s
        ∧ t = { State.resetFor s.cfg with
            w := t.w, now := t.now, wave := t.wave, port := t.port, reads := t.reads, env := t.env }
        ∧ t.wave.head? = some ⟨t.now, ⟨false, false⟩⟩))

/-- 70_reset_and_hazards.md R207, R208: a running command is held against itself with the port cut off at
the first cycle with `rst_n` low (with no host at all it would complete at the same edge,
HostCannotDisturbACommand). If the edge that ends that cycle lies at or before the completion edge, the
command ends there, in the reset values with the line released, the pad events before that edge and the
answers as they would have been, and the port cycles after it still to come. If it lies later, the command
completes as if it were not there. The hidden working registers (log 6) are left open after a reset. -/
def Obligations.ResetEndsACommandAtItsEdge : Prop :=
  ∀ i (s : State), s.status.busy = true →
    ∃ u t, exec i s.untilReset = .next u ∧ u.status.busy = false ∧ u.status.done = true
      ∧ exec i s = .next t
      ∧ (∀ e access rest, firstReset s.port s.now = some (e, access, rest) → e ≤ u.now →
          t.now = e ∧ t.port = rest
          ∧ t = { State.resetFor s.cfg with
              w := t.w, now := t.now, wave := t.wave, port := t.port, reads := t.reads, env := t.env }
          ∧ (∃ before later, t.wave = ⟨e, ⟨false, false⟩⟩ :: (before ++ s.wave)
            ∧ u.wave = later ++ (before ++ s.wave)
            ∧ (∀ x ∈ before, x.edge < e) ∧ ∀ x ∈ later, e ≤ x.edge)
          ∧ ∃ last, t.reads = last ++ u.reads
            ∧ last.map ReadAnswer.asked = (match access with
              | some (.read word) => [(e, word)]
              | some (.write _ _) | none => []))
      ∧ ((∀ e access rest, firstReset s.port s.now = some (e, access, rest) → u.now < e) →
          t = { u with port := restCycles s.port (u.now - s.now) })

/-- The invariant holds right after reset. -/
def Obligations.ResetMeetsTheInvariant : Prop := Invariant State.reset

/-- Every step keeps the invariant: the calibrated relation, the ranges of the search state, that a found
code is valid, and the rest of `Invariant`. -/
def Obligations.StepKeepsTheInvariant : Prop := ∀ s t, Invariant s → step s = .next t → Invariant t

/-- 10_state.md R52: no step of a block that has been reset takes the search state out of its ranges. -/
def Obligations.SearchStateStaysInRange : Prop :=
  ∀ s t : State, s.awaitingReset = false → s.search.inRange → step s = .next t → t.search.inRange

/-- 20_memory.md R83: between commands the line is released, or driven high in a power hold; no step of a
block that has been reset leaves it driven low. -/
def Obligations.LineIsNeverLeftLow : Prop :=
  ∀ s t : State, s.awaitingReset = false → s.pads = Pads.released ∨ s.pads = Pads.high →
    step s = .next t → t.pads = Pads.released ∨ t.pads = Pads.high

/-- 10_state.md R39, R45, 43_control.md R181: once a calibration has run, its outcome and TSAMPLE stay
until reset. -/
def Obligations.CalibrationIsSticky : Prop :=
  ∀ s t : State, s.awaitingReset = false → s.status.cal = true ∨ s.status.calerr = true →
    NoReset s → step s = .next t →
    (s.status.cal = true → t.status.cal = true)
    ∧ (s.status.calerr = true → t.status.calerr = true)
    ∧ t.tsample = s.tsample ∧ t.latency = s.latency
    ∧ (¬(s.status.cal = true ∧ s.status.calerr = true) →
        ¬(t.status.cal = true ∧ t.status.calerr = true))

/-- 10_state.md R36, R38, R39, R42, R46, R47, R51, R53: which commands may write which register; every
other command leaves it. -/
def Obligations.OnlyTheNamedCommandsWrite : Prop :=
  ∀ i (s t : State), s.status.busy = true → NoReset s → exec i s = .next t →
    (i ∉ [Instr.readBit, .readByte] → t.data = s.data)
    ∧ (i ∉ [Instr.searchNext, .searchReset, .targetSearch] →
        t.search = s.search ∧ t.status.found = s.status.found)
    ∧ (i ∉ [Instr.owReset, .searchNext] →
        t.status.presence = s.status.presence ∧ t.status.stuck = s.status.stuck)
    ∧ (i ≠ .calibrate → t.latency = s.latency ∧ t.status.cal = s.status.cal
        ∧ t.status.calerr = s.status.calerr)
    ∧ (i ≠ .crc8 → t.crc8 = s.crc8) ∧ (i ≠ .crc16 → t.crc16 = s.crc16)
    ∧ (i ≠ .writeByteH → t.pads.pu = true → t.pads = s.pads)
    ∧ t.tsample = s.tsample ∧ t.selRomLo = s.selRomLo ∧ t.selRomHi = s.selRomHi ∧ t.cfg = s.cfg

/-- 20_memory.md R81, 40_bus_transactions.md R137: nothing the host does while a command runs, short of a
reset, changes what the command does or when: but for CONFIG.IE, OVR and what the port carries, the
command ends in the state it would end in with no access at all. -/
def Obligations.HostCannotDisturbACommand : Prop :=
  ∀ i (s t u : State), s.status.busy = true → NoReset s → exec i s = .next t →
    exec i s.withoutHost = .next u →
    u = { t with
      ie := s.ie, status := { t.status with ovr := s.status.ovr }, port := [], reads := s.reads }

/-- 20_memory.md R80, 10_state.md R33, 70_reset_and_hazards.md R213: every read the host presents while a
command runs to its completion is answered at its own edge, in order and once, with BUSY = 1 in STATUS
and with the old value of every register a command writes. POWER is live (R32, R37): where the history of
the pad outputs is as the invariant has it, it is the pad output `line_pu` in the cycle of the read. -/
def Obligations.ReadsDuringACommandSeeOldValues : Prop :=
  ∀ i (s t : State), s.status.busy = true → NoReset s → exec i s = .next t →
    ∃ new, t.reads = new ++ s.reads
      ∧ (new.map ReadAnswer.asked).reverse = readCycles s.port s.now t.now
      ∧ ∀ a ∈ new, s.now < a.edge ∧ a.edge ≤ t.now
      ∧ (regAt a.word = .status → a.value.getLsbD 0 = true
          ∧ a.value &&& 0xFFFFFFD9#32 = s.readReg .status &&& 0xFFFFFFD9#32
          ∧ (s.Timely → a.value.getLsbD 5 = (padsBefore t.wave a.edge).pu))
      ∧ (regAt a.word ≠ .status → regAt a.word ≠ .config →
          a.value = s.readReg (regAt a.word))

/-- 20_memory.md R79, 10_state.md R35, R41, R43, 60_exceptions.md R198, R199: the host's writes while a
command runs, the one in the cycle that ends at the completion edge included, take effect at their edges in
order: a dropped one sets OVR, STATUS and CONFIG are written. The command leaves OVR and IE as they leave
them, and a read of STATUS or CONFIG on the way shows DONE, OVR and IE as the writes before it left them.
That a TSAMPLE write under the lock of R45 sets OVR too is the model's reading (log 8). -/
def Obligations.WritesDuringACommandTakeEffect : Prop :=
  ∀ i (s t : State), s.status.busy = true → NoReset s → exec i s = .next t →
    t.ie = (s.hostBitsAt t.now).ie ∧ t.status.ovr = (s.hostBitsAt t.now).ovr
    ∧ ∃ new, t.reads = new ++ s.reads ∧ ∀ a ∈ new,
      let before := s.hostBitsAt (a.edge - 1)
      (regAt a.word = .status →
        a.value.getLsbD 1 = before.done ∧ a.value.getLsbD 2 = before.ovr)
      ∧ (regAt a.word = .config → a.value = (BitVec.ofBool before.ie).setWidth 32)

/-- 20_memory.md R84: the one constraint on the bus. -/
def Obligations.PulledLineReadsLow : Prop :=
  ∀ (s : State) u, (padsBefore s.wave u).oeLow = true → s.lineLevel u = false

/-! ### Refusals -/

/-- 40_bus_transactions.md R138, 43_control.md R183: without a passed calibration a gated line command
completes at the first edge after acceptance with NOT_CALIBRATED, changes no pad output and writes no
register but RESULT, DONE and BUSY. -/
def Obligations.GatedCommandsAreRefusedUncalibrated : Prop :=
  ∀ i ∈ gatedCommands, ∀ s : State, s.status.busy = true → NoReset s → s.status.cal = false →
    RefusedWith i s .notCalibrated

/-- 43_control.md R179, R184, 30_encoding.md R92: OP 0xF, CRC16 where the build has none, and a second
CALIBRATE complete after one cycle with ILLEGAL_CMD and change nothing else. -/
def Obligations.IllegalCommandsDoNothing : Prop :=
  ∀ s : State, s.status.busy = true → NoReset s →
    RefusedWith .reserved s .illegalCmd
    ∧ (s.cfg.hasCrc16 = false → RefusedWith .crc16 s .illegalCmd)
    ∧ (s.status.cal = true ∨ s.status.calerr = true → RefusedWith .calibrate s .illegalCmd)

/-- 41_rom_search.md R141, R164: the calibration gate comes first; then an exhausted search drives nothing,
keeps its state and a power hold, and clears FOUND. -/
def Obligations.ExhaustedSearchDrivesNothing : Prop :=
  ∀ s : State, s.status.busy = true → NoReset s → s.search.term = true →
    (s.status.cal = false → RefusedWith .searchNext s .notCalibrated)
    ∧ (s.status.cal = true →
      CompletesWith .searchNext s .exhausted 1 fun t => t.status.found = false
        ∧ Untouched s { t with status := { t.status with found := s.status.found } }
        ∧ LineQuiet s t)

/-! ### State commands -/

/-- 43_control.md R177. -/
def Obligations.NopCompletesAndChangesNothing : Prop :=
  ∀ s : State, s.status.busy = true → NoReset s →
    CompletesWith .nop s .ok 1 fun t => Untouched s t ∧ LineQuiet s t

/-- 41_rom_search.md R159. -/
def Obligations.SearchResetClearsTheSearchState : Prop :=
  ∀ s : State, s.status.busy = true → NoReset s →
    CompletesWith .searchReset s .ok 1 fun t =>
      t.search.romLo = 0#32 ∧ t.search.romHi = 0#32 ∧ t.search.ld = 0#7 ∧ t.search.lfd = 0#4
      ∧ t.search.term = false ∧ t.status.found = false
      ∧ Untouched s { t with
          search := s.search, status := { t.status with found := s.status.found } }
      ∧ LineQuiet s t

/-- 41_rom_search.md R160. -/
def Obligations.TargetSearchSeedsTheSearchState : Prop :=
  ∀ s : State, s.status.busy = true → NoReset s →
    CompletesWith .targetSearch s .ok 1 fun t =>
      t.search.romLo = s.w.data.setWidth 32 ∧ t.search.romHi = 0#32 ∧ t.search.ld = 64#7
      ∧ t.search.lfd = 0#4 ∧ t.search.term = false ∧ t.status.found = false
      ∧ Untouched s { t with
          search := s.search, status := { t.status with found := s.status.found } }
      ∧ LineQuiet s t

/-- 42_crc.md R168. -/
def Obligations.Crc8AdvancesByOneByte : Prop :=
  ∀ s : State, s.status.busy = true → NoReset s →
    CompletesWith .crc8 s .ok 1 fun t => t.crc8 = crc8Byte s.crc8 s.w.data
      ∧ Untouched s { t with crc8 := s.crc8 } ∧ LineQuiet s t

/-- 42_crc.md R172, in a build that has the 16-bit CRC. -/
def Obligations.Crc16AdvancesByOneByte : Prop :=
  ∀ s : State, s.status.busy = true → NoReset s → s.cfg.hasCrc16 = true →
    CompletesWith .crc16 s .ok 1 fun t =>
      t.crc16 = crc16Byte s.cfg.crc16Poly s.crc16 s.w.data
      ∧ Untouched s { t with crc16 := s.crc16 } ∧ LineQuiet s t

/-! ### The CRC -/

/-- 42_crc.md R169: a ROM code is valid iff the CRC over its bytes 0..6 is byte 7, equivalently iff the
CRC over all its eight bytes is 0, because a byte fed into a CRC equal to it gives 0. -/
def Obligations.ValidIffResidueZero : Prop :=
  (∀ r : RomCode, validRom r = true ↔ crc8 ([0, 1, 2, 3, 4, 5, 6].map (romByte r)) = romByte r 7)
    ∧ (∀ r : RomCode,
      validRom r = true ↔ crc8 ([0, 1, 2, 3, 4, 5, 6, 7].map (romByte r)) = 0x00#8)
    ∧ ∀ c : Byte, crc8Byte c c = 0x00#8

/-- 42_crc.md R165, R166, R173: the bit step of each CRC as the spec writes it, the byte step as the eight
bit steps from bit 0 on, which is also the byte XORed in and eight steps with input 0; the default of
`CRC16_POLY`, and the check value of "123456789" under it. -/
def Obligations.CrcStepsFollowTheirRecurrences : Prop :=
  (∀ (crc : Byte) b, crc8Bit crc b =
    let mix := (crc ^^^ (BitVec.ofBool b).setWidth 8) &&& 1#8
    if mix = 1#8 then (crc >>> 1) ^^^ 0x8C#8 else crc >>> 1)
  ∧ (∀ crc v : Byte, crc8Byte crc v =
    [0, 1, 2, 3, 4, 5, 6, 7].foldl (fun c i => crc8Bit c (v.getLsbD i)) crc
    ∧ crc8Byte crc v = (fun c => crc8Bit c false)^[8] (crc ^^^ v))
  ∧ (∀ (poly crc : BitVec 16) b, crc16Bit poly crc b =
    let mix := (crc ^^^ (BitVec.ofBool b).setWidth 16) &&& 1#16
    if mix = 1#16 then (crc >>> 1) ^^^ poly else crc >>> 1)
  ∧ (∀ (poly crc : BitVec 16) (v : Byte), crc16Byte poly crc v =
    [0, 1, 2, 3, 4, 5, 6, 7].foldl (fun c i => crc16Bit poly c (v.getLsbD i)) crc
    ∧ crc16Byte poly crc v = (fun c => crc16Bit poly c false)^[8] (crc ^^^ v.setWidth 16))
  ∧ State.reset.cfg.crc16Poly = 0xA001#16
  ∧ crc16 0xA001#16 0x0000#16
    [0x31#8, 0x32#8, 0x33#8, 0x34#8, 0x35#8, 0x36#8, 0x37#8, 0x38#8, 0x39#8] = 0xBB3D#16

/-- 42_crc.md R170: `crc8` is linear over sequences of equal length, a sequence with exactly one bit set
has a nonzero CRC, and so flipping any one bit of the input changes the result. -/
def Obligations.CrcIsLinearAndSeesOneBit : Prop :=
  (∀ as bs : List Byte, as.length = bs.length →
    crc8 (List.zipWith (· ^^^ ·) as bs) = crc8 as ^^^ crc8 bs)
  ∧ (∀ m n i : Nat, i < 8 →
    crc8 (List.replicate m 0#8 ++ (1#8 <<< i) :: List.replicate n 0#8) ≠ 0#8)
  ∧ (∀ (as bs : List Byte) (b : Byte) (i : Nat), i < 8 →
    crc8 (as ++ (b ^^^ 1#8 <<< i) :: bs) ≠ crc8 (as ++ b :: bs))

/-- 42_crc.md R171: X = 0xFB, and each of the 56 inputs with one bit flipped gives another value. -/
def Obligations.TheFixedValueX : Prop :=
  crc8 [0x10#8, 0#8, 0#8, 0#8, 0#8, 0#8, 0#8] = 0xFB#8
    ∧ ∀ k < 7, ∀ i < 8,
      crc8 ([0x10#8, 0#8, 0#8, 0#8, 0#8, 0#8, 0#8].modify k (· ^^^ 1#8 <<< i)) ≠ 0xFB#8

/-! ### Bus transactions -/

/-- 40_bus_transactions.md R132, R133: DEPOWER ends a power hold and does nothing else, calibrated or
not. -/
def Obligations.DepowerEndsTheHold : Prop :=
  ∀ s : State, s.status.busy = true → NoReset s →
    CompletesWith .depower s .ok 1 fun t => t.pads.pu = false
      ∧ PadTrace s t (holdEndEvents s s.firstEdge)
      ∧ (s.pads.pu = true → t.pads = Pads.released) ∧ (s.pads.pu = false → LineQuiet s t)
      ∧ Untouched s t

/-- 40_bus_transactions.md R112, R119, 70_reset_and_hazards.md R221: WRITE_BIT is one write slot of
DATA[0], its two pad events at their edges. -/
def Obligations.WriteBitSendsOneSlot : Prop :=
  ∀ s : State, s.status.busy = true → NoReset s → s.status.cal = true →
    CompletesWith .writeBit s .ok (1 + 61 * s.cyclesPerUs) fun t =>
      PadTrace s t (holdEndEvents s s.firstEdge
        ++ slotEvents s.cyclesPerUs s.firstEdge (s.w.data.getLsbD 0))
      ∧ t.pads = Pads.released ∧ Untouched s t

/-- 40_bus_transactions.md R114, R123, R124: WRITE_BYTE is eight write slots, bit 0 first; with HOLD the
line is driven high from the completion edge on. -/
def Obligations.WriteByteSendsEightSlots : Prop :=
  ∀ s : State, s.status.busy = true → NoReset s → s.status.cal = true →
    CompletesWith .writeByte s .ok (1 + 488 * s.cyclesPerUs) (fun t =>
      PadTrace s t (holdEndEvents s s.firstEdge
        ++ slotsEvents s.cyclesPerUs s.firstEdge (lineBits s.w.data))
      ∧ t.pads = Pads.released ∧ Untouched s t)
    ∧ CompletesWith .writeByteH s .ok (1 + 488 * s.cyclesPerUs) (fun t =>
      PadTrace s t (holdEndEvents s s.firstEdge
        ++ slotsEvents s.cyclesPerUs s.firstEdge (lineBits s.w.data)
        ++ [⟨t.now, Pads.high⟩])
      ∧ t.pads = Pads.high ∧ t.power = true ∧ Untouched s t)

/-- 40_bus_transactions.md R128, R130, 30_encoding.md R104: SKIP sends 0xCC; SELECT sends 0x55 and the
eight bytes of the latched ROM code, 72 slots. -/
def Obligations.SelectAndSkipSendTheirFrames : Prop :=
  ∀ s : State, s.status.busy = true → NoReset s → s.status.cal = true →
    CompletesWith .skip s .ok (1 + 488 * s.cyclesPerUs) (fun t =>
      PadTrace s t (holdEndEvents s s.firstEdge
        ++ slotsEvents s.cyclesPerUs s.firstEdge (lineBits 0xCC#8))
      ∧ t.pads = Pads.released ∧ Untouched s t)
    ∧ CompletesWith .select s .ok (1 + 4392 * s.cyclesPerUs) (fun t =>
      PadTrace s t (holdEndEvents s s.firstEdge
        ++ slotsEvents s.cyclesPerUs s.firstEdge (selectBits s.w.selrom))
      ∧ t.pads = Pads.released ∧ Untouched s t)

/-- 40_bus_transactions.md R113, R121: READ_BIT is one read slot; DATA takes the level at the sample
point, 0 or 1. -/
def Obligations.ReadBitReturnsTheSampledLevel : Prop :=
  ∀ s : State, s.status.busy = true → NoReset s → s.status.cal = true →
    1 ≤ s.w.tsample.toNat → s.w.tsample.toNat ≤ 59 →
    CompletesWith .readBit s .ok (1 + 61 * s.cyclesPerUs) fun t =>
      (t.data = 0#8 ∨ t.data = 1#8)
      ∧ (s.env.passive = true →
          t.data.getLsbD 0 = t.lineLevel (s.slotLevelEdge s.firstEdge))
      ∧ PadTrace s t (holdEndEvents s s.firstEdge ++ slotEvents s.cyclesPerUs s.firstEdge true)
      ∧ t.pads = Pads.released ∧ Untouched s { t with data := s.data }

/-- 40_bus_transactions.md R115, R126: READ_BYTE is eight read slots; bit `i` of DATA is the level at the
sample point of slot `i`. -/
def Obligations.ReadByteReturnsTheSampledLevels : Prop :=
  ∀ s : State, s.status.busy = true → NoReset s → s.status.cal = true →
    1 ≤ s.w.tsample.toNat → s.w.tsample.toNat ≤ 59 →
    CompletesWith .readByte s .ok (1 + 488 * s.cyclesPerUs) fun t =>
      (s.env.passive = true → ∀ i < 8, t.data.getLsbD i =
          t.lineLevel (s.slotLevelEdge (s.firstEdge + 61 * s.cyclesPerUs * i)))
      ∧ PadTrace s t (holdEndEvents s s.firstEdge
          ++ slotsEvents s.cyclesPerUs s.firstEdge (List.replicate 8 true))
      ∧ t.pads = Pads.released ∧ Untouched s { t with data := s.data }

/-- 40_bus_transactions.md R116, R117: OW_RESET waits `k` µs for an idle line, sends the reset pulse and
reports presence iff the line is low at the presence sample; or it finds the line stuck low, sends
nothing and reports NO_PRESENCE with STUCK. -/
def Obligations.OwResetReportsPresence : Prop :=
  ∀ s : State, s.status.busy = true → NoReset s → s.status.cal = true →
    ∃ t, exec .owReset s = .next t ∧ t.status.busy = false ∧ t.status.done = true
      ∧ t.status.result = (if t.status.presence then .ok else .noPresence)
      ∧ t.pads.pu = false
      ∧ Untouched s { t with status :=
          { t.status with presence := s.status.presence, stuck := s.status.stuck } }
      ∧ ((∃ k < 250, t.now = s.now + 1 + (k + 960) * s.cyclesPerUs ∧ t.status.stuck = false
            ∧ PadTrace s t (holdEndEvents s s.firstEdge
                ++ resetPulseEvents s.cyclesPerUs (s.firstEdge + k * s.cyclesPerUs))
            ∧ (s.env.passive = true → IdleAfter s t k
                ∧ t.status.presence = !t.lineLevel (s.presenceLevelEdge k)))
        ∨ (t.now = s.now + 1 + 249 * s.cyclesPerUs ∧ t.status.stuck = true
            ∧ t.status.presence = false ∧ PadTrace s t (holdEndEvents s s.firstEdge)
            ∧ (s.env.passive = true →
                ∀ j < 250, t.lineLevel (s.idleLevelEdge j) = false)))

/-! ### CALIBRATE -/

/-- 43_control.md R178, R180, R181: the measurement takes 61 µs; LATENCY is the number of a sample after
the release, or 0xFFFF, and on a passive bus, whose levels are spelled out, of the first sample that reads
high; the calibration passes iff it is below TSAMPLE in cycles. R182 (d): in a legal build no sample sees
a level from before the release. -/
def Obligations.CalibrateMeasuresTheLatency : Prop :=
  ∀ s : State, s.status.busy = true → NoReset s → s.status.cal = false → s.status.calerr = false →
    let c := s.cyclesPerUs
    let r := s.firstEdge + c
    ∃ t, exec .calibrate s = .next t ∧ t.status.busy = false ∧ t.status.done = true
      ∧ t.now = s.now + 1 + 61 * c ∧ t.pads = Pads.released
      ∧ PadTrace s t (holdEndEvents s s.firstEdge
          ++ [⟨s.firstEdge, Pads.low⟩, ⟨r, Pads.released⟩])
      ∧ (if t.latency.toNat < s.w.tsample.toNat * c
          then t.status.result = .ok ∧ t.status.cal = true ∧ t.status.calerr = false
          else t.status.result = .calibrationError ∧ t.status.cal = false
            ∧ t.status.calerr = true)
      ∧ (t.latency = 0xFFFF#16 ∨ (1 ≤ t.latency.toNat ∧ t.latency.toNat ≤ 60 * c))
      ∧ (s.cfg.wf = true → 3 ≤ t.latency.toNat)
      ∧ (s.env.passive = true →
          (t.latency ≠ 0xFFFF#16 → t.lineLevel (r + t.latency.toNat - 2) = true)
          ∧ ∀ j, 1 ≤ j → j ≤ 60 * c → j < t.latency.toNat → t.lineLevel (r + j - 2) = false)
      ∧ Untouched s { t with
          latency := s.latency, status := { t.status with cal := false, calerr := false } }

/-! ### The ROM search -/

/-- 41_rom_search.md R152 to R157: what SEARCH_NEXT leaves, and how long it takes, for each result of a
search that reaches the bus. -/
def Obligations.SearchNextLeavesTheTableOfResults : Prop :=
  ∀ s : State, s.status.busy = true → NoReset s → s.status.cal = true → s.search.term = false →
    1 ≤ s.w.tsample.toNat → s.w.tsample.toNat ≤ 59 →
    ∃ t, exec .searchNext s = .next t ∧ t.status.busy = false ∧ t.status.done = true
      ∧ t.pads.pu = false
      ∧ Untouched s { t with search := s.search, status := { t.status with
          presence := s.status.presence, stuck := s.status.stuck, found := s.status.found } }
      ∧ ((t.status.result = .noPresence ∧ t.search = .cleared ∧ t.status.found = false
            ∧ t.status.presence = false
            ∧ ((t.status.stuck = true ∧ t.now = s.now + 1 + 249 * s.cyclesPerUs)
              ∨ (t.status.stuck = false
                ∧ ∃ k < 250, t.now = s.now + 1 + (k + 960) * s.cyclesPerUs)))
        ∨ (t.status.result = .busCollisionAbort ∧ t.search = .cleared ∧ t.status.found = false
            ∧ t.status.presence = true ∧ t.status.stuck = false
            ∧ ∃ k < 250, ∃ n, 1 ≤ n ∧ n ≤ 64 ∧ t.now =
                s.now + 1 + (k + 960 + 488 + 183 * (n - 1) + 122) * s.cyclesPerUs)
        ∨ ((t.status.result = .zeroFamily ∨ t.status.result = .crcMismatch)
            ∧ t.search = .cleared ∧ t.status.found = false
            ∧ t.status.presence = true ∧ t.status.stuck = false
            ∧ ∃ k < 250, t.now = s.now + 1 + (k + 13160) * s.cyclesPerUs)
        ∨ (t.status.result = .ok ∧ t.status.found = true
            ∧ t.status.presence = true ∧ t.status.stuck = false
            ∧ validRom t.search.buf = true ∧ romByte t.search.buf 0 ≠ 0x00#8
            ∧ t.search.inRange ∧ (t.search.term = true ↔ t.search.ld = 0#7)
            ∧ ∃ k < 250, t.now = s.now + 1 + (k + 13160) * s.cyclesPerUs))

/-- 30_encoding.md R103, 41_rom_search.md R143 to R149, R155: what a search that reaches the bus puts on
the line. A power hold ends; the reset pulse follows its idle check; then the eight slots of 0xF0; then at
every position two read slots and the direction's slot, up to the end or, in an abort, to the second read
slot of the position that aborts. The directions are the bits of the working buffer, which an OK pass
commits; on a passive bus each is the one the rules give for the bits read there, and an abort read
`(1,1)`. A full pass is ZERO_FAMILY, CRC_MISMATCH or OK by the code in that buffer, the family checked first
(R152, R153, R156). -/
def Obligations.SearchNextSendsTheSearchExchange : Prop :=
  ∀ s : State, s.status.busy = true → NoReset s → s.status.cal = true → s.search.term = false →
    1 ≤ s.w.tsample.toNat → s.w.tsample.toNat ≤ 59 →
    let c := s.cyclesPerUs
    let hold := holdEndEvents s s.firstEdge
    ∃ t, exec .searchNext s = .next t
      ∧ ((t.status.result = .noPresence ∧ t.status.stuck = true ∧ PadTrace s t hold)
        ∨ ∃ k < 250, t.status.stuck = false ∧ (s.env.passive = true → IdleAfter s t k
              ∧ t.status.presence = !t.lineLevel (s.presenceLevelEdge k))
          ∧ (let reset := hold ++ resetPulseEvents c (s.firstEdge + k * c)
            let slots := fun bits => reset ++
              slotsEvents c (s.firstEdge + (k + 960) * c) (lineBits 0xF0#8 ++ bits)
            (t.status.result = .noPresence ∧ PadTrace s t reset)
            ∨ (t.status.result = .busCollisionAbort ∧ ∃ n, 1 ≤ n ∧ n ≤ 64
              ∧ PadTrace s t (slots (passBits t.w.buf 1 (n - 1) ++ [true, true]))
              ∧ (s.env.passive = true → s.bitsRead t k n = (true, true)
                ∧ ∀ m, 1 ≤ m → m < n → TookDirection s t k m))
            ∨ (t.status.result ∈ [ResultCode.zeroFamily, .crcMismatch, .ok]
              ∧ PadTrace s t (slots (passBits t.w.buf 1 64))
              ∧ (t.status.result = .ok → t.search.buf = t.w.buf)
              ∧ (t.status.result = .zeroFamily ↔ romByte t.w.buf 0 = 0x00#8)
              ∧ (t.status.result = .crcMismatch ↔
                romByte t.w.buf 0 ≠ 0x00#8 ∧ validRom t.w.buf = false)
              ∧ (t.status.result = .ok ↔
                romByte t.w.buf 0 ≠ 0x00#8 ∧ validRom t.w.buf = true)
              ∧ (s.env.passive = true → ∀ m, 1 ≤ m → m ≤ 64 → TookDirection s t k m))))

/-- 41_rom_search.md R144 to R151, R154: on a passive bus, a pass that ends with OK has read no `(1,1)`,
has taken at every position the direction the rules give for the two levels read, the last discrepancy
and the old buffer, and leaves LD and LFD at the highest positions where it chose 0 at a
discrepancy. -/
def Obligations.SearchPassFollowsTheDirections : Prop :=
  ∀ s t : State, s.status.busy = true → NoReset s → s.status.cal = true → s.search.term = false →
    1 ≤ s.w.tsample.toNat → s.w.tsample.toNat ≤ 59 → s.env.passive = true →
    exec .searchNext s = .next t → t.status.result = .ok →
    (∀ n, 1 ≤ n → n ≤ 64 →
      ¬(s.idBitOf t n = true ∧ s.complementBitOf t n = true)
      ∧ (s.idBitOf t n ≠ s.complementBitOf t n → romBit t.search.buf n = s.idBitOf t n)
      ∧ (s.discrepancyAt t n →
          (n < s.search.ld.toNat → romBit t.search.buf n = romBit s.search.buf n)
          ∧ (n = s.search.ld.toNat → romBit t.search.buf n = true)
          ∧ (s.search.ld.toNat < n → romBit t.search.buf n = false)))
    ∧ HighestOrZero (fun n => s.discrepancyAt t n ∧ romBit t.search.buf n = false) 64
        t.search.ld.toNat
    ∧ HighestOrZero (fun n => s.discrepancyAt t n ∧ romBit t.search.buf n = false) 8
        t.search.lfd.toNat
    ∧ (t.search.term = true ↔ t.search.ld = 0#7)

/-! ### Host programs -/

/-- 00_scope.md R15, 70_reset_and_hazards.md R214, 30_encoding.md R105: `cmd i; wait_idle` on an idle block
runs the command to its completion edge as if the host did nothing, reads STATUS in every cycle from the
one after the acceptance edge on, and stops at the first that finds BUSY = 0, in the cycle after the
completion edge. That the loop reads in every cycle is the model's choice (log 18). -/
def Obligations.WaitIdlePollsToTheEndOfTheCommand : Prop :=
  ∀ (s : State) i, s.awaitingReset = false → s.status.busy = false → s.port = [] →
    let a := s.acceptNow (encode i)
    ∃ u polls, exec i a = .next u ∧ u.status.busy = false
      ∧ hostProgram s [.cmd i, .waitIdle] = { u with
          now := u.now + 1, reads := ⟨u.now + 1, 0x1#4, u.statusWord⟩ :: polls ++ s.reads }
      ∧ (polls.map ReadAnswer.asked).reverse =
          (List.range (u.now - a.now)).map (fun k => (a.now + 1 + k, 0x1#4))
      ∧ ∀ p ∈ polls, p.value.getLsbD 0 = true

/-! ### Under the reference device model -/

/-- 40_bus_transactions.md R118 (a), 20_memory.md R86 (a): OW_RESET reports presence iff there is a
device. The waveform reading of R86 is the model's (log 4). -/
def Obligations.ResetSeesWhetherADeviceIsThere : Prop :=
  ∀ s roms, OnDevices s roms →
    ∃ t, step (s.acceptNow (encode .owReset)) = .next t
      ∧ t.status.presence = !roms.isEmpty ∧ t.status.stuck = false
      ∧ t.status.result = (if roms.isEmpty then .noPresence else .ok)
      ∧ t.now = s.now + 2 + 960 * s.cyclesPerUs

/-- 41_rom_search.md R158 (d): under the reference device model, with a device on the bus, a pass never
reads `(1,1)`, and it ends on the ROM code of a device of the bus. The waveform reading of R86 is the
model's (log 4). -/
def Obligations.SearchFindsADeviceOfTheBus : Prop :=
  ∀ s roms, OnDevices s roms → roms ≠ [] → GoodRoms roms → s.search.term = false →
    ∃ t, step (s.acceptNow (encode .searchNext)) = .next t ∧ t.status.result = .ok
      ∧ t.search.buf ∈ roms ∧ OnDevices t roms

/-- 41_rom_search.md R161, R162: from the cleared state, `n` SEARCH_NEXT on a bus of `n` devices find
every ROM code exactly once, in ascending order, and the next one is EXHAUSTED. The waveform reading of
R86 is the model's (log 4). -/
def Obligations.EnumerationIsComplete : Prop :=
  ∀ s roms, OnDevices s roms → roms ≠ [] → GoodRoms roms → s.search = .cleared →
    let r := enumerate roms.length s
    r.1.Perm roms ∧ r.1.Pairwise romBefore ∧ r.2.search.term = true
      ∧ ∃ t, step (r.2.acceptNow (encode .searchNext)) = .next t
          ∧ t.status.result = .exhausted
end

