-- ==== Sys2Proof/Laws/Run.lean ====
section
/-! SUPPORT. What a piece of a command's pseudocode does, said once: `Ends m s Q R` holds when `m`,
started in `s`, ends in a state of which `Q` holds, or is cut short by a reset in one of which `R`
holds. Provers compose `Ends` facts and never unfold the monad. -/

namespace Sys2Proof.Machine

variable {α β : Type} {s : State}

/-- `m` started in `s` ends with a value and a state that satisfy `Q`, or is cut short in a state that
satisfies `R`. -/
def Run.Ends (m : Run α) (s : State) (Q : α → State → Prop) (R : State → Prop) : Prop :=
  match m s with
  | .ok a t => Q a t
  | .error _ t => R t

variable {Q : α → State → Prop} {R : State → Prop}

@[simp] theorem ends_pure (a : α) : Run.Ends (pure a : Run α) s Q R ↔ Q a s := Iff.rfl

@[simp] theorem ends_state {Q : State → State → Prop} : Run.Ends Run.state s Q R ↔ Q s s := Iff.rfl

@[simp] theorem ends_change (f : State → State) {Q : Unit → State → Prop} :
    Run.Ends (Run.change f) s Q R ↔ Q () (f s) := Iff.rfl

@[simp] theorem ends_bind (m : Run α) (f : α → Run β) {Q : β → State → Prop} :
    Run.Ends (m >>= f) s Q R ↔ Run.Ends m s (fun a t => Run.Ends (f a) t Q R) R := by
  simp only [Run.Ends, bind, EStateM.bind]
  cases m s <;> rfl

@[simp] theorem ends_ite (c : Prop) [Decidable c] (m n : Run α) :
    Run.Ends (if c then m else n) s Q R ↔
      (c → Run.Ends m s Q R) ∧ (¬c → Run.Ends n s Q R) := by
  by_cases h : c <;> simp [h]

theorem Run.Ends.mono {m : Run α} {Q' : α → State → Prop} {R' : State → Prop}
    (h : Run.Ends m s Q R) (hQ : ∀ a t, Q a t → Q' a t) (hR : ∀ t, R t → R' t) :
    Run.Ends m s Q' R' := by
  unfold Run.Ends at *
  cases hm : m s with
  | ok a t => rw [hm] at h; exact hQ a t h
  | error e t => rw [hm] at h; exact hR t h

/-- A command's end, from what its pseudocode does: the completion edge of the state the pseudocode
left, or the reset edge that cut it short. -/
theorem command_ends {body : Run ResultCode} {P : State → Prop}
    (h : Run.Ends (do tick; body) s (fun r t => P (t.complete r)) P) :
    ∃ t, command body s = .next t ∧ P t := by
  refine ⟨_, rfl, ?_⟩
  unfold Run.Ends at h
  unfold runCommand
  cases hm : (do tick; body : Run ResultCode) s with
  | ok r t => rw [hm] at h; exact h
  | error e t => rw [hm] at h; cases e; exact h

@[simp] theorem ends_gated {body : Run ResultCode} {Q : ResultCode → State → Prop} :
    Run.Ends (gated body) s Q R ↔
      (s.status.cal = true → Run.Ends body s Q R) ∧
      (s.status.cal = false → Q .notCalibrated s) := by
  simp [gated]

end Sys2Proof.Machine
end

