-- ==== Sys2Proof/Laws/State.lean ====
section
/-! SUPPORT. One lemma per field per named update of State, true by rfl, so that no proof unfolds a
record update. -/

namespace Sys2Proof.Machine

variable (s : State)

/-! ### `State.setPads` -/

@[simp] theorem State.setPads_status (p : Pads) : (s.setPads p).status = s.status := rfl
@[simp] theorem State.setPads_data (p : Pads) : (s.setPads p).data = s.data := rfl
@[simp] theorem State.setPads_ie (p : Pads) : (s.setPads p).ie = s.ie := rfl
@[simp] theorem State.setPads_tsample (p : Pads) : (s.setPads p).tsample = s.tsample := rfl
@[simp] theorem State.setPads_latency (p : Pads) : (s.setPads p).latency = s.latency := rfl
@[simp] theorem State.setPads_selRomLo (p : Pads) : (s.setPads p).selRomLo = s.selRomLo := rfl
@[simp] theorem State.setPads_selRomHi (p : Pads) : (s.setPads p).selRomHi = s.selRomHi := rfl
@[simp] theorem State.setPads_search (p : Pads) : (s.setPads p).search = s.search := rfl
@[simp] theorem State.setPads_crc8 (p : Pads) : (s.setPads p).crc8 = s.crc8 := rfl
@[simp] theorem State.setPads_crc16 (p : Pads) : (s.setPads p).crc16 = s.crc16 := rfl
@[simp] theorem State.setPads_pads (p : Pads) : (s.setPads p).pads = p := rfl
@[simp] theorem State.setPads_w (p : Pads) : (s.setPads p).w = s.w := rfl
@[simp] theorem State.setPads_cfg (p : Pads) : (s.setPads p).cfg = s.cfg := rfl
@[simp] theorem State.setPads_now (p : Pads) : (s.setPads p).now = s.now := rfl
@[simp] theorem State.setPads_wave (p : Pads) : (s.setPads p).wave = ⟨s.now, p⟩ :: s.wave := rfl
@[simp] theorem State.setPads_port (p : Pads) : (s.setPads p).port = s.port := rfl
@[simp] theorem State.setPads_reads (p : Pads) : (s.setPads p).reads = s.reads := rfl
@[simp] theorem State.setPads_env (p : Pads) : (s.setPads p).env = s.env.onPads s.cyclesPerUs s.now p := rfl
@[simp] theorem State.setPads_awaitingReset (p : Pads) :
    (s.setPads p).awaitingReset =
      s.awaitingReset := rfl

/-! ### `State.countStep` -/

@[simp] theorem State.countStep_status : s.countStep.status = s.status := rfl
@[simp] theorem State.countStep_data : s.countStep.data = s.data := rfl
@[simp] theorem State.countStep_ie : s.countStep.ie = s.ie := rfl
@[simp] theorem State.countStep_tsample : s.countStep.tsample = s.tsample := rfl
@[simp] theorem State.countStep_latency : s.countStep.latency = s.latency := rfl
@[simp] theorem State.countStep_selRomLo : s.countStep.selRomLo = s.selRomLo := rfl
@[simp] theorem State.countStep_selRomHi : s.countStep.selRomHi = s.selRomHi := rfl
@[simp] theorem State.countStep_search : s.countStep.search = s.search := rfl
@[simp] theorem State.countStep_crc8 : s.countStep.crc8 = s.crc8 := rfl
@[simp] theorem State.countStep_crc16 : s.countStep.crc16 = s.crc16 := rfl
@[simp] theorem State.countStep_pads : s.countStep.pads = s.pads := rfl
@[simp] theorem State.countStep_w : s.countStep.w = { s.w with step := s.w.step + 1 } := rfl
@[simp] theorem State.countStep_cfg : s.countStep.cfg = s.cfg := rfl
@[simp] theorem State.countStep_now : s.countStep.now = s.now := rfl
@[simp] theorem State.countStep_wave : s.countStep.wave = s.wave := rfl
@[simp] theorem State.countStep_port : s.countStep.port = s.port := rfl
@[simp] theorem State.countStep_reads : s.countStep.reads = s.reads := rfl
@[simp] theorem State.countStep_env : s.countStep.env = s.env := rfl
@[simp] theorem State.countStep_awaitingReset : s.countStep.awaitingReset = s.awaitingReset := rfl

/-! ### `State.quietCycles` -/

@[simp] theorem State.quietCycles_status (n : Nat) (port : List PortCycle) :
    (s.quietCycles n port).status =
      s.status := rfl
@[simp] theorem State.quietCycles_data (n : Nat) (port : List PortCycle) :
    (s.quietCycles n port).data =
      s.data := rfl
@[simp] theorem State.quietCycles_ie (n : Nat) (port : List PortCycle) :
    (s.quietCycles n port).ie =
      s.ie := rfl
@[simp] theorem State.quietCycles_tsample (n : Nat) (port : List PortCycle) :
    (s.quietCycles n port).tsample =
      s.tsample := rfl
@[simp] theorem State.quietCycles_latency (n : Nat) (port : List PortCycle) :
    (s.quietCycles n port).latency =
      s.latency := rfl
@[simp] theorem State.quietCycles_selRomLo (n : Nat) (port : List PortCycle) :
    (s.quietCycles n port).selRomLo =
      s.selRomLo := rfl
@[simp] theorem State.quietCycles_selRomHi (n : Nat) (port : List PortCycle) :
    (s.quietCycles n port).selRomHi =
      s.selRomHi := rfl
@[simp] theorem State.quietCycles_search (n : Nat) (port : List PortCycle) :
    (s.quietCycles n port).search =
      s.search := rfl
@[simp] theorem State.quietCycles_crc8 (n : Nat) (port : List PortCycle) :
    (s.quietCycles n port).crc8 =
      s.crc8 := rfl
@[simp] theorem State.quietCycles_crc16 (n : Nat) (port : List PortCycle) :
    (s.quietCycles n port).crc16 =
      s.crc16 := rfl
@[simp] theorem State.quietCycles_pads (n : Nat) (port : List PortCycle) :
    (s.quietCycles n port).pads =
      s.pads := rfl
@[simp] theorem State.quietCycles_w (n : Nat) (port : List PortCycle) :
    (s.quietCycles n port).w =
      { s.w with timer := 0 } := rfl
@[simp] theorem State.quietCycles_cfg (n : Nat) (port : List PortCycle) :
    (s.quietCycles n port).cfg =
      s.cfg := rfl
@[simp] theorem State.quietCycles_now (n : Nat) (port : List PortCycle) :
    (s.quietCycles n port).now =
      s.now + n := rfl
@[simp] theorem State.quietCycles_wave (n : Nat) (port : List PortCycle) :
    (s.quietCycles n port).wave =
      s.wave := rfl
@[simp] theorem State.quietCycles_port (n : Nat) (port : List PortCycle) :
    (s.quietCycles n port).port =
      port := rfl
@[simp] theorem State.quietCycles_reads (n : Nat) (port : List PortCycle) :
    (s.quietCycles n port).reads =
      s.reads := rfl
@[simp] theorem State.quietCycles_env (n : Nat) (port : List PortCycle) :
    (s.quietCycles n port).env =
      s.env := rfl
@[simp] theorem State.quietCycles_awaitingReset (n : Nat) (port : List PortCycle) :
    (s.quietCycles n port).awaitingReset =
      s.awaitingReset := rfl

/-! ### `State.dropWrite` -/

@[simp] theorem State.dropWrite_status : s.dropWrite.status = { s.status with ovr := true } := rfl
@[simp] theorem State.dropWrite_data : s.dropWrite.data = s.data := rfl
@[simp] theorem State.dropWrite_ie : s.dropWrite.ie = s.ie := rfl
@[simp] theorem State.dropWrite_tsample : s.dropWrite.tsample = s.tsample := rfl
@[simp] theorem State.dropWrite_latency : s.dropWrite.latency = s.latency := rfl
@[simp] theorem State.dropWrite_selRomLo : s.dropWrite.selRomLo = s.selRomLo := rfl
@[simp] theorem State.dropWrite_selRomHi : s.dropWrite.selRomHi = s.selRomHi := rfl
@[simp] theorem State.dropWrite_search : s.dropWrite.search = s.search := rfl
@[simp] theorem State.dropWrite_crc8 : s.dropWrite.crc8 = s.crc8 := rfl
@[simp] theorem State.dropWrite_crc16 : s.dropWrite.crc16 = s.crc16 := rfl
@[simp] theorem State.dropWrite_pads : s.dropWrite.pads = s.pads := rfl
@[simp] theorem State.dropWrite_w : s.dropWrite.w = s.w := rfl
@[simp] theorem State.dropWrite_cfg : s.dropWrite.cfg = s.cfg := rfl
@[simp] theorem State.dropWrite_now : s.dropWrite.now = s.now := rfl
@[simp] theorem State.dropWrite_wave : s.dropWrite.wave = s.wave := rfl
@[simp] theorem State.dropWrite_port : s.dropWrite.port = s.port := rfl
@[simp] theorem State.dropWrite_reads : s.dropWrite.reads = s.reads := rfl
@[simp] theorem State.dropWrite_env : s.dropWrite.env = s.env := rfl
@[simp] theorem State.dropWrite_awaitingReset : s.dropWrite.awaitingReset = s.awaitingReset := rfl

/-! ### `State.complete` -/

@[simp] theorem State.complete_status (r : ResultCode) : (s.complete r).status = s.status.completed r := rfl
@[simp] theorem State.complete_data (r : ResultCode) : (s.complete r).data = s.data := rfl
@[simp] theorem State.complete_ie (r : ResultCode) : (s.complete r).ie = s.ie := rfl
@[simp] theorem State.complete_tsample (r : ResultCode) : (s.complete r).tsample = s.tsample := rfl
@[simp] theorem State.complete_latency (r : ResultCode) : (s.complete r).latency = s.latency := rfl
@[simp] theorem State.complete_selRomLo (r : ResultCode) : (s.complete r).selRomLo = s.selRomLo := rfl
@[simp] theorem State.complete_selRomHi (r : ResultCode) : (s.complete r).selRomHi = s.selRomHi := rfl
@[simp] theorem State.complete_search (r : ResultCode) : (s.complete r).search = s.search := rfl
@[simp] theorem State.complete_crc8 (r : ResultCode) : (s.complete r).crc8 = s.crc8 := rfl
@[simp] theorem State.complete_crc16 (r : ResultCode) : (s.complete r).crc16 = s.crc16 := rfl
@[simp] theorem State.complete_pads (r : ResultCode) : (s.complete r).pads = s.pads := rfl
@[simp] theorem State.complete_w (r : ResultCode) : (s.complete r).w = s.w := rfl
@[simp] theorem State.complete_cfg (r : ResultCode) : (s.complete r).cfg = s.cfg := rfl
@[simp] theorem State.complete_now (r : ResultCode) : (s.complete r).now = s.now := rfl
@[simp] theorem State.complete_wave (r : ResultCode) : (s.complete r).wave = s.wave := rfl
@[simp] theorem State.complete_port (r : ResultCode) : (s.complete r).port = s.port := rfl
@[simp] theorem State.complete_reads (r : ResultCode) : (s.complete r).reads = s.reads := rfl
@[simp] theorem State.complete_env (r : ResultCode) : (s.complete r).env = s.env := rfl
@[simp] theorem State.complete_awaitingReset (r : ResultCode) :
    (s.complete r).awaitingReset =
      s.awaitingReset := rfl

/-! ### `State.accept` -/

@[simp] theorem State.accept_status (v : Word) : (s.accept v).status = s.status.accepted := rfl
@[simp] theorem State.accept_data (v : Word) : (s.accept v).data = s.data := rfl
@[simp] theorem State.accept_ie (v : Word) : (s.accept v).ie = s.ie := rfl
@[simp] theorem State.accept_tsample (v : Word) : (s.accept v).tsample = s.tsample := rfl
@[simp] theorem State.accept_latency (v : Word) : (s.accept v).latency = s.latency := rfl
@[simp] theorem State.accept_selRomLo (v : Word) : (s.accept v).selRomLo = s.selRomLo := rfl
@[simp] theorem State.accept_selRomHi (v : Word) : (s.accept v).selRomHi = s.selRomHi := rfl
@[simp] theorem State.accept_search (v : Word) : (s.accept v).search = s.search := rfl
@[simp] theorem State.accept_crc8 (v : Word) : (s.accept v).crc8 = s.crc8 := rfl
@[simp] theorem State.accept_crc16 (v : Word) : (s.accept v).crc16 = s.crc16 := rfl
@[simp] theorem State.accept_pads (v : Word) : (s.accept v).pads = s.pads := rfl
@[simp] theorem State.accept_w (v : Word) :
    (s.accept v).w =
      { s.w with cmd := v, step := 0, timer := 0, data := s.data, hold := v.getLsbD 8, selrom := romOf s.selRomHi s.selRomLo, tsample := s.tsample } := rfl
@[simp] theorem State.accept_cfg (v : Word) : (s.accept v).cfg = s.cfg := rfl
@[simp] theorem State.accept_now (v : Word) : (s.accept v).now = s.now := rfl
@[simp] theorem State.accept_wave (v : Word) : (s.accept v).wave = s.wave := rfl
@[simp] theorem State.accept_port (v : Word) : (s.accept v).port = s.port := rfl
@[simp] theorem State.accept_reads (v : Word) : (s.accept v).reads = s.reads := rfl
@[simp] theorem State.accept_env (v : Word) : (s.accept v).env = s.env := rfl
@[simp] theorem State.accept_awaitingReset (v : Word) :
    (s.accept v).awaitingReset =
      s.awaitingReset := rfl

/-! ### `State.setShift` -/

@[simp] theorem State.setShift_status (v : Byte) : (s.setShift v).status = s.status := rfl
@[simp] theorem State.setShift_data (v : Byte) : (s.setShift v).data = s.data := rfl
@[simp] theorem State.setShift_ie (v : Byte) : (s.setShift v).ie = s.ie := rfl
@[simp] theorem State.setShift_tsample (v : Byte) : (s.setShift v).tsample = s.tsample := rfl
@[simp] theorem State.setShift_latency (v : Byte) : (s.setShift v).latency = s.latency := rfl
@[simp] theorem State.setShift_selRomLo (v : Byte) : (s.setShift v).selRomLo = s.selRomLo := rfl
@[simp] theorem State.setShift_selRomHi (v : Byte) : (s.setShift v).selRomHi = s.selRomHi := rfl
@[simp] theorem State.setShift_search (v : Byte) : (s.setShift v).search = s.search := rfl
@[simp] theorem State.setShift_crc8 (v : Byte) : (s.setShift v).crc8 = s.crc8 := rfl
@[simp] theorem State.setShift_crc16 (v : Byte) : (s.setShift v).crc16 = s.crc16 := rfl
@[simp] theorem State.setShift_pads (v : Byte) : (s.setShift v).pads = s.pads := rfl
@[simp] theorem State.setShift_w (v : Byte) : (s.setShift v).w = { s.w with shift := v } := rfl
@[simp] theorem State.setShift_cfg (v : Byte) : (s.setShift v).cfg = s.cfg := rfl
@[simp] theorem State.setShift_now (v : Byte) : (s.setShift v).now = s.now := rfl
@[simp] theorem State.setShift_wave (v : Byte) : (s.setShift v).wave = s.wave := rfl
@[simp] theorem State.setShift_port (v : Byte) : (s.setShift v).port = s.port := rfl
@[simp] theorem State.setShift_reads (v : Byte) : (s.setShift v).reads = s.reads := rfl
@[simp] theorem State.setShift_env (v : Byte) : (s.setShift v).env = s.env := rfl
@[simp] theorem State.setShift_awaitingReset (v : Byte) :
    (s.setShift v).awaitingReset =
      s.awaitingReset := rfl

/-! ### `State.shiftIn` -/

@[simp] theorem State.shiftIn_status (i : Nat) (b : Bool) : (s.shiftIn i b).status = s.status := rfl
@[simp] theorem State.shiftIn_data (i : Nat) (b : Bool) : (s.shiftIn i b).data = s.data := rfl
@[simp] theorem State.shiftIn_ie (i : Nat) (b : Bool) : (s.shiftIn i b).ie = s.ie := rfl
@[simp] theorem State.shiftIn_tsample (i : Nat) (b : Bool) : (s.shiftIn i b).tsample = s.tsample := rfl
@[simp] theorem State.shiftIn_latency (i : Nat) (b : Bool) : (s.shiftIn i b).latency = s.latency := rfl
@[simp] theorem State.shiftIn_selRomLo (i : Nat) (b : Bool) : (s.shiftIn i b).selRomLo = s.selRomLo := rfl
@[simp] theorem State.shiftIn_selRomHi (i : Nat) (b : Bool) : (s.shiftIn i b).selRomHi = s.selRomHi := rfl
@[simp] theorem State.shiftIn_search (i : Nat) (b : Bool) : (s.shiftIn i b).search = s.search := rfl
@[simp] theorem State.shiftIn_crc8 (i : Nat) (b : Bool) : (s.shiftIn i b).crc8 = s.crc8 := rfl
@[simp] theorem State.shiftIn_crc16 (i : Nat) (b : Bool) : (s.shiftIn i b).crc16 = s.crc16 := rfl
@[simp] theorem State.shiftIn_pads (i : Nat) (b : Bool) : (s.shiftIn i b).pads = s.pads := rfl
@[simp] theorem State.shiftIn_w (i : Nat) (b : Bool) :
    (s.shiftIn i b).w =
      { s.w with shift := setByteBit s.w.shift i b } := rfl
@[simp] theorem State.shiftIn_cfg (i : Nat) (b : Bool) : (s.shiftIn i b).cfg = s.cfg := rfl
@[simp] theorem State.shiftIn_now (i : Nat) (b : Bool) : (s.shiftIn i b).now = s.now := rfl
@[simp] theorem State.shiftIn_wave (i : Nat) (b : Bool) : (s.shiftIn i b).wave = s.wave := rfl
@[simp] theorem State.shiftIn_port (i : Nat) (b : Bool) : (s.shiftIn i b).port = s.port := rfl
@[simp] theorem State.shiftIn_reads (i : Nat) (b : Bool) : (s.shiftIn i b).reads = s.reads := rfl
@[simp] theorem State.shiftIn_env (i : Nat) (b : Bool) : (s.shiftIn i b).env = s.env := rfl
@[simp] theorem State.shiftIn_awaitingReset (i : Nat) (b : Bool) :
    (s.shiftIn i b).awaitingReset =
      s.awaitingReset := rfl

/-! ### `State.setData` -/

@[simp] theorem State.setData_status (v : Byte) : (s.setData v).status = s.status := rfl
@[simp] theorem State.setData_data (v : Byte) : (s.setData v).data = v := rfl
@[simp] theorem State.setData_ie (v : Byte) : (s.setData v).ie = s.ie := rfl
@[simp] theorem State.setData_tsample (v : Byte) : (s.setData v).tsample = s.tsample := rfl
@[simp] theorem State.setData_latency (v : Byte) : (s.setData v).latency = s.latency := rfl
@[simp] theorem State.setData_selRomLo (v : Byte) : (s.setData v).selRomLo = s.selRomLo := rfl
@[simp] theorem State.setData_selRomHi (v : Byte) : (s.setData v).selRomHi = s.selRomHi := rfl
@[simp] theorem State.setData_search (v : Byte) : (s.setData v).search = s.search := rfl
@[simp] theorem State.setData_crc8 (v : Byte) : (s.setData v).crc8 = s.crc8 := rfl
@[simp] theorem State.setData_crc16 (v : Byte) : (s.setData v).crc16 = s.crc16 := rfl
@[simp] theorem State.setData_pads (v : Byte) : (s.setData v).pads = s.pads := rfl
@[simp] theorem State.setData_w (v : Byte) : (s.setData v).w = s.w := rfl
@[simp] theorem State.setData_cfg (v : Byte) : (s.setData v).cfg = s.cfg := rfl
@[simp] theorem State.setData_now (v : Byte) : (s.setData v).now = s.now := rfl
@[simp] theorem State.setData_wave (v : Byte) : (s.setData v).wave = s.wave := rfl
@[simp] theorem State.setData_port (v : Byte) : (s.setData v).port = s.port := rfl
@[simp] theorem State.setData_reads (v : Byte) : (s.setData v).reads = s.reads := rfl
@[simp] theorem State.setData_env (v : Byte) : (s.setData v).env = s.env := rfl
@[simp] theorem State.setData_awaitingReset (v : Byte) :
    (s.setData v).awaitingReset =
      s.awaitingReset := rfl

/-! ### `State.recordReset` -/

@[simp] theorem State.recordReset_status (o : ResetOutcome) :
    (s.recordReset o).status =
      { s.status with presence := o.presence, stuck := o.stuck } := rfl
@[simp] theorem State.recordReset_data (o : ResetOutcome) : (s.recordReset o).data = s.data := rfl
@[simp] theorem State.recordReset_ie (o : ResetOutcome) : (s.recordReset o).ie = s.ie := rfl
@[simp] theorem State.recordReset_tsample (o : ResetOutcome) : (s.recordReset o).tsample = s.tsample := rfl
@[simp] theorem State.recordReset_latency (o : ResetOutcome) : (s.recordReset o).latency = s.latency := rfl
@[simp] theorem State.recordReset_selRomLo (o : ResetOutcome) : (s.recordReset o).selRomLo = s.selRomLo := rfl
@[simp] theorem State.recordReset_selRomHi (o : ResetOutcome) : (s.recordReset o).selRomHi = s.selRomHi := rfl
@[simp] theorem State.recordReset_search (o : ResetOutcome) : (s.recordReset o).search = s.search := rfl
@[simp] theorem State.recordReset_crc8 (o : ResetOutcome) : (s.recordReset o).crc8 = s.crc8 := rfl
@[simp] theorem State.recordReset_crc16 (o : ResetOutcome) : (s.recordReset o).crc16 = s.crc16 := rfl
@[simp] theorem State.recordReset_pads (o : ResetOutcome) : (s.recordReset o).pads = s.pads := rfl
@[simp] theorem State.recordReset_w (o : ResetOutcome) : (s.recordReset o).w = s.w := rfl
@[simp] theorem State.recordReset_cfg (o : ResetOutcome) : (s.recordReset o).cfg = s.cfg := rfl
@[simp] theorem State.recordReset_now (o : ResetOutcome) : (s.recordReset o).now = s.now := rfl
@[simp] theorem State.recordReset_wave (o : ResetOutcome) : (s.recordReset o).wave = s.wave := rfl
@[simp] theorem State.recordReset_port (o : ResetOutcome) : (s.recordReset o).port = s.port := rfl
@[simp] theorem State.recordReset_reads (o : ResetOutcome) : (s.recordReset o).reads = s.reads := rfl
@[simp] theorem State.recordReset_env (o : ResetOutcome) : (s.recordReset o).env = s.env := rfl
@[simp] theorem State.recordReset_awaitingReset (o : ResetOutcome) :
    (s.recordReset o).awaitingReset =
      s.awaitingReset := rfl

/-! ### `State.advanceCrc8` -/

@[simp] theorem State.advanceCrc8_status : s.advanceCrc8.status = s.status := rfl
@[simp] theorem State.advanceCrc8_data : s.advanceCrc8.data = s.data := rfl
@[simp] theorem State.advanceCrc8_ie : s.advanceCrc8.ie = s.ie := rfl
@[simp] theorem State.advanceCrc8_tsample : s.advanceCrc8.tsample = s.tsample := rfl
@[simp] theorem State.advanceCrc8_latency : s.advanceCrc8.latency = s.latency := rfl
@[simp] theorem State.advanceCrc8_selRomLo : s.advanceCrc8.selRomLo = s.selRomLo := rfl
@[simp] theorem State.advanceCrc8_selRomHi : s.advanceCrc8.selRomHi = s.selRomHi := rfl
@[simp] theorem State.advanceCrc8_search : s.advanceCrc8.search = s.search := rfl
@[simp] theorem State.advanceCrc8_crc8 : s.advanceCrc8.crc8 = crc8Byte s.crc8 s.w.data := rfl
@[simp] theorem State.advanceCrc8_crc16 : s.advanceCrc8.crc16 = s.crc16 := rfl
@[simp] theorem State.advanceCrc8_pads : s.advanceCrc8.pads = s.pads := rfl
@[simp] theorem State.advanceCrc8_w :
    s.advanceCrc8.w =
      { s.w with crc := (crc8Byte s.crc8 s.w.data).setWidth 16 } := rfl
@[simp] theorem State.advanceCrc8_cfg : s.advanceCrc8.cfg = s.cfg := rfl
@[simp] theorem State.advanceCrc8_now : s.advanceCrc8.now = s.now := rfl
@[simp] theorem State.advanceCrc8_wave : s.advanceCrc8.wave = s.wave := rfl
@[simp] theorem State.advanceCrc8_port : s.advanceCrc8.port = s.port := rfl
@[simp] theorem State.advanceCrc8_reads : s.advanceCrc8.reads = s.reads := rfl
@[simp] theorem State.advanceCrc8_env : s.advanceCrc8.env = s.env := rfl
@[simp] theorem State.advanceCrc8_awaitingReset :
    s.advanceCrc8.awaitingReset =
      s.awaitingReset := rfl

/-! ### `State.advanceCrc16` -/

@[simp] theorem State.advanceCrc16_status : s.advanceCrc16.status = s.status := rfl
@[simp] theorem State.advanceCrc16_data : s.advanceCrc16.data = s.data := rfl
@[simp] theorem State.advanceCrc16_ie : s.advanceCrc16.ie = s.ie := rfl
@[simp] theorem State.advanceCrc16_tsample : s.advanceCrc16.tsample = s.tsample := rfl
@[simp] theorem State.advanceCrc16_latency : s.advanceCrc16.latency = s.latency := rfl
@[simp] theorem State.advanceCrc16_selRomLo : s.advanceCrc16.selRomLo = s.selRomLo := rfl
@[simp] theorem State.advanceCrc16_selRomHi : s.advanceCrc16.selRomHi = s.selRomHi := rfl
@[simp] theorem State.advanceCrc16_search : s.advanceCrc16.search = s.search := rfl
@[simp] theorem State.advanceCrc16_crc8 : s.advanceCrc16.crc8 = s.crc8 := rfl
@[simp] theorem State.advanceCrc16_crc16 :
    s.advanceCrc16.crc16 =
      crc16Byte s.cfg.crc16Poly s.crc16 s.w.data := rfl
@[simp] theorem State.advanceCrc16_pads : s.advanceCrc16.pads = s.pads := rfl
@[simp] theorem State.advanceCrc16_w :
    s.advanceCrc16.w =
      { s.w with crc := crc16Byte s.cfg.crc16Poly s.crc16 s.w.data } := rfl
@[simp] theorem State.advanceCrc16_cfg : s.advanceCrc16.cfg = s.cfg := rfl
@[simp] theorem State.advanceCrc16_now : s.advanceCrc16.now = s.now := rfl
@[simp] theorem State.advanceCrc16_wave : s.advanceCrc16.wave = s.wave := rfl
@[simp] theorem State.advanceCrc16_port : s.advanceCrc16.port = s.port := rfl
@[simp] theorem State.advanceCrc16_reads : s.advanceCrc16.reads = s.reads := rfl
@[simp] theorem State.advanceCrc16_env : s.advanceCrc16.env = s.env := rfl
@[simp] theorem State.advanceCrc16_awaitingReset :
    s.advanceCrc16.awaitingReset =
      s.awaitingReset := rfl

/-! ### `State.clearSearch` -/

@[simp] theorem State.clearSearch_status : s.clearSearch.status = { s.status with found := false } := rfl
@[simp] theorem State.clearSearch_data : s.clearSearch.data = s.data := rfl
@[simp] theorem State.clearSearch_ie : s.clearSearch.ie = s.ie := rfl
@[simp] theorem State.clearSearch_tsample : s.clearSearch.tsample = s.tsample := rfl
@[simp] theorem State.clearSearch_latency : s.clearSearch.latency = s.latency := rfl
@[simp] theorem State.clearSearch_selRomLo : s.clearSearch.selRomLo = s.selRomLo := rfl
@[simp] theorem State.clearSearch_selRomHi : s.clearSearch.selRomHi = s.selRomHi := rfl
@[simp] theorem State.clearSearch_search : s.clearSearch.search = .cleared := rfl
@[simp] theorem State.clearSearch_crc8 : s.clearSearch.crc8 = s.crc8 := rfl
@[simp] theorem State.clearSearch_crc16 : s.clearSearch.crc16 = s.crc16 := rfl
@[simp] theorem State.clearSearch_pads : s.clearSearch.pads = s.pads := rfl
@[simp] theorem State.clearSearch_w : s.clearSearch.w = s.w := rfl
@[simp] theorem State.clearSearch_cfg : s.clearSearch.cfg = s.cfg := rfl
@[simp] theorem State.clearSearch_now : s.clearSearch.now = s.now := rfl
@[simp] theorem State.clearSearch_wave : s.clearSearch.wave = s.wave := rfl
@[simp] theorem State.clearSearch_port : s.clearSearch.port = s.port := rfl
@[simp] theorem State.clearSearch_reads : s.clearSearch.reads = s.reads := rfl
@[simp] theorem State.clearSearch_env : s.clearSearch.env = s.env := rfl
@[simp] theorem State.clearSearch_awaitingReset :
    s.clearSearch.awaitingReset =
      s.awaitingReset := rfl

/-! ### `State.dropFound` -/

@[simp] theorem State.dropFound_status : s.dropFound.status = { s.status with found := false } := rfl
@[simp] theorem State.dropFound_data : s.dropFound.data = s.data := rfl
@[simp] theorem State.dropFound_ie : s.dropFound.ie = s.ie := rfl
@[simp] theorem State.dropFound_tsample : s.dropFound.tsample = s.tsample := rfl
@[simp] theorem State.dropFound_latency : s.dropFound.latency = s.latency := rfl
@[simp] theorem State.dropFound_selRomLo : s.dropFound.selRomLo = s.selRomLo := rfl
@[simp] theorem State.dropFound_selRomHi : s.dropFound.selRomHi = s.selRomHi := rfl
@[simp] theorem State.dropFound_search : s.dropFound.search = s.search := rfl
@[simp] theorem State.dropFound_crc8 : s.dropFound.crc8 = s.crc8 := rfl
@[simp] theorem State.dropFound_crc16 : s.dropFound.crc16 = s.crc16 := rfl
@[simp] theorem State.dropFound_pads : s.dropFound.pads = s.pads := rfl
@[simp] theorem State.dropFound_w : s.dropFound.w = s.w := rfl
@[simp] theorem State.dropFound_cfg : s.dropFound.cfg = s.cfg := rfl
@[simp] theorem State.dropFound_now : s.dropFound.now = s.now := rfl
@[simp] theorem State.dropFound_wave : s.dropFound.wave = s.wave := rfl
@[simp] theorem State.dropFound_port : s.dropFound.port = s.port := rfl
@[simp] theorem State.dropFound_reads : s.dropFound.reads = s.reads := rfl
@[simp] theorem State.dropFound_env : s.dropFound.env = s.env := rfl
@[simp] theorem State.dropFound_awaitingReset : s.dropFound.awaitingReset = s.awaitingReset := rfl

/-! ### `State.startPass` -/

@[simp] theorem State.startPass_status : s.startPass.status = s.status := rfl
@[simp] theorem State.startPass_data : s.startPass.data = s.data := rfl
@[simp] theorem State.startPass_ie : s.startPass.ie = s.ie := rfl
@[simp] theorem State.startPass_tsample : s.startPass.tsample = s.tsample := rfl
@[simp] theorem State.startPass_latency : s.startPass.latency = s.latency := rfl
@[simp] theorem State.startPass_selRomLo : s.startPass.selRomLo = s.selRomLo := rfl
@[simp] theorem State.startPass_selRomHi : s.startPass.selRomHi = s.selRomHi := rfl
@[simp] theorem State.startPass_search : s.startPass.search = s.search := rfl
@[simp] theorem State.startPass_crc8 : s.startPass.crc8 = s.crc8 := rfl
@[simp] theorem State.startPass_crc16 : s.startPass.crc16 = s.crc16 := rfl
@[simp] theorem State.startPass_pads : s.startPass.pads = s.pads := rfl
@[simp] theorem State.startPass_w :
    s.startPass.w =
      { s.w with buf := s.search.buf, lastZero := 0#7, famZero := 0#4 } := rfl
@[simp] theorem State.startPass_cfg : s.startPass.cfg = s.cfg := rfl
@[simp] theorem State.startPass_now : s.startPass.now = s.now := rfl
@[simp] theorem State.startPass_wave : s.startPass.wave = s.wave := rfl
@[simp] theorem State.startPass_port : s.startPass.port = s.port := rfl
@[simp] theorem State.startPass_reads : s.startPass.reads = s.reads := rfl
@[simp] theorem State.startPass_env : s.startPass.env = s.env := rfl
@[simp] theorem State.startPass_awaitingReset : s.startPass.awaitingReset = s.awaitingReset := rfl

/-! ### `State.setPosition` -/

@[simp] theorem State.setPosition_status (n : Nat) : (s.setPosition n).status = s.status := rfl
@[simp] theorem State.setPosition_data (n : Nat) : (s.setPosition n).data = s.data := rfl
@[simp] theorem State.setPosition_ie (n : Nat) : (s.setPosition n).ie = s.ie := rfl
@[simp] theorem State.setPosition_tsample (n : Nat) : (s.setPosition n).tsample = s.tsample := rfl
@[simp] theorem State.setPosition_latency (n : Nat) : (s.setPosition n).latency = s.latency := rfl
@[simp] theorem State.setPosition_selRomLo (n : Nat) : (s.setPosition n).selRomLo = s.selRomLo := rfl
@[simp] theorem State.setPosition_selRomHi (n : Nat) : (s.setPosition n).selRomHi = s.selRomHi := rfl
@[simp] theorem State.setPosition_search (n : Nat) : (s.setPosition n).search = s.search := rfl
@[simp] theorem State.setPosition_crc8 (n : Nat) : (s.setPosition n).crc8 = s.crc8 := rfl
@[simp] theorem State.setPosition_crc16 (n : Nat) : (s.setPosition n).crc16 = s.crc16 := rfl
@[simp] theorem State.setPosition_pads (n : Nat) : (s.setPosition n).pads = s.pads := rfl
@[simp] theorem State.setPosition_w (n : Nat) :
    (s.setPosition n).w =
      { s.w with n := BitVec.ofNat 7 n } := rfl
@[simp] theorem State.setPosition_cfg (n : Nat) : (s.setPosition n).cfg = s.cfg := rfl
@[simp] theorem State.setPosition_now (n : Nat) : (s.setPosition n).now = s.now := rfl
@[simp] theorem State.setPosition_wave (n : Nat) : (s.setPosition n).wave = s.wave := rfl
@[simp] theorem State.setPosition_port (n : Nat) : (s.setPosition n).port = s.port := rfl
@[simp] theorem State.setPosition_reads (n : Nat) : (s.setPosition n).reads = s.reads := rfl
@[simp] theorem State.setPosition_env (n : Nat) : (s.setPosition n).env = s.env := rfl
@[simp] theorem State.setPosition_awaitingReset (n : Nat) :
    (s.setPosition n).awaitingReset =
      s.awaitingReset := rfl

/-! ### `State.noteDirection` -/

@[simp] theorem State.noteDirection_status (n : Nat) (x d : Bool) :
    (s.noteDirection n x d).status =
      s.status := rfl
@[simp] theorem State.noteDirection_data (n : Nat) (x d : Bool) : (s.noteDirection n x d).data = s.data := rfl
@[simp] theorem State.noteDirection_ie (n : Nat) (x d : Bool) : (s.noteDirection n x d).ie = s.ie := rfl
@[simp] theorem State.noteDirection_tsample (n : Nat) (x d : Bool) :
    (s.noteDirection n x d).tsample =
      s.tsample := rfl
@[simp] theorem State.noteDirection_latency (n : Nat) (x d : Bool) :
    (s.noteDirection n x d).latency =
      s.latency := rfl
@[simp] theorem State.noteDirection_selRomLo (n : Nat) (x d : Bool) :
    (s.noteDirection n x d).selRomLo =
      s.selRomLo := rfl
@[simp] theorem State.noteDirection_selRomHi (n : Nat) (x d : Bool) :
    (s.noteDirection n x d).selRomHi =
      s.selRomHi := rfl
@[simp] theorem State.noteDirection_search (n : Nat) (x d : Bool) :
    (s.noteDirection n x d).search =
      s.search := rfl
@[simp] theorem State.noteDirection_crc8 (n : Nat) (x d : Bool) : (s.noteDirection n x d).crc8 = s.crc8 := rfl
@[simp] theorem State.noteDirection_crc16 (n : Nat) (x d : Bool) :
    (s.noteDirection n x d).crc16 =
      s.crc16 := rfl
@[simp] theorem State.noteDirection_pads (n : Nat) (x d : Bool) : (s.noteDirection n x d).pads = s.pads := rfl
@[simp] theorem State.noteDirection_w (n : Nat) (x d : Bool) :
    (s.noteDirection n x d).w =
      s.w.noteDirection n x d := rfl
@[simp] theorem State.noteDirection_cfg (n : Nat) (x d : Bool) : (s.noteDirection n x d).cfg = s.cfg := rfl
@[simp] theorem State.noteDirection_now (n : Nat) (x d : Bool) : (s.noteDirection n x d).now = s.now := rfl
@[simp] theorem State.noteDirection_wave (n : Nat) (x d : Bool) : (s.noteDirection n x d).wave = s.wave := rfl
@[simp] theorem State.noteDirection_port (n : Nat) (x d : Bool) : (s.noteDirection n x d).port = s.port := rfl
@[simp] theorem State.noteDirection_reads (n : Nat) (x d : Bool) :
    (s.noteDirection n x d).reads =
      s.reads := rfl
@[simp] theorem State.noteDirection_env (n : Nat) (x d : Bool) : (s.noteDirection n x d).env = s.env := rfl
@[simp] theorem State.noteDirection_awaitingReset (n : Nat) (x d : Bool) :
    (s.noteDirection n x d).awaitingReset =
      s.awaitingReset := rfl

/-! ### `State.checkCrc` -/

@[simp] theorem State.checkCrc_status : s.checkCrc.status = s.status := rfl
@[simp] theorem State.checkCrc_data : s.checkCrc.data = s.data := rfl
@[simp] theorem State.checkCrc_ie : s.checkCrc.ie = s.ie := rfl
@[simp] theorem State.checkCrc_tsample : s.checkCrc.tsample = s.tsample := rfl
@[simp] theorem State.checkCrc_latency : s.checkCrc.latency = s.latency := rfl
@[simp] theorem State.checkCrc_selRomLo : s.checkCrc.selRomLo = s.selRomLo := rfl
@[simp] theorem State.checkCrc_selRomHi : s.checkCrc.selRomHi = s.selRomHi := rfl
@[simp] theorem State.checkCrc_search : s.checkCrc.search = s.search := rfl
@[simp] theorem State.checkCrc_crc8 : s.checkCrc.crc8 = s.crc8 := rfl
@[simp] theorem State.checkCrc_crc16 : s.checkCrc.crc16 = s.crc16 := rfl
@[simp] theorem State.checkCrc_pads : s.checkCrc.pads = s.pads := rfl
@[simp] theorem State.checkCrc_w : s.checkCrc.w = { s.w with crc := (romCrc s.w.buf).setWidth 16 } := rfl
@[simp] theorem State.checkCrc_cfg : s.checkCrc.cfg = s.cfg := rfl
@[simp] theorem State.checkCrc_now : s.checkCrc.now = s.now := rfl
@[simp] theorem State.checkCrc_wave : s.checkCrc.wave = s.wave := rfl
@[simp] theorem State.checkCrc_port : s.checkCrc.port = s.port := rfl
@[simp] theorem State.checkCrc_reads : s.checkCrc.reads = s.reads := rfl
@[simp] theorem State.checkCrc_env : s.checkCrc.env = s.env := rfl
@[simp] theorem State.checkCrc_awaitingReset : s.checkCrc.awaitingReset = s.awaitingReset := rfl

/-! ### `State.commitPass` -/

@[simp] theorem State.commitPass_status : s.commitPass.status = { s.status with found := true } := rfl
@[simp] theorem State.commitPass_data : s.commitPass.data = s.data := rfl
@[simp] theorem State.commitPass_ie : s.commitPass.ie = s.ie := rfl
@[simp] theorem State.commitPass_tsample : s.commitPass.tsample = s.tsample := rfl
@[simp] theorem State.commitPass_latency : s.commitPass.latency = s.latency := rfl
@[simp] theorem State.commitPass_selRomLo : s.commitPass.selRomLo = s.selRomLo := rfl
@[simp] theorem State.commitPass_selRomHi : s.commitPass.selRomHi = s.selRomHi := rfl
@[simp] theorem State.commitPass_search :
    s.commitPass.search =
      { romLo := romLoOf s.w.buf, romHi := romHiOf s.w.buf, ld := s.w.lastZero, lfd := s.w.famZero, term := decide (s.w.lastZero = 0#7) } := rfl
@[simp] theorem State.commitPass_crc8 : s.commitPass.crc8 = s.crc8 := rfl
@[simp] theorem State.commitPass_crc16 : s.commitPass.crc16 = s.crc16 := rfl
@[simp] theorem State.commitPass_pads : s.commitPass.pads = s.pads := rfl
@[simp] theorem State.commitPass_w : s.commitPass.w = s.w := rfl
@[simp] theorem State.commitPass_cfg : s.commitPass.cfg = s.cfg := rfl
@[simp] theorem State.commitPass_now : s.commitPass.now = s.now := rfl
@[simp] theorem State.commitPass_wave : s.commitPass.wave = s.wave := rfl
@[simp] theorem State.commitPass_port : s.commitPass.port = s.port := rfl
@[simp] theorem State.commitPass_reads : s.commitPass.reads = s.reads := rfl
@[simp] theorem State.commitPass_env : s.commitPass.env = s.env := rfl
@[simp] theorem State.commitPass_awaitingReset : s.commitPass.awaitingReset = s.awaitingReset := rfl

/-! ### `State.seedSearch` -/

@[simp] theorem State.seedSearch_status : s.seedSearch.status = { s.status with found := false } := rfl
@[simp] theorem State.seedSearch_data : s.seedSearch.data = s.data := rfl
@[simp] theorem State.seedSearch_ie : s.seedSearch.ie = s.ie := rfl
@[simp] theorem State.seedSearch_tsample : s.seedSearch.tsample = s.tsample := rfl
@[simp] theorem State.seedSearch_latency : s.seedSearch.latency = s.latency := rfl
@[simp] theorem State.seedSearch_selRomLo : s.seedSearch.selRomLo = s.selRomLo := rfl
@[simp] theorem State.seedSearch_selRomHi : s.seedSearch.selRomHi = s.selRomHi := rfl
@[simp] theorem State.seedSearch_search : s.seedSearch.search = .target s.w.data := rfl
@[simp] theorem State.seedSearch_crc8 : s.seedSearch.crc8 = s.crc8 := rfl
@[simp] theorem State.seedSearch_crc16 : s.seedSearch.crc16 = s.crc16 := rfl
@[simp] theorem State.seedSearch_pads : s.seedSearch.pads = s.pads := rfl
@[simp] theorem State.seedSearch_w : s.seedSearch.w = s.w := rfl
@[simp] theorem State.seedSearch_cfg : s.seedSearch.cfg = s.cfg := rfl
@[simp] theorem State.seedSearch_now : s.seedSearch.now = s.now := rfl
@[simp] theorem State.seedSearch_wave : s.seedSearch.wave = s.wave := rfl
@[simp] theorem State.seedSearch_port : s.seedSearch.port = s.port := rfl
@[simp] theorem State.seedSearch_reads : s.seedSearch.reads = s.reads := rfl
@[simp] theorem State.seedSearch_env : s.seedSearch.env = s.env := rfl
@[simp] theorem State.seedSearch_awaitingReset : s.seedSearch.awaitingReset = s.awaitingReset := rfl

/-! ### `State.setCounter` -/

@[simp] theorem State.setCounter_status (c : BitVec 16) : (s.setCounter c).status = s.status := rfl
@[simp] theorem State.setCounter_data (c : BitVec 16) : (s.setCounter c).data = s.data := rfl
@[simp] theorem State.setCounter_ie (c : BitVec 16) : (s.setCounter c).ie = s.ie := rfl
@[simp] theorem State.setCounter_tsample (c : BitVec 16) : (s.setCounter c).tsample = s.tsample := rfl
@[simp] theorem State.setCounter_latency (c : BitVec 16) : (s.setCounter c).latency = s.latency := rfl
@[simp] theorem State.setCounter_selRomLo (c : BitVec 16) : (s.setCounter c).selRomLo = s.selRomLo := rfl
@[simp] theorem State.setCounter_selRomHi (c : BitVec 16) : (s.setCounter c).selRomHi = s.selRomHi := rfl
@[simp] theorem State.setCounter_search (c : BitVec 16) : (s.setCounter c).search = s.search := rfl
@[simp] theorem State.setCounter_crc8 (c : BitVec 16) : (s.setCounter c).crc8 = s.crc8 := rfl
@[simp] theorem State.setCounter_crc16 (c : BitVec 16) : (s.setCounter c).crc16 = s.crc16 := rfl
@[simp] theorem State.setCounter_pads (c : BitVec 16) : (s.setCounter c).pads = s.pads := rfl
@[simp] theorem State.setCounter_w (c : BitVec 16) : (s.setCounter c).w = { s.w with cal := c } := rfl
@[simp] theorem State.setCounter_cfg (c : BitVec 16) : (s.setCounter c).cfg = s.cfg := rfl
@[simp] theorem State.setCounter_now (c : BitVec 16) : (s.setCounter c).now = s.now := rfl
@[simp] theorem State.setCounter_wave (c : BitVec 16) : (s.setCounter c).wave = s.wave := rfl
@[simp] theorem State.setCounter_port (c : BitVec 16) : (s.setCounter c).port = s.port := rfl
@[simp] theorem State.setCounter_reads (c : BitVec 16) : (s.setCounter c).reads = s.reads := rfl
@[simp] theorem State.setCounter_env (c : BitVec 16) : (s.setCounter c).env = s.env := rfl
@[simp] theorem State.setCounter_awaitingReset (c : BitVec 16) :
    (s.setCounter c).awaitingReset =
      s.awaitingReset := rfl

/-! ### `State.commitCalibration` -/

@[simp] theorem State.commitCalibration_status (pass : Bool) :
    (s.commitCalibration pass).status =
      if pass then { s.status with cal := true } else { s.status with calerr := true } := rfl
@[simp] theorem State.commitCalibration_data (pass : Bool) : (s.commitCalibration pass).data = s.data := rfl
@[simp] theorem State.commitCalibration_ie (pass : Bool) : (s.commitCalibration pass).ie = s.ie := rfl
@[simp] theorem State.commitCalibration_tsample (pass : Bool) :
    (s.commitCalibration pass).tsample =
      s.tsample := rfl
@[simp] theorem State.commitCalibration_latency (pass : Bool) :
    (s.commitCalibration pass).latency =
      s.w.cal := rfl
@[simp] theorem State.commitCalibration_selRomLo (pass : Bool) :
    (s.commitCalibration pass).selRomLo =
      s.selRomLo := rfl
@[simp] theorem State.commitCalibration_selRomHi (pass : Bool) :
    (s.commitCalibration pass).selRomHi =
      s.selRomHi := rfl
@[simp] theorem State.commitCalibration_search (pass : Bool) :
    (s.commitCalibration pass).search =
      s.search := rfl
@[simp] theorem State.commitCalibration_crc8 (pass : Bool) : (s.commitCalibration pass).crc8 = s.crc8 := rfl
@[simp] theorem State.commitCalibration_crc16 (pass : Bool) :
    (s.commitCalibration pass).crc16 =
      s.crc16 := rfl
@[simp] theorem State.commitCalibration_pads (pass : Bool) : (s.commitCalibration pass).pads = s.pads := rfl
@[simp] theorem State.commitCalibration_w (pass : Bool) : (s.commitCalibration pass).w = s.w := rfl
@[simp] theorem State.commitCalibration_cfg (pass : Bool) : (s.commitCalibration pass).cfg = s.cfg := rfl
@[simp] theorem State.commitCalibration_now (pass : Bool) : (s.commitCalibration pass).now = s.now := rfl
@[simp] theorem State.commitCalibration_wave (pass : Bool) : (s.commitCalibration pass).wave = s.wave := rfl
@[simp] theorem State.commitCalibration_port (pass : Bool) : (s.commitCalibration pass).port = s.port := rfl
@[simp] theorem State.commitCalibration_reads (pass : Bool) :
    (s.commitCalibration pass).reads =
      s.reads := rfl
@[simp] theorem State.commitCalibration_env (pass : Bool) : (s.commitCalibration pass).env = s.env := rfl
@[simp] theorem State.commitCalibration_awaitingReset (pass : Bool) :
    (s.commitCalibration pass).awaitingReset =
      s.awaitingReset := rfl

/-! ### `State.resetEdge` -/

@[simp] theorem State.resetEdge_status : s.resetEdge.status = .atReset := rfl
@[simp] theorem State.resetEdge_data : s.resetEdge.data = 0#8 := rfl
@[simp] theorem State.resetEdge_ie : s.resetEdge.ie = false := rfl
@[simp] theorem State.resetEdge_tsample : s.resetEdge.tsample = s.cfg.tsampleReset := rfl
@[simp] theorem State.resetEdge_latency : s.resetEdge.latency = 0#16 := rfl
@[simp] theorem State.resetEdge_selRomLo : s.resetEdge.selRomLo = 0#32 := rfl
@[simp] theorem State.resetEdge_selRomHi : s.resetEdge.selRomHi = 0#32 := rfl
@[simp] theorem State.resetEdge_search : s.resetEdge.search = .cleared := rfl
@[simp] theorem State.resetEdge_crc8 : s.resetEdge.crc8 = 0#8 := rfl
@[simp] theorem State.resetEdge_crc16 : s.resetEdge.crc16 = 0#16 := rfl
@[simp] theorem State.resetEdge_pads : s.resetEdge.pads = Pads.released := rfl
@[simp] theorem State.resetEdge_w : s.resetEdge.w = .atReset := rfl
@[simp] theorem State.resetEdge_cfg : s.resetEdge.cfg = s.cfg := rfl
@[simp] theorem State.resetEdge_now : s.resetEdge.now = s.now := rfl
@[simp] theorem State.resetEdge_wave : s.resetEdge.wave = ⟨s.now, Pads.released⟩ :: s.wave := rfl
@[simp] theorem State.resetEdge_port : s.resetEdge.port = s.port := rfl
@[simp] theorem State.resetEdge_reads : s.resetEdge.reads = s.reads := rfl
@[simp] theorem State.resetEdge_env : s.resetEdge.env = s.env.onPads s.cyclesPerUs s.now Pads.released := rfl
@[simp] theorem State.resetEdge_awaitingReset : s.resetEdge.awaitingReset = false := rfl

/-! ### `State.announceRead` -/

@[simp] theorem State.announceRead_status : s.announceRead.status = s.status := rfl
@[simp] theorem State.announceRead_data : s.announceRead.data = s.data := rfl
@[simp] theorem State.announceRead_ie : s.announceRead.ie = s.ie := rfl
@[simp] theorem State.announceRead_tsample : s.announceRead.tsample = s.tsample := rfl
@[simp] theorem State.announceRead_latency : s.announceRead.latency = s.latency := rfl
@[simp] theorem State.announceRead_selRomLo : s.announceRead.selRomLo = s.selRomLo := rfl
@[simp] theorem State.announceRead_selRomHi : s.announceRead.selRomHi = s.selRomHi := rfl
@[simp] theorem State.announceRead_search : s.announceRead.search = s.search := rfl
@[simp] theorem State.announceRead_crc8 : s.announceRead.crc8 = s.crc8 := rfl
@[simp] theorem State.announceRead_crc16 : s.announceRead.crc16 = s.crc16 := rfl
@[simp] theorem State.announceRead_pads : s.announceRead.pads = s.pads := rfl
@[simp] theorem State.announceRead_w : s.announceRead.w = s.w := rfl
@[simp] theorem State.announceRead_cfg : s.announceRead.cfg = s.cfg := rfl
@[simp] theorem State.announceRead_now : s.announceRead.now = s.now := rfl
@[simp] theorem State.announceRead_wave : s.announceRead.wave = s.wave := rfl
@[simp] theorem State.announceRead_port : s.announceRead.port = s.port := rfl
@[simp] theorem State.announceRead_reads : s.announceRead.reads = s.reads := rfl
@[simp] theorem State.announceRead_env : s.announceRead.env = s.env.announceRead := rfl
@[simp] theorem State.announceRead_awaitingReset :
    s.announceRead.awaitingReset = s.awaitingReset := rfl

/-! ### `State.unspecified` -/

@[simp] theorem State.unspecified_status :
    s.unspecified.status = (Config.unresetBlock s).status := rfl
@[simp] theorem State.unspecified_data : s.unspecified.data = (Config.unresetBlock s).data := rfl
@[simp] theorem State.unspecified_ie : s.unspecified.ie = (Config.unresetBlock s).ie := rfl
@[simp] theorem State.unspecified_tsample :
    s.unspecified.tsample = (Config.unresetBlock s).tsample := rfl
@[simp] theorem State.unspecified_latency :
    s.unspecified.latency = (Config.unresetBlock s).latency := rfl
@[simp] theorem State.unspecified_selRomLo :
    s.unspecified.selRomLo = (Config.unresetBlock s).selRomLo := rfl
@[simp] theorem State.unspecified_selRomHi :
    s.unspecified.selRomHi = (Config.unresetBlock s).selRomHi := rfl
@[simp] theorem State.unspecified_search :
    s.unspecified.search = (Config.unresetBlock s).search := rfl
@[simp] theorem State.unspecified_crc8 : s.unspecified.crc8 = (Config.unresetBlock s).crc8 := rfl
@[simp] theorem State.unspecified_crc16 : s.unspecified.crc16 = (Config.unresetBlock s).crc16 := rfl
@[simp] theorem State.unspecified_pads : s.unspecified.pads = (Config.unresetBlock s).pads := rfl
@[simp] theorem State.unspecified_w : s.unspecified.w = (Config.unresetBlock s).w := rfl
@[simp] theorem State.unspecified_cfg : s.unspecified.cfg = s.cfg := rfl
@[simp] theorem State.unspecified_now : s.unspecified.now = s.now := rfl
@[simp] theorem State.unspecified_wave :
    s.unspecified.wave = ⟨s.now, (Config.unresetBlock s).pads⟩ :: s.wave := rfl
@[simp] theorem State.unspecified_port : s.unspecified.port = s.port := rfl
@[simp] theorem State.unspecified_reads : s.unspecified.reads = s.reads := rfl
@[simp] theorem State.unspecified_env :
    s.unspecified.env = s.env.onPads s.cyclesPerUs s.now (Config.unresetBlock s).pads := rfl
@[simp] theorem State.unspecified_awaitingReset :
    s.unspecified.awaitingReset = s.awaitingReset := rfl

end Sys2Proof.Machine
end

