-- ==== Sys2Proof/Laws/Ops.lean ====
section
/-! SUPPORT. One spec lemma per shared operation of the sequencer: everything it can do. -/

namespace Sys2Proof.Machine

/-! ### What a running command can change -/

/-- What a read answered to the host of a running command says of the state `s` the command was in: all
of STATUS but POWER and every other register, DONE, OVR and CONFIG as the host's writes before the read
have left them (20_memory.md R79, R80). -/
def Saw (s : State) (a : ReadAnswer) : Prop :=
  (regAt a.word = .status →
    a.value &&& 0xFFFFFFD9#32 = s.readReg .status &&& 0xFFFFFFD9#32)
  ∧ (regAt a.word ≠ .status → regAt a.word ≠ .config → a.value = s.readReg (regAt a.word))
  ∧ (regAt a.word = .status → a.value.getLsbD 1 = (s.hostBitsAt (a.edge - 1)).done
    ∧ a.value.getLsbD 2 = (s.hostBitsAt (a.edge - 1)).ovr)
  ∧ (regAt a.word = .config →
    a.value = (BitVec.ofBool (s.hostBitsAt (a.edge - 1)).ie).setWidth 32)

theorem padsBefore_append {ev wave : List PadEvent} {u : Nat} (h : ∀ e ∈ ev, u ≤ e.edge) :
    padsBefore (ev ++ wave) u = padsBefore wave u := by
  induction ev with
  | nil => rfl
  | cons e es ih =>
    have h1 : ¬e.edge < u := Nat.not_lt.2 (h e List.mem_cons_self)
    simp only [List.cons_append, padsBefore, h1, if_false]
    exact ih fun d hd => h d (List.mem_cons_of_mem _ hd)

/-- A history that lies in the past gives the pad outputs there are to every later edge. -/
theorem State.Timely.pads_at {s : State} (h : s.Timely) {u : Nat} (hu : s.now < u) :
    s.pads = padsBefore s.wave u := by
  obtain ⟨h1, -, h3⟩ := h
  rw [h3]
  cases hw : s.wave with
  | nil => rfl
  | cons e es =>
    have := h1 e (by rw [hw]; exact List.mem_cons_self)
    rw [padsBefore, padsBefore, if_pos (by omega), if_pos (by omega)]

/-- At the last clock edge no write to come has been made. -/
@[simp] theorem hostBitsAt_now (s : State) : s.hostBitsAt s.now = s.hostBits := by
  unfold State.hostBitsAt
  cases s.port with
  | nil => rfl
  | cons c rest => rw [writeCycles, if_neg (by omega)]; rfl

/-- DONE, OVR and POWER of the word STATUS reads as. -/
theorem statusWord_live (s : State) :
    s.statusWord.getLsbD 1 = s.status.done ∧ s.statusWord.getLsbD 2 = s.status.ovr
      ∧ s.statusWord.getLsbD 5 = s.pads.pu := by
  simp only [State.statusWord, State.power, BitVec.getLsbD_setWidth, BitVec.getLsbD_append,
    BitVec.getLsbD_ofBool]
  simp

@[simp] theorem restCycles_zero (port : List PortCycle) : restCycles port 0 = port := by
  cases port <;> rfl

theorem restCycles_add (port : List PortCycle) : ∀ n m : Nat,
    restCycles port (n + m) = restCycles (restCycles port n) m := by
  induction port with
  | nil => intro n m; rfl
  | cons c rest ih =>
    intro n m
    by_cases h1 : c.gap < n
    · rw [restCycles, restCycles, if_pos h1, if_pos (by omega), ← ih,
        show n + m - (c.gap + 1) = n - (c.gap + 1) + m by omega]
    · rw [restCycles, restCycles, if_neg h1, restCycles, show c.gap - n - m = c.gap - (n + m) by omega,
        show m - (c.gap - n + 1) = n + m - (c.gap + 1) by omega]
      by_cases h2 : c.gap < n + m
      · rw [if_pos h2, if_pos (show c.gap - n < m by omega)]
      · rw [if_neg h2, if_neg (show ¬c.gap - n < m by omega)]

/-- `t` is `s` after `n` clock cycles in which the busy sequencer made the pad events `ev`, newest
first, and the host did what a busy block lets it do. Everything not named here stays. -/
structure Ran (n : Nat) (ev : List PadEvent) (s t : State) : Prop where
  now : t.now = s.now + n
  wave : t.wave = ev ++ s.wave
  edges : ∀ e ∈ ev, s.now ≤ e.edge ∧ e.edge ≤ t.now
  frame : t = { s with
    status := { s.status with done := t.status.done, ovr := t.status.ovr }
    ie := t.ie
    w := { s.w with step := t.w.step, timer := t.w.timer, shift := t.w.shift }
    pads := t.pads, now := t.now, wave := t.wave, port := t.port, reads := t.reads, env := t.env }
  done : t.status.done = true → s.status.done = true
  passive : s.env.passive = true → t.env = s.env
  noReset : NoReset s → NoReset t
  noWrites : NoWrites s → NoWrites t ∧ t.ie = s.ie ∧ t.status.ovr = s.status.ovr
  bits : ∀ last, t.now ≤ last → s.hostBitsAt last = t.hostBitsAt last
  port : t.port = restCycles s.port n
  timely : s.Timely → t.Timely
  reads : ∃ new, t.reads = new ++ s.reads
    ∧ (∀ last, t.now ≤ last → readCycles s.port s.now last
      = (new.map ReadAnswer.asked).reverse ++ readCycles t.port t.now last)
    ∧ ∀ a ∈ new, s.now < a.edge ∧ a.edge ≤ t.now ∧ Saw s a
      ∧ (regAt a.word = .status → s.Timely → a.value.getLsbD 5 = (padsBefore t.wave a.edge).pu)

/-- The history of a block whose pad outputs stay for a while. -/
theorem State.Timely.later {s t : State} (h : s.Timely) (hp : t.pads = s.pads) (hw : t.wave = s.wave)
    (hn : s.now ≤ t.now) : t.Timely := by
  have key := h.pads_at (u := t.now + 1) (by omega)
  obtain ⟨h1, h2, -⟩ := h
  refine ⟨fun e he => ?_, by rw [hw]; exact h2, by rw [hp, hw, key]⟩
  rw [hw] at he
  exact (h1 e he).trans hn

/-- The history of a block whose pad outputs have just changed. -/
theorem State.Timely.event {s t : State} {p : Pads} (h : s.Timely) (hp : t.pads = p)
    (hw : t.wave = ⟨t.now, p⟩ :: s.wave) (hn : s.now ≤ t.now) : t.Timely := by
  obtain ⟨h1, h2, -⟩ := h
  refine ⟨?_, ?_, ?_⟩
  · rw [hw]
    intro e he
    rcases List.mem_cons.1 he with rfl | he
    · exact Nat.le_refl _
    · exact (h1 e he).trans hn
  · rw [hw, List.pairwise_cons]
    exact ⟨fun e he => (h1 e he).trans hn, h2⟩
  · rw [hp, hw, padsBefore, if_pos (Nat.lt_succ_self _)]

/-- STATUS but for DONE, OVR and POWER does not tell two states apart that differ only there. -/
theorem statusWord_masked {s t : State} (h : t.status = { s.status with
      done := t.status.done, ovr := t.status.ovr }) :
    t.statusWord &&& 0xFFFFFFD9#32 = s.statusWord &&& 0xFFFFFFD9#32 := by
  unfold State.statusWord
  rw [h]
  simp only
  generalize s.status.result.code = r
  generalize s.status.stuck = a
  generalize s.status.calerr = b
  generalize s.status.cal = c
  generalize s.status.found = d
  generalize s.status.presence = e
  generalize s.status.busy = f
  generalize t.status.done = g1
  generalize t.status.ovr = g2
  generalize t.power = g3
  generalize s.status.done = g4
  generalize s.status.ovr = g5
  generalize s.power = g6
  apply BitVec.eq_of_getLsbD_eq
  intro i hi
  simp only [BitVec.getLsbD_and]
  by_cases hm : i = 1 ∨ i = 2 ∨ i = 5
  · have : (0xFFFFFFD9#32).getLsbD i = false := by
      rcases hm with rfl | rfl | rfl <;> rfl
    rw [this, Bool.and_false, Bool.and_false]
  · congr 1
    simp only [BitVec.getLsbD_setWidth, BitVec.getLsbD_append, BitVec.getLsbD_ofBool]
    congr 1
    have h0 : i = 0 ∨ i = 3 ∨ i = 4 ∨ 6 ≤ i := by omega
    rcases h0 with rfl | rfl | rfl | h0
    · rfl
    · rfl
    · rfl
    · have e1 : ¬i < 1 := by omega
      have e2 : ¬i - 1 < 1 := by omega
      have e3 : ¬i - 1 - 1 < 1 := by omega
      have e4 : ¬i - 1 - 1 - 1 < 1 := by omega
      have e5 : ¬i - 1 - 1 - 1 - 1 < 1 := by omega
      have e6 : ¬i - 1 - 1 - 1 - 1 - 1 < 1 := by omega
      simp only [e1, e2, e3, e4, e5, e6, if_false]

namespace Ran

variable {n m : Nat} {ev ev' : List PadEvent} {s t u : State}

theorem data (h : Ran n ev s t) : t.data = s.data := (congrArg State.data h.frame :)
theorem tsample (h : Ran n ev s t) : t.tsample = s.tsample := (congrArg State.tsample h.frame :)
theorem latency (h : Ran n ev s t) : t.latency = s.latency := (congrArg State.latency h.frame :)
theorem selRomLo (h : Ran n ev s t) : t.selRomLo = s.selRomLo := (congrArg State.selRomLo h.frame :)
theorem selRomHi (h : Ran n ev s t) : t.selRomHi = s.selRomHi := (congrArg State.selRomHi h.frame :)
theorem search (h : Ran n ev s t) : t.search = s.search := (congrArg State.search h.frame :)
theorem crc8 (h : Ran n ev s t) : t.crc8 = s.crc8 := (congrArg State.crc8 h.frame :)
theorem crc16 (h : Ran n ev s t) : t.crc16 = s.crc16 := (congrArg State.crc16 h.frame :)
theorem cfg (h : Ran n ev s t) : t.cfg = s.cfg := (congrArg State.cfg h.frame :)
theorem awaitingReset (h : Ran n ev s t) : t.awaitingReset = s.awaitingReset :=
  (congrArg State.awaitingReset h.frame :)
theorem cyclesPerUs (h : Ran n ev s t) : t.cyclesPerUs = s.cyclesPerUs := by
  simp only [State.cyclesPerUs, h.cfg]
theorem status (h : Ran n ev s t) :
    t.status = { s.status with done := t.status.done, ovr := t.status.ovr } :=
  (congrArg State.status h.frame :)
theorem busy (h : Ran n ev s t) : t.status.busy = s.status.busy := (congrArg Status.busy h.status :)
theorem presence (h : Ran n ev s t) : t.status.presence = s.status.presence :=
  (congrArg Status.presence h.status :)
theorem found (h : Ran n ev s t) : t.status.found = s.status.found := (congrArg Status.found h.status :)
theorem cal (h : Ran n ev s t) : t.status.cal = s.status.cal := (congrArg Status.cal h.status :)
theorem calerr (h : Ran n ev s t) : t.status.calerr = s.status.calerr :=
  (congrArg Status.calerr h.status :)
theorem stuck (h : Ran n ev s t) : t.status.stuck = s.status.stuck := (congrArg Status.stuck h.status :)
theorem w (h : Ran n ev s t) :
    t.w = { s.w with step := t.w.step, timer := t.w.timer, shift := t.w.shift } :=
  (congrArg State.w h.frame :)
theorem w_cmd (h : Ran n ev s t) : t.w.cmd = s.w.cmd := (congrArg Working.cmd h.w :)
theorem w_data (h : Ran n ev s t) : t.w.data = s.w.data := (congrArg Working.data h.w :)
theorem w_hold (h : Ran n ev s t) : t.w.hold = s.w.hold := (congrArg Working.hold h.w :)
theorem w_selrom (h : Ran n ev s t) : t.w.selrom = s.w.selrom := (congrArg Working.selrom h.w :)
theorem w_tsample (h : Ran n ev s t) : t.w.tsample = s.w.tsample := (congrArg Working.tsample h.w :)
theorem w_buf (h : Ran n ev s t) : t.w.buf = s.w.buf := (congrArg Working.buf h.w :)
theorem w_lastZero (h : Ran n ev s t) : t.w.lastZero = s.w.lastZero := (congrArg Working.lastZero h.w :)
theorem w_famZero (h : Ran n ev s t) : t.w.famZero = s.w.famZero := (congrArg Working.famZero h.w :)
theorem w_n (h : Ran n ev s t) : t.w.n = s.w.n := (congrArg Working.n h.w :)
theorem w_crc (h : Ran n ev s t) : t.w.crc = s.w.crc := (congrArg Working.crc h.w :)
theorem w_cal (h : Ran n ev s t) : t.w.cal = s.w.cal := (congrArg Working.cal h.w :)

theorem saw (h : Ran n ev s t) {a : ReadAnswer} (ha : t.now < a.edge) (k : Saw t a) : Saw s a := by
  obtain ⟨k1, k2, k3⟩ := k
  rw [← h.bits (a.edge - 1) (by omega)] at k3
  refine ⟨fun hr => (k1 hr).trans (statusWord_masked h.status), fun h1 h2 => ?_, k3⟩
  rw [k2 h1 h2]
  have hs : t.search = s.search := h.search
  generalize regAt a.word = r at h1 h2
  cases r
  case status => exact absurd rfl h1
  case config => exact absurd rfl h2
  all_goals simp only [State.readReg, h.data, h.tsample, h.latency, h.selRomLo, h.selRomHi, hs,
    h.crc8, h.crc16, h.cfg, State.hwcfgWord]

theorem refl (s : State) : Ran 0 [] s s where
  now := rfl
  wave := rfl
  edges := by simp
  frame := rfl
  done := id
  passive := fun _ => rfl
  noReset := id
  noWrites := fun h => ⟨h, rfl, rfl⟩
  bits := fun _ _ => rfl
  port := (restCycles_zero _).symm
  timely := id
  reads := ⟨[], rfl, by simp⟩

/-- What happened before and what happened after make what happened. -/
theorem trans (h : Ran n ev s t) (k : Ran m ev' t u) : Ran (n + m) (ev' ++ ev) s u where
  now := by rw [k.now, h.now, Nat.add_assoc]
  wave := by rw [k.wave, h.wave, List.append_assoc]
  edges := by
    intro e he
    have h1 := h.now
    have h2 := k.now
    rcases List.mem_append.1 he with he | he
    · have := k.edges e he; omega
    · have := h.edges e he; omega
  frame := by
    have h1 := h.frame
    have h2 := k.frame
    rw [h1] at h2
    exact h2
  done := fun hd => h.done (k.done hd)
  passive := fun hp => by
    have h1 := h.passive hp
    rw [k.passive (by rw [h1]; exact hp), h1]
  noReset := fun hn => k.noReset (h.noReset hn)
  noWrites := fun hn => by
    obtain ⟨h1, h2, h3⟩ := h.noWrites hn
    obtain ⟨k1, k2, k3⟩ := k.noWrites h1
    exact ⟨k1, k2.trans h2, k3.trans h3⟩
  bits := fun last hl =>
    (h.bits last ((Nat.le_add_right _ _).trans (k.now ▸ hl))).trans (k.bits last hl)
  port := by rw [restCycles_add, ← h.port, k.port]
  timely := fun ht => k.timely (h.timely ht)
  reads := by
    obtain ⟨l1, e1, c1, a1⟩ := h.reads
    obtain ⟨l2, e2, c2, a2⟩ := k.reads
    have n1 := h.now
    have n2 := k.now
    refine ⟨l2 ++ l1, by rw [e2, e1, List.append_assoc], fun last hl => ?_, fun a ha => ?_⟩
    · rw [c1 last (by omega), c2 last hl, List.map_append, List.reverse_append, List.append_assoc]
    rcases List.mem_append.1 ha with ha | ha
    · obtain ⟨b1, b2, b3, b4⟩ := a2 a ha
      exact ⟨by omega, b2, h.saw b1 b3, fun hq ht => b4 hq (h.timely ht)⟩
    · obtain ⟨b1, b2, b3, b4⟩ := a1 a ha
      exact ⟨b1, by omega, b3, fun hq ht => by
        rw [b4 hq ht, k.wave, padsBefore_append fun e he => b2.trans (k.edges e he).1]⟩

/-- `Ran` with its numbers rewritten. -/
theorem of_eq (h : Ran n ev s t) (hn : n = m) (he : ev = ev') : Ran m ev' s t := hn ▸ he ▸ h

end Ran

/-- `t` is right after a reset edge that cut a command short which was in `s`
(70_reset_and_hazards.md R208): the block is as after any reset, the line has just been released. -/
structure CutShort (s t : State) : Prop where
  frame : t = { State.resetFor s.cfg with
    now := t.now, wave := t.wave, port := t.port, reads := t.reads, env := t.env }
  later : s.now < t.now
  released : t.wave.head? = some ⟨t.now, Pads.released⟩
  wave : s.wave <:+ t.wave
  asked : ¬NoReset s
  timely : s.Timely → t.Timely

theorem CutShort.after {n : Nat} {ev : List PadEvent} {s t u : State} (h : Ran n ev s t)
    (k : CutShort t u) : CutShort s u where
  frame := by have := k.frame; rw [h.cfg] at this; exact this
  later := by have := h.now; have := k.later; omega
  released := k.released
  wave := by
    obtain ⟨l, hl⟩ := k.wave
    exact ⟨l ++ ev, by rw [List.append_assoc, ← h.wave, hl]⟩
  asked := fun hn => k.asked (h.noReset hn)
  timely := fun ht => k.timely (h.timely ht)

/-- A piece `m` of a command that takes `n` cycles, makes the pad events `ev` and returns something of
which `Q` holds, followed by `f`. -/
theorem ends_then {α β : Type} {s : State} {m : Run α} {f : α → Run β} {n : Nat}
    {ev : List PadEvent} {P : α → State → Prop} {Q : β → State → Prop} {R : State → Prop}
    (h : m.Ends s (fun a t => Ran n ev s t ∧ P a t) (CutShort s))
    (hR : ∀ t, CutShort s t → R t)
    (k : ∀ a t, Ran n ev s t → P a t → (f a).Ends t Q R) : (m >>= f).Ends s Q R :=
  (ends_bind m f).2 (h.mono (fun a t ht => k a t ht.1 ht.2) hR)

/-! ### The port while busy -/

/-- What a host access does to a busy block: STATUS's DONE and OVR, CONFIG.IE and the record of answers,
and no more (20_memory.md R72, R79). -/
theorem hostAccess_busy {s : State} (hb : s.status.busy = true) (a : Access) :
    s.hostAccess a = { s with
      status := { s.status with
        done := (s.hostAccess a).status.done, ovr := (s.hostAccess a).status.ovr }
      ie := (s.hostAccess a).ie, reads := (s.hostAccess a).reads }
    ∧ ((s.hostAccess a).status.done = true → s.status.done = true)
    ∧ (a.isWrite = false → (s.hostAccess a).ie = s.ie ∧ (s.hostAccess a).status.ovr = s.status.ovr)
    ∧ (s.hostAccess a).hostBits = (match a with
        | .read _ => s.hostBits
        | .write word v => s.hostBits.write s.cfg.hasCrc16 (word, v))
    ∧ ∃ new, (s.hostAccess a).reads = new ++ s.reads
      ∧ new.map ReadAnswer.asked = (match a with
        | .read word => [(s.now, word)]
        | .write _ _ => [])
      ∧ ∀ b ∈ new, b.edge = s.now ∧ b.value = s.readReg (regAt b.word) := by
  cases a with
  | read x =>
    exact ⟨rfl, id, fun _ => ⟨rfl, rfl⟩, rfl, [⟨s.now, x, s.readReg (regAt x)⟩], rfl, rfl, by simp⟩
  | write x v =>
    refine and_assoc.1 (and_assoc.1 ⟨and_assoc.2 ?_, ?_, [], ?_, rfl, by simp⟩)
    case refine_2 =>
      simp only [State.hostAccess, HostBits.write, State.hostBits]
      cases hr : regAt x <;>
        simp only [State.writeReg, State.dropWrite, hb, if_true, Status.clearOnes]
      cases s.cfg.hasCrc16 <;> simp
    case refine_3 =>
      simp only [State.hostAccess]
      cases hr : regAt x <;> simp only [State.writeReg, State.dropWrite] <;> (repeat' split) <;> rfl
    simp only [State.hostAccess, Access.isWrite]
    rcases s with ⟨⟨⟩⟩
    cases hb
    cases hr : regAt x
    case crc16 => simp only [State.writeReg, State.dropWrite, if_true]; split <;> simp
    all_goals simp +contextual [State.writeReg, State.dropWrite, Status.clearOnes]

/-- A port cycle that falls into a wait, without `rst_n`: one or more cycles pass. -/
theorem nextPortCycle_ran {s : State} {c : PortCycle} {rest : List PortCycle} {left : Nat}
    (hb : s.status.busy = true) (hp : s.port = c :: rest) (hc : c.rst = false) :
    Ran (c.gap + 1) [] s (s.nextPortCycle c rest left)
      ∧ (s.nextPortCycle c rest left).port = rest
      ∧ (s.nextPortCycle c rest left).pads = s.pads
      ∧ (s.nextPortCycle c rest left).env = s.env
      ∧ (s.nextPortCycle c rest left).w.shift = s.w.shift := by
  have hrest : NoReset s → ∀ d ∈ rest, d.rst = false := fun h d hd =>
    h d (by rw [hp]; exact List.mem_cons_of_mem _ hd)
  have hwrest : NoWrites s → ∀ d ∈ rest, d.access.any Access.isWrite = false := fun h d hd =>
    h d (by rw [hp]; exact List.mem_cons_of_mem _ hd)
  have hport : ∀ {p : List PortCycle}, p = rest → p = restCycles s.port (c.gap + 1) := fun e => by
    rw [e, hp, restCycles, if_pos (Nat.lt_succ_self _), Nat.sub_self, restCycles_zero]
  simp only [State.nextPortCycle, State.portEdge, hc, Bool.false_eq_true, if_false]
  cases ha : c.access with
  | none =>
    exact ⟨⟨rfl, rfl, by simp, rfl, id, fun _ => rfl, hrest, fun h => ⟨hwrest h, rfl, rfl⟩,
      fun last hl => by rw [State.hostBitsAt, hp, writeCycles, if_pos hl, ha]; rfl, hport rfl,
      fun h => h.later rfl rfl (Nat.le_add_right _ _), [], rfl,
      fun last hl => by rw [hp, readCycles, if_pos hl, ha]; rfl, by simp⟩, rfl, rfl, rfl, rfl⟩
  | some a =>
    obtain ⟨hf, hd, hw, hbits, new, hr, hq, hv⟩ := hostAccess_busy (s := { s with
      now := s.now + (c.gap + 1), port := rest, w := { s.w with timer := left } }) hb a
    simp only
    generalize State.hostAccess _ a = t at hf hd hw hbits hr
    refine ⟨⟨?_, ?_, by simp, ?_, hd, fun _ => ?_, ?_, fun h => ⟨?_, ?_⟩, fun last hl => ?_, hport ?_,
      fun h => h.later ?_ ?_ ?_, new, hr, fun last hl => ?_, fun b hb => ?_⟩, ?_, ?_, ?_, ?_⟩
    · rw [hf]
    · rw [hf]; rfl
    · rw [hf]
    · rw [hf]
    · intro h; rw [hf]; exact hrest h
    · rw [hf]; exact hwrest h
    · exact hw (by have := h c (by rw [hp]; exact List.mem_cons_self); rw [ha] at this; exact this)
    · have hl' : s.now + (c.gap + 1) ≤ last := by rw [hf] at hl; exact hl
      rw [State.hostBitsAt, State.hostBitsAt, hbits, hp, writeCycles, if_pos hl', ha, hf]
      cases a <;> rfl
    · rw [hf]
    · rw [hf]
    · rw [hf]
    · rw [hf]; exact Nat.le_add_right _ _
    · have hl' : s.now + (c.gap + 1) ≤ last := by rw [hf] at hl; exact hl
      rw [hp, readCycles, if_pos hl', ha, hq, hf]
      cases a <;> rfl
    · obtain ⟨he, hval⟩ := hv b hb
      have e : ∀ r, State.readReg { s with
          now := s.now + (c.gap + 1), port := rest, w := { s.w with timer := left } } r
          = s.readReg r := fun r => by cases r <;> rfl
      rw [e] at hval
      have hn : t.now = s.now + (c.gap + 1) := by rw [hf]
      have he' : b.edge = s.now + (c.gap + 1) := he
      have hlast : s.hostBitsAt (b.edge - 1) = s.hostBits := by
        rw [State.hostBitsAt, hp, writeCycles, if_neg (by omega)]; rfl
      refine ⟨by omega, by omega, ⟨fun hq => by rw [hval, hq], fun _ _ => hval, ?_, ?_⟩, ?_⟩
      · intro hq; rw [hval, hq, hlast]; exact ⟨(statusWord_live s).1, (statusWord_live s).2.1⟩
      · intro hq; rw [hval, hq, hlast]; rfl
      · intro hq ht
        rw [hval, hq, show t.wave = s.wave by rw [hf], ← ht.pads_at (by omega)]
        exact (statusWord_live s).2.2
    all_goals rw [hf]

/-- A port cycle with `rst_n` low cuts the command short. -/
theorem nextPortCycle_cut {s : State} {c : PortCycle} {rest : List PortCycle} {left : Nat}
    (hp : s.port = c :: rest) (hc : c.rst = true) : CutShort s (s.nextPortCycle c rest left) := by
  have asked : ¬NoReset s := fun h => by
    have := h c (by rw [hp]; exact List.mem_cons_self)
    rw [hc] at this; exact absurd this (by decide)
  have key : ∀ t : State, t.cfg = s.cfg → t.now = s.now + (c.gap + 1) → t.wave = s.wave →
      CutShort s t.resetEdge := fun t h1 h2 h3 =>
    ⟨by rw [← h1]; rfl, by rw [State.resetEdge_now, h2]; omega, by simp,
      by rw [State.resetEdge_wave, h3]; exact List.suffix_cons _ _, asked,
      fun h => h.event (p := Pads.released) rfl (by rw [State.resetEdge_wave, h3]; rfl)
        (by rw [State.resetEdge_now]; omega)⟩
  simp only [State.nextPortCycle, State.portEdge, hc, if_true]
  cases c.access with
  | none => exact key _ rfl rfl rfl
  | some a =>
    cases a with
    | read x => exact key _ rfl rfl rfl
    | write x v => exact key _ rfl rfl rfl

/-! ### Time -/

theorem passCycles_ends (l : List PortCycle) :
    ∀ (n : Nat) (s : State), s.status.busy = true → s.port = l →
      (passCycles l n).Ends s
        (fun _ t => Ran n [] s t ∧ t.pads = s.pads ∧ t.env = s.env ∧ t.w.shift = s.w.shift)
        (CutShort s) := by
  induction l with
  | nil =>
    intro n s _ hp
    exact ⟨⟨rfl, rfl, by simp, rfl, id, fun _ => rfl, fun _ => by simp [NoReset],
      fun _ => ⟨by simp [NoWrites], rfl, rfl⟩,
      fun last _ => by rw [State.hostBitsAt, hp]; rfl, by rw [hp]; rfl,
      fun h => h.later rfl rfl (Nat.le_add_right _ _), [], rfl,
      fun last _ => by rw [hp]; rfl, by simp⟩, rfl, rfl, rfl⟩
  | cons c rest ih =>
    intro n s hb hp
    unfold Run.Ends passCycles
    by_cases hn : c.gap < n
    · simp only [hn, if_true]
      cases hc : c.rst with
      | true => exact nextPortCycle_cut hp hc
      | false =>
        simp only [Bool.false_eq_true, if_false]
        obtain ⟨h1, h2, h3, h4, h5⟩ :=
          nextPortCycle_ran (left := n - (c.gap + 1)) hb hp hc
        have := ih (n - (c.gap + 1)) _ (h1.busy.trans hb) h2
        refine Run.Ends.mono this (fun _ t ht => ?_) (fun t ht => ht.after h1)
        obtain ⟨k1, k2, k3, k4⟩ := ht
        exact ⟨(h1.trans k1).of_eq (by omega) rfl, k2.trans h3, k3.trans h4, k4.trans h5⟩
    · simp only [hn, if_false]
      refine ⟨⟨rfl, rfl, by simp, rfl, id, fun _ => rfl, fun h => ?_, fun h => ⟨?_, rfl, rfl⟩,
        fun last _ => ?_, by rw [hp, restCycles, if_neg hn]; rfl,
        fun h => h.later rfl rfl (Nat.le_add_right _ _), [], rfl, fun last _ => ?_,
        by simp⟩, rfl, rfl, rfl⟩
      rotate_left 2
      · rw [State.hostBitsAt, hp]
        change _ = (writeCycles ({ c with gap := c.gap - n } :: rest) (s.now + n) last).foldl _ _
        rw [writeCycles, writeCycles, show s.now + n + (c.gap - n + 1) = s.now + (c.gap + 1) by omega]
        rfl
      · rw [hp]
        change _ = readCycles ({ c with gap := c.gap - n } :: rest) (s.now + n) last
        rw [readCycles, readCycles, show s.now + n + (c.gap - n + 1) = s.now + (c.gap + 1) by omega]
      · intro d hd
        rcases List.mem_cons.1 hd with hd | hd
        · rw [hd]; exact h c (by rw [hp]; exact List.mem_cons_self)
        · exact h d (by rw [hp]; exact List.mem_cons_of_mem _ hd)
      · intro d hd
        rcases List.mem_cons.1 hd with hd | hd
        · rw [hd]; exact h c (by rw [hp]; exact List.mem_cons_self)
        · exact h d (by rw [hp]; exact List.mem_cons_of_mem _ hd)

/-- Counting a step is no event. -/
theorem countStep_ran (s : State) : Ran 0 [] s s.countStep where
  now := rfl
  wave := rfl
  edges := by simp
  frame := rfl
  done := id
  passive := fun _ => rfl
  noReset := id
  noWrites := fun h => ⟨h, rfl, rfl⟩
  bits := fun _ _ => rfl
  port := (restCycles_zero _).symm
  timely := id
  reads := ⟨[], rfl, by simp⟩

/-- `n` cycles of a busy block: the pad outputs and the bus stay (00_scope.md R17). -/
theorem cycles_ends {s : State} (hb : s.status.busy = true) (n : Nat) :
    (cycles n).Ends s
      (fun _ t => Ran n [] s t ∧ t.pads = s.pads ∧ t.env = s.env ∧ t.w.shift = s.w.shift)
      (CutShort s) := by
  have := passCycles_ends s.port n s.countStep hb rfl
  refine Run.Ends.mono (m := passCycles s.port n) this (fun _ t ht => ?_)
    (fun t ht => ht.after (countStep_ran s))
  exact ⟨((countStep_ran s).trans ht.1).of_eq (Nat.zero_add n) rfl, ht.2.1, ht.2.2.1, ht.2.2.2⟩

theorem tick_ends {s : State} (hb : s.status.busy = true) :
    tick.Ends s
      (fun _ t => Ran 1 [] s t ∧ t.pads = s.pads ∧ t.env = s.env ∧ t.w.shift = s.w.shift)
      (CutShort s) := cycles_ends hb 1

theorem waitUs_ends {s : State} (hb : s.status.busy = true) (n : Nat) :
    (waitUs n).Ends s
      (fun _ t => Ran (n * s.cyclesPerUs) [] s t ∧ t.pads = s.pads ∧ t.env = s.env
        ∧ t.w.shift = s.w.shift)
      (CutShort s) := by
  simp only [waitUs, ends_bind, ends_state]
  exact cycles_ends hb _

/-! ### The line primitives -/

theorem BusEnv.onPads_passive {env : BusEnv} (h : env.passive = true) (c t : Nat) (p : Pads) :
    env.onPads c t p = env := by
  cases env with
  | free d => rfl
  | lows l => rfl
  | devices d => simp [BusEnv.passive] at h

/-- A line primitive: one pad event at the current edge (20_memory.md R82). -/
theorem drive_ran (s : State) (p : Pads) :
    Ran 0 [⟨s.now, p⟩] s (s.countStep.setPads p) where
  now := rfl
  wave := rfl
  edges := by simp
  frame := rfl
  done := id
  passive := fun h => BusEnv.onPads_passive h _ _ _
  noReset := id
  noWrites := fun h => ⟨h, rfl, rfl⟩
  bits := fun _ _ => rfl
  port := (restCycles_zero _).symm
  timely := fun h => h.event rfl rfl (Nat.le_refl _)
  reads := ⟨[], rfl, by simp⟩

@[simp] theorem ends_drive (p : Pads) {s : State} {Q : Unit → State → Prop} {R : State → Prop} :
    (drive p).Ends s Q R ↔ Q () (s.countStep.setPads p) := Iff.rfl

@[simp] theorem ends_sample {s : State} {Q : Bool → State → Prop} {R : State → Prop} :
    sample.Ends s Q R ↔ Q (s.lineLevel (s.now - 2)) s.countStep := Iff.rfl

/-- `begin_line()` (40_bus_transactions.md R111). -/
theorem beginLine_ends (s : State) :
    beginLine.Ends s
      (fun _ t => Ran 0 (holdEndEvents s s.now) s t
        ∧ t.pads.pu = false ∧ t.pads.oeLow = (s.pads.oeLow && !s.pads.pu)
        ∧ (s.pads.pu = false → t = s))
      (CutShort s) := by
  simp only [beginLine, ends_bind, ends_state, ends_ite, release, ends_drive, ends_pure]
  cases hp : s.pads.pu with
  | true =>
    refine ⟨fun _ => ⟨?_, rfl, by simp [Pads.released], by simp⟩, by simp⟩
    simpa [holdEndEvents, hp] using drive_ran s Pads.released
  | false => simpa [holdEndEvents, hp] using Ran.refl s

/-! ### The level at an edge -/

theorem historyBefore_append {ev wave : List PadEvent} {u : Nat} (h : ∀ e ∈ ev, u ≤ e.edge) :
    historyBefore (ev ++ wave) u = historyBefore wave u := by
  have : ev.filter (fun e => decide (e.edge < u)) = [] := by
    rw [List.filter_eq_nil_iff]
    intro e he
    have := h e he
    simp; omega
  simp [historyBefore, List.filter_append, this]

/-- What happens from an edge on does not change the level at it: on a passive bus, `L(u)` is settled
once the clock is at `u` (20_memory.md R84). -/
theorem Ran.lineLevel {n : Nat} {ev : List PadEvent} {s t : State} (h : Ran n ev s t)
    (hp : s.env.passive = true) {u : Nat} (hu : u ≤ s.now) : t.lineLevel u = s.lineLevel u := by
  have hev : ∀ e ∈ ev, u ≤ e.edge := fun e he => hu.trans (h.edges e he).1
  simp only [State.lineLevel, h.passive hp, h.wave, padsBefore_append hev]
  cases he : s.env with
  | free d => simp only [BusEnv.level, historyBefore_append hev]
  | lows l => rfl
  | devices d => rw [he] at hp; simp [BusEnv.passive] at hp

end Sys2Proof.Machine
end

