-- ==== Sys2Proof/Laws/Slots.lean ====
section
/-! SUPPORT. One spec lemma per slot routine (40_bus_transactions.md R112 to R116): its length, its pad
events, what it returns, and what it leaves alone. -/

namespace Sys2Proof.Machine

theorem drive_ends (s : State) (p : Pads) :
    (drive p).Ends s
      (fun _ t => Ran 0 [⟨s.now, p⟩] s t ∧ t.pads = p ∧ t.w.shift = s.w.shift) (CutShort s) :=
  ⟨drive_ran s p, rfl, rfl⟩

theorem sample_ends (s : State) :
    sample.Ends s
      (fun b t => Ran 0 [] s t ∧ b = s.lineLevel (s.now - 2) ∧ t.pads = s.pads
        ∧ t.w.shift = s.w.shift ∧ t.env = s.env) (CutShort s) :=
  ⟨countStep_ran s, rfl, rfl, rfl, rfl⟩

/-- A low pulse of `low` µs, then released for `rest` µs: a write slot (40_bus_transactions.md R112). -/
theorem pulse_ends {s : State} (hb : s.status.busy = true) (low rest : Nat) :
    (do driveLow; waitUs low; release; waitUs rest : Run Unit).Ends s
      (fun _ t => Ran ((low + rest) * s.cyclesPerUs)
          [⟨s.now + low * s.cyclesPerUs, Pads.released⟩, ⟨s.now, Pads.low⟩] s t
        ∧ t.pads = Pads.released ∧ t.w.shift = s.w.shift) (CutShort s) := by
  refine ends_then (drive_ends s Pads.low) (fun _ => id) fun _ t1 h1 p1 => ?_
  refine ends_then (waitUs_ends (h1.busy.trans hb) low) (fun t ht => ht.after h1)
    fun _ t2 h2 p2 => ?_
  refine ends_then (drive_ends t2 Pads.released) (fun t ht => (ht.after h2).after h1)
    fun _ t3 h3 p3 => ?_
  have h123 := (h1.trans h2).trans h3
  refine (waitUs_ends (h123.busy.trans hb) rest).mono (fun _ t4 h4 => ?_)
    (fun t ht => ht.after h123)
  refine ⟨(h123.trans h4.1).of_eq ?_ ?_, h4.2.1.trans p3.1, ?_⟩
  · rw [h123.cyclesPerUs, h1.cyclesPerUs, Nat.add_mul]; omega
  · have := h1.now
    have := h2.now
    simp only [List.nil_append, List.cons_append]
    rw [h2.now, h1.now, h1.cyclesPerUs, Nat.add_zero]
  · rw [h4.2.2.2, p3.2, p2.2.2, p1.2]

theorem writeSlot_ends {s : State} (hb : s.status.busy = true) (b : Bool) :
    (writeSlot b).Ends s
      (fun _ t => Ran (61 * s.cyclesPerUs) (slotEvents s.cyclesPerUs s.now b).reverse s t
        ∧ t.pads = Pads.released ∧ t.w.shift = s.w.shift) (CutShort s) := by
  cases b with
  | true => exact pulse_ends hb 1 60
  | false => exact pulse_ends hb 60 1

theorem BusEnv.announceRead_passive {env : BusEnv} (h : env.passive = true) :
    env.announceRead = env := by
  cases env with
  | free d => rfl
  | lows l => rfl
  | devices d => simp [BusEnv.passive] at h

theorem announceRead_ends (s : State) :
    (Run.change State.announceRead).Ends s
      (fun _ t => Ran 0 [] s t ∧ t.pads = s.pads ∧ t.w.shift = s.w.shift) (CutShort s) :=
  ⟨{ now := rfl, wave := rfl, edges := by simp, frame := rfl, done := id
     passive := BusEnv.announceRead_passive, noReset := id, noWrites := fun h => ⟨h, rfl, rfl⟩
     bits := fun _ _ => rfl, port := (restCycles_zero _).symm, timely := id, reads := ⟨[], rfl, by simp⟩ }, rfl, rfl⟩

/-- A read slot at any sample offset: the pad events of a write-1 slot, and on a passive bus the level at
the sample point (40_bus_transactions.md R113). -/
theorem readSlot_ran {s : State} (hb : s.status.busy = true) :
    readSlot.Ends s
      (fun b t => Ran ((1 + (s.w.tsample.toNat + (60 - s.w.tsample.toNat))) * s.cyclesPerUs)
          (slotEvents s.cyclesPerUs s.now true).reverse s t
        ∧ t.pads = Pads.released ∧ t.w.shift = s.w.shift
        ∧ (s.env.passive = true → b = t.lineLevel (s.slotLevelEdge s.now))) (CutShort s) := by
  simp only [readSlot]
  rw [ends_bind, ends_state]
  refine ends_then (announceRead_ends s) (fun _ => id) fun _ t0 h0 p0 => ?_
  refine ends_then (drive_ends t0 Pads.low) (fun t ht => ht.after h0) fun _ t1 h1' p1 => ?_
  have h1 := h0.trans h1'
  refine ends_then (waitUs_ends (h1.busy.trans hb) 1) (fun t ht => ht.after h1) fun _ t2 h2 p2 => ?_
  refine ends_then (drive_ends t2 Pads.released) (fun t ht => (ht.after h2).after h1)
    fun _ t3 h3 p3 => ?_
  have h123 := (h1.trans h2).trans h3
  refine ends_then (waitUs_ends (h123.busy.trans hb) s.w.tsample.toNat)
    (fun t ht => ht.after h123) fun _ t4 h4 p4 => ?_
  have h14 := h123.trans h4
  refine ends_then (sample_ends t4) (fun t ht => ht.after h14) fun b t5 h5 p5 => ?_
  have h15 := h14.trans h5
  refine ends_then (waitUs_ends (h15.busy.trans hb) (61 - 1 - s.w.tsample.toNat))
    (fun t ht => ht.after h15) fun _ t6 h6 p6 => ?_
  have h16 := h15.trans h6
  rw [ends_pure]
  have c1 := h123.cyclesPerUs
  have c2 := h15.cyclesPerUs
  have c3 := h1.cyclesPerUs
  refine ⟨h16.of_eq ?_ ?_, ?_, ?_, ?_⟩
  · rw [c2, c1, c3]; ring
  · simp only [List.nil_append, List.cons_append, slotEvents, List.reverse_cons,
      List.reverse_nil, if_true]
    rw [h2.now, h1.now, c3, h0.now]; rfl
  · rw [p6.1, p5.2.1, p4.1, p3.1]
  · rw [p6.2.2, p5.2.2.1, p4.2.2, p3.2, p2.2.2, p1.2, p0.2]
  · intro hp
    have hp4 : t4.env.passive = true := by rw [h14.passive hp]; exact hp
    have hp5 : t5.env.passive = true := by rw [h15.passive hp]; exact hp
    have e : s.slotLevelEdge s.now = t4.now - 2 := by
      rw [h14.now, c1, c3]
      simp only [State.slotLevelEdge]
      have : (1 + s.w.tsample.toNat) * s.cyclesPerUs
          = 0 + 1 * s.cyclesPerUs + 0 + s.w.tsample.toNat * s.cyclesPerUs := by ring
      omega
    have n5 := h5.now
    rw [p5.1, e, h6.lineLevel hp5 (by omega), h5.lineLevel hp4 (by omega)]

/-- A read slot: 61 µs (40_bus_transactions.md R113). -/
theorem readSlot_ends {s : State} (hb : s.status.busy = true) (hts : s.w.tsample.toNat ≤ 60) :
    readSlot.Ends s
      (fun b t => Ran (61 * s.cyclesPerUs) (slotEvents s.cyclesPerUs s.now true).reverse s t
        ∧ t.pads = Pads.released ∧ t.w.shift = s.w.shift
        ∧ (s.env.passive = true → b = t.lineLevel (s.slotLevelEdge s.now))) (CutShort s) :=
  (readSlot_ran hb).mono
    (fun _ t h => ⟨h.1.of_eq (by rw [Nat.add_sub_cancel' hts]) rfl, h.2⟩) (fun _ => id)

/-- One write slot per listed bit position. -/
theorem txBits_ends (v : Byte) (is : List Nat) : ∀ {s : State}, s.status.busy = true →
    (txBits v is).Ends s
      (fun _ t => Ran (61 * s.cyclesPerUs * is.length)
          (slotsEvents s.cyclesPerUs s.now (is.map v.getLsbD)).reverse s t
        ∧ (s.pads = Pads.released ∨ is ≠ [] → t.pads = Pads.released)
        ∧ t.w.shift = s.w.shift) (CutShort s) := by
  induction is with
  | nil =>
    intro s _
    exact ⟨Ran.refl s, by simp, rfl⟩
  | cons i is ih =>
    intro s hb
    refine ends_then (writeSlot_ends hb (v.getLsbD i)) (fun _ => id) fun _ t1 h1 p1 => ?_
    refine (ih (h1.busy.trans hb)).mono (fun _ t2 h2 => ?_) (fun t ht => ht.after h1)
    refine ⟨(h1.trans h2.1).of_eq ?_ ?_, fun _ => h2.2.1 (.inl p1.1), h2.2.2.trans p1.2⟩
    · rw [h1.cyclesPerUs, List.length_cons]; ring
    · simp only [List.map_cons, slotsEvents, List.reverse_append, h1.cyclesPerUs, h1.now]

theorem setShift_ran (s : State) (v : Byte) : Ran 0 [] s (s.setShift v) :=
  ⟨rfl, rfl, by simp, rfl, id, fun _ => rfl, id, fun h => ⟨h, rfl, rfl⟩, fun _ _ => rfl,
    (restCycles_zero _).symm, fun h => h, [], rfl, by simp⟩

theorem txByte_ends {s : State} (hb : s.status.busy = true) (v : Byte) :
    (txByte v).Ends s
      (fun _ t => Ran (488 * s.cyclesPerUs)
          (slotsEvents s.cyclesPerUs s.now (lineBits v)).reverse s t
        ∧ t.pads = Pads.released ∧ t.w.shift = v) (CutShort s) := by
  have h0 := setShift_ran s v
  simp only [txByte, ends_bind, ends_change]
  refine (txBits_ends v byteBits (s := s.setShift v) hb).mono (fun _ t h => ?_)
    (fun t ht => ht.after h0)
  refine ⟨(h0.trans h.1).of_eq ?_ (by rw [List.append_nil]; rfl), h.2.1 (.inr (by simp)), h.2.2⟩
  rw [h0.cyclesPerUs]
  change 0 + 61 * s.cyclesPerUs * 8 = 488 * s.cyclesPerUs
  ring

/-! ### Receiving -/

theorem setByteBit_getLsbD (r : Byte) (i : Nat) (b : Bool) (j : Nat) (hi : i < 8) :
    (setByteBit r i b).getLsbD j = if j = i then b else r.getLsbD j := by
  unfold setByteBit
  by_cases hj : j < 8
  · cases b <;> by_cases h : j = i <;>
      simp [hj, h, hi] <;> omega
  · have h1 : r.getLsbD j = false := BitVec.getLsbD_of_ge _ _ (by omega)
    have h2 : j ≠ i := by omega
    rw [if_neg h2, h1]
    exact BitVec.getLsbD_of_ge _ _ (by omega)

theorem shiftIn_ran (s : State) (i : Nat) (b : Bool) : Ran 0 [] s (s.shiftIn i b) :=
  ⟨rfl, rfl, by simp, rfl, id, fun _ => rfl, id, fun h => ⟨h, rfl, rfl⟩, fun _ _ => rfl,
    (restCycles_zero _).symm, fun h => h, [], rfl, by simp⟩

/-- One read slot per listed bit position: on a passive bus each listed bit of the shift register is the
level at its slot's sample point, and the other bits stay. -/
theorem rxBits_ends (is : List Nat) : ∀ {s : State}, s.status.busy = true →
    s.w.tsample.toNat ≤ 60 → is.Nodup → (∀ i ∈ is, i < 8) →
    (rxBits is).Ends s
      (fun _ t => Ran (61 * s.cyclesPerUs * is.length)
          (slotsEvents s.cyclesPerUs s.now (List.replicate is.length true)).reverse s t
        ∧ (s.pads = Pads.released ∨ is ≠ [] → t.pads = Pads.released)
        ∧ (∀ j, j ∉ is → t.w.shift.getLsbD j = s.w.shift.getLsbD j)
        ∧ (s.env.passive = true → ∀ k (h : k < is.length), t.w.shift.getLsbD is[k]
            = t.lineLevel (s.slotLevelEdge (s.now + 61 * s.cyclesPerUs * k)))) (CutShort s) := by
  induction is with
  | nil =>
    intro s _ _ _ _
    exact ⟨Ran.refl s, by simp, by simp, by simp⟩
  | cons i is ih =>
    intro s hb hts hd hlt
    have hi : i < 8 := hlt i List.mem_cons_self
    refine ends_then (readSlot_ends hb hts) (fun _ => id) fun b t1 h1 p1 => ?_
    rw [ends_bind, ends_change]
    have h2 := h1.trans (shiftIn_ran t1 i b)
    have hp2 : (t1.shiftIn i b).pads = Pads.released := p1.1
    have hs2 : (t1.shiftIn i b).w.shift = setByteBit s.w.shift i b := by
      rw [State.shiftIn_w, p1.2.1]
    have hlev : s.env.passive = true →
        b = (t1.shiftIn i b).lineLevel (s.slotLevelEdge s.now) := p1.2.2
    generalize t1.shiftIn i b = t2 at h2 hp2 hs2 hlev
    have c2 := h2.cyclesPerUs
    have n2 := h2.now
    refine (ih (h2.busy.trans hb) (by rw [h2.w_tsample]; exact hts) (List.nodup_cons.1 hd).2
      (fun j hj => hlt j (List.mem_cons_of_mem _ hj))).mono (fun _ t3 h3 => ?_)
      (fun t ht => ht.after h2)
    obtain ⟨k1, k2, k3, k4⟩ := h3
    refine ⟨(h2.trans k1).of_eq ?_ ?_, fun _ => k2 (.inl hp2), ?_, ?_⟩
    · rw [c2, List.length_cons]; ring
    · rw [c2, n2]
      simp only [List.nil_append, List.length_cons, List.replicate_succ, slotsEvents,
        List.reverse_append, Nat.add_zero]
    · intro j hj
      have hji : j ≠ i := fun h => hj (by rw [h]; exact List.mem_cons_self)
      rw [k3 j (fun h => hj (List.mem_cons_of_mem _ h)), hs2, setByteBit_getLsbD _ _ _ _ hi,
        if_neg hji]
    · intro hp k hk
      have hp2' : t2.env.passive = true := by rw [h2.passive hp]; exact hp
      cases k with
      | zero =>
        rw [List.getElem_cons_zero, k3 i (List.nodup_cons.1 hd).1, hs2,
          setByteBit_getLsbD _ _ _ _ hi, if_pos rfl, Nat.mul_zero, Nat.add_zero]
        rw [k1.lineLevel hp2', ← hlev hp]
        rw [n2, State.slotLevelEdge]
        have : (1 + s.w.tsample.toNat) * s.cyclesPerUs ≤ 61 * s.cyclesPerUs :=
          Nat.mul_le_mul_right _ (by omega)
        omega
      | succ k =>
        rw [List.getElem_cons_succ, k4 hp2' k (by simpa using hk)]
        congr 1
        simp only [State.slotLevelEdge, c2, n2, h2.w_tsample, Nat.add_zero]
        congr 2
        ring

/-- `rx_byte()` (40_bus_transactions.md R115). -/
theorem rxByte_ends {s : State} (hb : s.status.busy = true) (hts : s.w.tsample.toNat ≤ 60) :
    rxByte.Ends s
      (fun r t => Ran (488 * s.cyclesPerUs)
          (slotsEvents s.cyclesPerUs s.now (List.replicate 8 true)).reverse s t
        ∧ t.pads = Pads.released
        ∧ (s.env.passive = true → ∀ i < 8, r.getLsbD i
            = t.lineLevel (s.slotLevelEdge (s.now + 61 * s.cyclesPerUs * i)))) (CutShort s) := by
  have h0 := setShift_ran s 0#8
  simp only [rxByte, ends_bind, ends_change]
  refine (rxBits_ends byteBits (s := s.setShift 0#8) hb hts (by decide) (by decide)).mono
    (fun _ t h => ?_) (fun t ht => ht.after h0)
  obtain ⟨h1, h2, h3, h4⟩ := h
  simp only [ends_state, ends_pure]
  refine ⟨(h0.trans h1).of_eq ?_ (by rw [List.append_nil]; rfl), h2 (.inr (by simp)), ?_⟩
  · rw [h0.cyclesPerUs]
    change 0 + 61 * s.cyclesPerUs * 8 = 488 * s.cyclesPerUs
    ring
  · intro hp i hi
    have := h4 hp i hi
    have hg : ∀ k (hk : k < byteBits.length), byteBits[k] = k := by decide
    rw [hg] at this
    exact this

/-! ### The bus reset -/

/-- The idle check with `left` samples to take (40_bus_transactions.md R116). -/
theorem idleCheck_ends (left : Nat) : ∀ {s : State}, s.status.busy = true →
    (idleCheck left).Ends s
      (fun b t => t.pads = s.pads ∧ t.env = s.env ∧ t.w.shift = s.w.shift ∧
        ((b = true ∧ ∃ k < left, Ran (k * s.cyclesPerUs) [] s t
            ∧ (s.env.passive = true → t.lineLevel (s.now + k * s.cyclesPerUs - 2) = true
              ∧ ∀ j < k, t.lineLevel (s.now + j * s.cyclesPerUs - 2) = false))
        ∨ (b = false ∧ Ran ((left - 1) * s.cyclesPerUs) [] s t
            ∧ (s.env.passive = true →
              ∀ j < left, t.lineLevel (s.now + j * s.cyclesPerUs - 2) = false)))) (CutShort s) := by
  induction left with
  | zero =>
    intro s _
    exact ⟨rfl, rfl, rfl, .inr ⟨rfl, (Ran.refl s).of_eq (by simp) rfl, by simp⟩⟩
  | succ left ih =>
    intro s hb
    unfold idleCheck
    refine ends_then (sample_ends s) (fun _ => id) fun b t1 h1 p1 => ?_
    obtain ⟨p1a, p1b, p1c, p1d⟩ := p1
    have n1 := h1.now
    have l1 : s.env.passive = true → t1.lineLevel (s.now - 2) = b := fun hp => by
      rw [h1.lineLevel hp (by omega), p1a]
    cases b with
    | true =>
      simp only [if_true, ends_pure]
      exact ⟨p1b, p1d, p1c, .inl ⟨trivial, 0, by omega, h1.of_eq (by simp) rfl,
        fun hp => ⟨by simpa using l1 hp, by simp⟩⟩⟩
    | false =>
      rw [if_neg (by decide)]
      by_cases hl : left = 0
      · subst hl
        rw [if_pos rfl, ends_pure]
        refine ⟨p1b, p1d, p1c, .inr ⟨rfl, h1.of_eq (by simp) rfl, fun hp j hj => ?_⟩⟩
        have : j = 0 := by omega
        subst this
        simpa using l1 hp
      · rw [if_neg hl]
        refine ends_then (waitUs_ends (h1.busy.trans hb) 1) (fun t ht => ht.after h1)
          fun _ t2 h2 p2 => ?_
        have h12 := h1.trans h2
        have c12 := h12.cyclesPerUs
        have n12 := h12.now
        rw [h1.cyclesPerUs] at n12
        refine (ih (h12.busy.trans hb)).mono (fun b t3 h3 => ?_) (fun t ht => ht.after h12)
        obtain ⟨q1, q2, q3, q4⟩ := h3
        refine ⟨q1.trans (p2.1.trans p1b), q2.trans (p2.2.1.trans p1d), q3.trans (p2.2.2.trans p1c), ?_⟩
        have edge : ∀ j, t2.now + j * t2.cyclesPerUs - 2 = s.now + (j + 1) * s.cyclesPerUs - 2 := by
          intro j; rw [c12, n12, Nat.add_mul]; omega
        have first : s.env.passive = true → ∀ {m ev}, Ran m ev t2 t3 →
            t3.lineLevel (s.now - 2) = false := fun hp m ev hr => by
          rw [(h2.trans hr).lineLevel (by rw [h1.passive hp]; exact hp) (by omega), l1 hp]
        have shift : ∀ m : Nat, (0 + 1 * t1.cyclesPerUs + m * t2.cyclesPerUs)
            = (m + 1) * s.cyclesPerUs := by
          intro m; rw [c12, h1.cyclesPerUs]; ring
        rcases q4 with ⟨rfl, k, hk, hr, hl'⟩ | ⟨rfl, hr, hl'⟩
        · refine .inl ⟨rfl, k + 1, by omega, (h12.trans hr).of_eq (shift k) (by simp), fun hp => ?_⟩
          have hp2 : t2.env.passive = true := by rw [h12.passive hp]; exact hp
          obtain ⟨a1, a2⟩ := hl' hp2
          rw [edge] at a1
          refine ⟨a1, fun j hj => ?_⟩
          cases j with
          | zero => simpa using first hp hr
          | succ j => rw [← edge]; exact a2 j (by omega)
        · refine .inr ⟨rfl, (h12.trans hr).of_eq ?_ (by simp), fun hp j hj => ?_⟩
          · rw [shift]; congr 1; omega
          · have hp2 : t2.env.passive = true := by rw [h12.passive hp]; exact hp
            cases j with
            | zero => simpa using first hp hr
            | succ j => rw [← edge]; exact hl' hp2 j (by omega)

/-- `bus_reset()` (40_bus_transactions.md R116): the line is stuck low and nothing is sent, or after an
idle check of `k` µs the pulse goes out and presence is the level at its sample, inverted. -/
theorem busReset_ends {s : State} (hb : s.status.busy = true) :
    busReset.Ends s
      (fun o t => t.w.shift = s.w.shift ∧
        ((o.stuck = false ∧ t.pads = Pads.released ∧ ∃ k < 250,
            Ran ((k + 960) * s.cyclesPerUs)
              (resetPulseEvents s.cyclesPerUs (s.now + k * s.cyclesPerUs)).reverse s t
            ∧ (s.env.passive = true →
              t.lineLevel (s.now + k * s.cyclesPerUs - 2) = true
              ∧ (∀ j < k, t.lineLevel (s.now + j * s.cyclesPerUs - 2) = false)
              ∧ o.presence = !t.lineLevel (s.now + (k + 550) * s.cyclesPerUs - 2)))
        ∨ (o = ⟨false, true⟩ ∧ t.pads = s.pads ∧ t.env = s.env ∧ Ran (249 * s.cyclesPerUs) [] s t
            ∧ (s.env.passive = true →
              ∀ j < 250, t.lineLevel (s.now + j * s.cyclesPerUs - 2) = false)))) (CutShort s) := by
  unfold busReset
  rw [ends_bind]
  refine (idleCheck_ends 250 hb).mono (fun b t1 h => ?_) (fun _ => id)
  obtain ⟨p1, p2, p3, h⟩ := h
  rcases h with ⟨rfl, k, hk, h1, l1⟩ | ⟨rfl, h1, l1⟩
  · rw [if_pos rfl]
    have c1 := h1.cyclesPerUs
    have n1 := h1.now
    refine ends_then (drive_ends t1 Pads.low) (fun t ht => ht.after h1) fun _ t2 h2 q2 => ?_
    have h12 := h1.trans h2
    refine ends_then (waitUs_ends (h12.busy.trans hb) 480) (fun t ht => ht.after h12)
      fun _ t3 h3 q3 => ?_
    have h13 := h12.trans h3
    refine ends_then (drive_ends t3 Pads.released) (fun t ht => ht.after h13) fun _ t4 h4 q4 => ?_
    have h14 := h13.trans h4
    refine ends_then (waitUs_ends (h14.busy.trans hb) 70) (fun t ht => ht.after h14)
      fun _ t5 h5 q5 => ?_
    have h15 := h14.trans h5
    refine ends_then (sample_ends t5) (fun t ht => ht.after h15) fun b t6 h6 q6 => ?_
    have h16 := h15.trans h6
    refine ends_then (waitUs_ends (h16.busy.trans hb) 410) (fun t ht => ht.after h16)
      fun _ t7 h7 q7 => ?_
    have h17 := h16.trans h7
    rw [ends_pure]
    have n3 := h13.now
    have n5 := h15.now
    have n6 := h16.now
    rw [h12.cyclesPerUs] at n3
    rw [h12.cyclesPerUs, h14.cyclesPerUs] at n5 n6
    have e960 : k * s.cyclesPerUs + 0 + 480 * s.cyclesPerUs + 0 + 70 * s.cyclesPerUs + 0
        + 410 * s.cyclesPerUs = (k + 960) * s.cyclesPerUs := by ring
    refine ⟨?_, .inl ⟨rfl, ?_, k, hk, h17.of_eq ?_ ?_, fun hp => ⟨?_, fun j hj => ?_, ?_⟩⟩⟩
    · rw [q7.2.2, q6.2.2.1, q5.2.2, q4.2, q3.2.2, q2.2, p3]
    · rw [q7.1, q6.2.1, q5.1, q4.1]
    · rw [h12.cyclesPerUs, h14.cyclesPerUs, h16.cyclesPerUs, e960]
    · simp only [List.nil_append, List.cons_append, List.append_nil, resetPulseEvents,
        List.reverse_cons, List.reverse_nil, List.cons.injEq, PadEvent.mk.injEq, and_true]
      omega
    · have hp1 : t1.env.passive = true := by rw [h1.passive hp]; exact hp
      rw [((((((h2.trans h3).trans h4).trans h5).trans h6).trans h7)).lineLevel hp1 (by omega)]
      exact (l1 hp).1
    · have hp1 : t1.env.passive = true := by rw [h1.passive hp]; exact hp
      have hjk : j * s.cyclesPerUs ≤ k * s.cyclesPerUs := Nat.mul_le_mul_right _ hj.le
      rw [((((((h2.trans h3).trans h4).trans h5).trans h6).trans h7)).lineLevel hp1 (by omega)]
      exact (l1 hp).2 j hj
    · have hp5 : t5.env.passive = true := by rw [h15.passive hp]; exact hp
      have e : s.now + (k + 550) * s.cyclesPerUs - 2 = t5.now - 2 := by
        rw [n5]
        have : (k + 550) * s.cyclesPerUs
            = k * s.cyclesPerUs + 480 * s.cyclesPerUs + 70 * s.cyclesPerUs := by ring
        omega
      rw [e, (h6.trans h7).lineLevel hp5 (by omega), q6.1]
  · rw [if_neg (by decide), ends_pure]
    exact ⟨p3, .inr ⟨rfl, p1, p2, h1, l1⟩⟩

theorem slotsEvents_append (c : Nat) (as bs : List Bool) : ∀ t0,
    slotsEvents c t0 (as ++ bs)
      = slotsEvents c t0 as ++ slotsEvents c (t0 + 61 * c * as.length) bs := by
  induction as with
  | nil => intro t0; simp [slotsEvents]
  | cons a as ih =>
    intro t0
    simp only [List.cons_append, slotsEvents, ih, List.append_assoc, List.length_cons]
    congr 3
    ring

end Sys2Proof.Machine
end

