-- ==== Sys2Proof/Laws/Commands.lean ====
section
/-! SUPPORT. How a command ends, from what its pseudocode does: the completion edge, the frame of what it
leaves alone, and the reset that can cut it short. -/

namespace Sys2Proof.Machine

variable {s t : State}

/-- A run that changed no register leaves everything `Untouched`, the completion edge included. -/
theorem Ran.untouched {n : Nat} {ev : List PadEvent} (h : Ran n ev s t) (r : ResultCode) :
    Untouched s (t.complete r) :=
  ⟨h.data, h.tsample, h.latency, h.selRomLo, h.selRomHi, h.search, h.crc8, h.crc16, h.cfg, h.presence,
    h.found, h.cal, h.calerr, h.stuck, fun hw => (h.noWrites hw).2⟩

theorem Ran.padTrace {n : Nat} {ev : List PadEvent} (h : Ran n ev.reverse s t) (r : ResultCode) :
    PadTrace s (t.complete r) ev := h.wave

/-- With no reset to come a command completes, if its pseudocode ends as wanted. -/
theorem completes_of {body : Run ResultCode} {i : Instr} {r : ResultCode} {d : Nat}
    {Q : State → Prop} (hi : exec i s = command body s) (hn : NoReset s)
    (h : Run.Ends (do tick; body) s
      (fun x t => x = r ∧ t.now = s.now + d ∧ Q (t.complete x)) (CutShort s)) :
    CompletesWith i s r d Q := by
  have := command_ends (P := fun u => NoReset s → u.status.result = r ∧ u.status.busy = false
      ∧ u.status.done = true ∧ u.now = s.now + d ∧ Q u)
    (h.mono (fun x t ht _ => ⟨ht.1, rfl, rfl, ht.2⟩) (fun t ht hn => absurd hn ht.asked))
  obtain ⟨t, ht, hQ⟩ := this
  exact ⟨t, hi.trans ht, hQ hn⟩

/-- The first cycle of a command, then its pseudocode (70_reset_and_hazards.md R221). -/
theorem tick_then {body : Run ResultCode} {Q : ResultCode → State → Prop} {R : State → Prop}
    (hb : s.status.busy = true) (hR : ∀ t, CutShort s t → R t)
    (k : ∀ t, Ran 1 [] s t → t.pads = s.pads → t.env = s.env → body.Ends t Q R) :
    Run.Ends (do tick; body) s Q R :=
  ends_then (tick_ends hb) hR fun _ t h p => k t h p.1 p.2.1

/-- A gated command whose gate is open, from its first edge on: the power hold ends, then `body`. -/
theorem line_then {body : Run ResultCode} {Q : ResultCode → State → Prop} {R : State → Prop}
    (hb : s.status.busy = true) (hR : ∀ t, CutShort s t → R t)
    (k : ∀ t, Ran 1 (holdEndEvents s s.firstEdge) s t → t.pads.pu = false →
      t.pads.oeLow = (s.pads.oeLow && !s.pads.pu) → body.Ends t Q R) :
    Run.Ends (do tick; beginLine; body) s Q R := by
  refine tick_then hb hR fun t1 h1 p1 e1 => ?_
  refine ends_then (beginLine_ends t1) (fun t ht => hR t (ht.after h1)) fun _ t2 h2 p2 => ?_
  refine k t2 ((h1.trans h2).of_eq rfl ?_) p2.1 (by rw [p2.2.1, p1])
  simp only [holdEndEvents, p1, h1.now, List.append_nil, State.firstEdge]

/-- The gate of a calibrated block is open after the first cycle. -/
theorem gate_open {body : Run ResultCode} {Q : ResultCode → State → Prop} {R : State → Prop}
    (hb : s.status.busy = true) (hc : s.status.cal = true) (h : Run.Ends (do tick; body) s Q R) : Run.Ends (do tick; gated body) s Q R := by
  rw [ends_bind] at h ⊢
  have ht := (tick_ends hb).mono (fun _ t h => h.1) (fun t h => h)
  unfold Run.Ends at h ht ⊢
  cases hm : tick s with
  | ok a t =>
    rw [hm] at h ht
    refine (ends_gated (body := body)).2 ⟨fun _ => h, fun hc' => ?_⟩
    rw [ht.cal, hc] at hc'; exact absurd hc' (by decide)
  | error e t =>
    rw [hm] at h
    exact h

end Sys2Proof.Machine
end

