-- ==== Sys2Proof/Laws/Search.lean ====
section
/-! SUPPORT. The search pass (41_rom_search.md R143 to R154) and the latency measurement (43_control.md
R180), said once: how long they take, what they leave alone, and what they compute. -/

namespace Sys2Proof.Machine

/-! ### The bits of a ROM code -/

theorem romBit_eq (r : RomCode) (n : Nat) :
    romBit r n = r.getLsbD (n - 1) := by
  have h : (n - 1) % 8 < 8 := Nat.mod_lt _ (by decide)
  simp only [romBit, romByte, BitVec.getLsbD_extractLsb', h, decide_true, Bool.true_and]
  congr 1
  omega

/-- A direction bit lands at its position and nowhere else (41_rom_search.md R149). -/
theorem romBit_setRomBit (r : RomCode) {n m : Nat} (d : Bool) (h1 : 1 ≤ n) (h2 : n ≤ 64) (k1 : 1 ≤ m)
    (k2 : m ≤ 64) : romBit (setRomBit r n d) m = if m = n then d else romBit r m := by
  rw [romBit_eq, romBit_eq, setRomBit]
  have hm : m - 1 < 64 := by omega
  by_cases h : m = n
  · subst h
    cases d <;> simp [hm]
  · have : m - 1 ≠ n - 1 := by omega
    have this2 : m - 1 < n - 1 ∨ ¬(m - 1 - (n - 1) = 0) := by omega
    cases d <;> simp [h, hm] <;> omega

/-- Two ROM codes with the same 64 bits are the same. -/
theorem rom_ext {a b : RomCode} (h : ∀ n, 1 ≤ n → n ≤ 64 → romBit a n = romBit b n) : a = b := by
  apply BitVec.eq_of_getLsbD_eq
  intro i hi
  have := h (i + 1) (by omega) (by omega)
  rw [romBit_eq, romBit_eq] at this
  exact this

@[simp] theorem romOf_split (r : RomCode) : romOf (romHiOf r) (romLoOf r) = r := by
  apply BitVec.eq_of_getLsbD_eq
  intro i hi
  simp only [romOf, romHiOf, romLoOf, BitVec.getLsbD_append, BitVec.getLsbD_extractLsb']
  by_cases h : i < 32
  · simp [h]
  · have : i - 32 < 32 := by omega
    have e : 32 + (i - 32) = i := by omega
    simp [h, this, e]

/-! ### The working registers of a pass -/

/-- `s` with the working registers of a search pass as `v` has them. -/
def State.withPass (s : State) (v : Working) : State :=
  { s with w := { s.w with buf := v.buf, lastZero := v.lastZero, famZero := v.famZero, n := v.n } }

@[simp] theorem State.withPass_lineLevel (s : State) (v : Working) (u : Nat) :
    (s.withPass v).lineLevel u = s.lineLevel u := rfl

/-- `Ran`, but that the working registers of a search pass may have changed. -/
abbrev PassRan (n : Nat) (ev : List PadEvent) (s t : State) : Prop := Ran n ev (s.withPass t.w) t

theorem Ran.withPass {n : Nat} {ev : List PadEvent} {s t : State} (h : Ran n ev s t) (v : Working) :
    Ran n ev (s.withPass v) (t.withPass v) where
  now := h.now
  wave := h.wave
  edges := h.edges
  frame := congrArg (fun u : State => u.withPass v) h.frame
  done := h.done
  passive := h.passive
  noReset := h.noReset
  noWrites := h.noWrites
  bits := h.bits
  port := h.port
  timely := h.timely
  reads := h.reads

theorem Ran.pass {n : Nat} {ev : List PadEvent} {s t : State} (h : Ran n ev s t) : PassRan n ev s t := by
  have e : s.withPass t.w = s := by rw [h.w]; rfl
  rw [PassRan, e]; exact h

theorem passRan_trans {n m : Nat} {ev ev' : List PadEvent} {s t u : State} (h : PassRan n ev s t)
    (k : PassRan m ev' t u) : PassRan (n + m) (ev' ++ ev) s u :=
  (Ran.withPass h u.w).trans k

theorem setPosition_pass (s : State) (n : Nat) : PassRan 0 [] s (s.setPosition n) := Ran.refl _

theorem noteDirection_pass (s : State) (n : Nat) (z d : Bool) :
    PassRan 0 [] s (s.noteDirection n z d) := Ran.refl _

theorem startPass_pass (s : State) : PassRan 0 [] s s.startPass := Ran.refl _

theorem CutShort.afterPass {n : Nat} {ev : List PadEvent} {s t u : State} (h : PassRan n ev s t)
    (k : CutShort t u) : CutShort s u :=
  have := k.after h
  ⟨this.frame, this.later, this.released, this.wave, this.asked, this.timely⟩

/-- `v` is the highest position in `lo ..< lo + k` at which `p` holds, or `v0` if there is none. -/
def HighestFrom (p : Nat → Prop) (lo k v0 v : Nat) : Prop :=
  (v = v0 ∧ ∀ n, lo ≤ n → n < lo + k → ¬p n)
    ∨ (lo ≤ v ∧ v < lo + k ∧ p v ∧ ∀ n, v < n → n < lo + k → ¬p n)

/-- The choices of a pass over the positions `lo ..< lo + k`, from the bits `id` and `co` it read
(41_rom_search.md R146 to R149). -/
structure Chosen (ld lo k : Nat) (id co : Nat → Bool) (s t : State) : Prop where
  notBoth : ∀ n, lo ≤ n → n < lo + k → ¬(id n = true ∧ co n = true)
  direction : ∀ n, lo ≤ n → n < lo + k →
    romBit t.w.buf n = searchDirection (id n) (co n) (romBit s.w.buf n) n ld
  rest : ∀ n, 1 ≤ n → n ≤ 64 → ¬(lo ≤ n ∧ n < lo + k) → romBit t.w.buf n = romBit s.w.buf n
  lastZero : HighestFrom (fun n => id n = co n ∧ romBit t.w.buf n = false) lo k s.w.lastZero.toNat
    t.w.lastZero.toNat
  famZero : HighestFrom (fun n => n ≤ 8 ∧ id n = co n ∧ romBit t.w.buf n = false) lo k
    s.w.famZero.toNat t.w.famZero.toNat

theorem HighestFrom.cons {p : Nat → Prop} {lo k v0 v1 v : Nat}
    (h0 : (¬p lo ∧ v1 = v0) ∨ (p lo ∧ v1 = lo)) (h : HighestFrom p (lo + 1) k v1 v) :
    HighestFrom p lo (k + 1) v0 v := by
  unfold HighestFrom at *
  rcases h with ⟨e, h⟩ | ⟨a, b, c, d⟩
  · rcases h0 with ⟨n0, e0⟩ | ⟨p0, e0⟩
    · refine .inl ⟨e.trans e0, fun n a b => ?_⟩
      by_cases hn : n = lo
      · rw [hn]; exact n0
      · exact h n (by omega) (by omega)
    · refine .inr ⟨by omega, by omega, by rw [e, e0]; exact p0, fun n a b => h n (by omega) (by omega)⟩
  · exact .inr ⟨by omega, by omega, c, fun n x y => d n x (by omega)⟩

theorem passBits_zero (buf : RomCode) (lo : Nat) : passBits buf lo 0 = [] := rfl

theorem passBits_succ (buf : RomCode) (lo k : Nat) :
    passBits buf lo (k + 1) = [true, true, romBit buf lo] ++ passBits buf (lo + 1) k := by
  simp only [passBits, List.range'_succ, List.flatMap_cons]

theorem chosen_none {ld lo : Nat} {id co : Nat → Bool} {s t : State} (hb : t.w.buf = s.w.buf)
    (hz : t.w.lastZero = s.w.lastZero) (hf : t.w.famZero = s.w.famZero) : Chosen ld lo 0 id co s t where
  notBoth := fun n a b => absurd b (by omega)
  direction := fun n a b => absurd b (by omega)
  rest := fun n _ _ _ => by rw [hb]
  lastZero := .inl ⟨by rw [hz], fun n a b => absurd b (by omega)⟩
  famZero := .inl ⟨by rw [hf], fun n a b => absurd b (by omega)⟩

/-- The end of a full pass: which of its three results it has, from the code in the working buffer, and
what it leaves (41_rom_search.md R152 to R154, R156). -/
theorem finishPass_ends (s : State) {R : State → Prop} :
    finishPass.Ends s
      (fun r t =>
        (r = .zeroFamily ∧ romByte s.w.buf 0 = 0x00#8 ∧ t = s.clearSearch)
        ∨ (r = .crcMismatch ∧ romByte s.w.buf 0 ≠ 0x00#8 ∧ validRom s.w.buf = false
          ∧ t = s.checkCrc.clearSearch)
        ∨ (r = .ok ∧ romByte s.w.buf 0 ≠ 0x00#8 ∧ validRom s.w.buf = true ∧ t = s.checkCrc.commitPass))
      R := by
  simp only [finishPass, ends_bind, ends_state, ends_ite, ends_change, ends_pure]
  exact ⟨fun hf => .inl ⟨trivial, hf, trivial⟩, fun hf => ⟨fun hv => .inr (.inr ⟨trivial, hf, hv, trivial⟩),
    fun hv => .inr (.inl ⟨trivial, hf, Bool.eq_false_iff.2 hv, trivial⟩)⟩⟩

/-- A search pass over `k` positions from `lo` on (41_rom_search.md R144 to R149). It comes through `j` of
them, 183 µs and three slots for each; `j` is `k`, or the pass ends at the second slot of the next
position, which reads `(1,1)`. -/
theorem searchPass_ends (ld k : Nat) : ∀ {s : State} (lo : Nat), s.status.busy = true →
    s.w.tsample.toNat ≤ 60 → 1 ≤ lo → lo + k ≤ 65 →
    (searchPass ld (List.range' lo k)).Ends s
      (fun full t => t.w.shift = s.w.shift ∧ (s.pads = Pads.released → t.pads = Pads.released) ∧
        ∃ j, ∃ id co : Nat → Bool, Chosen ld lo j id co s t
          ∧ (s.env.passive = true → ∀ n, lo ≤ n → (n < lo + j ∨ (full = false ∧ n = lo + j)) →
              id n = t.lineLevel (s.slotLevelEdge (s.now + 183 * s.cyclesPerUs * (n - lo)))
              ∧ co n = t.lineLevel (s.slotLevelEdge
                  (s.now + 183 * s.cyclesPerUs * (n - lo) + 61 * s.cyclesPerUs)))
          ∧ ((full = true ∧ j = k ∧ PassRan (183 * s.cyclesPerUs * j)
                (slotsEvents s.cyclesPerUs s.now (passBits t.w.buf lo j)).reverse s t)
            ∨ (full = false ∧ j < k ∧ id (lo + j) = true ∧ co (lo + j) = true
              ∧ PassRan ((183 * j + 122) * s.cyclesPerUs)
                (slotsEvents s.cyclesPerUs s.now
                  (passBits t.w.buf lo j ++ [true, true])).reverse s t)))
      (CutShort s) := by
  induction k with
  | zero =>
    intro s lo _ _ _ _
    refine ⟨rfl, id, 0, fun _ => false, fun _ => false, chosen_none rfl rfl rfl, ?_,
      .inl ⟨rfl, rfl, Ran.refl s⟩⟩
    intro _ n a b
    rcases b with b | b
    · omega
    · exact absurd b.1 (by decide)
  | succ k ih =>
    intro s lo hb hts h1 h2
    rw [List.range'_succ]
    unfold searchPass
    rw [ends_bind, ends_change]
    have p0 := setPosition_pass s lo
    have b0 : (s.setPosition lo).w.buf = s.w.buf := rfl
    have z0 : (s.setPosition lo).w.lastZero = s.w.lastZero := rfl
    have f0 : (s.setPosition lo).w.famZero = s.w.famZero := rfl
    have x0 : (s.setPosition lo).w.shift = s.w.shift := rfl
    have t0 : (s.setPosition lo).w.tsample = s.w.tsample := rfl
    have c0 : (s.setPosition lo).cyclesPerUs = s.cyclesPerUs := rfl
    have n0 : (s.setPosition lo).now = s.now := rfl
    have bb0 : (s.setPosition lo).status.busy = true := hb
    have e0 : (s.setPosition lo).env = s.env := rfl
    generalize s.setPosition lo = s0 at *
    refine ends_then (readSlot_ends bb0 (by rw [t0]; exact hts)) (fun t ht => ht.afterPass p0)
      fun id1 t1 r1 q1 => ?_
    refine ends_then (readSlot_ends (r1.busy.trans bb0) (by rw [r1.w_tsample, t0]; exact hts))
      (fun t ht => (ht.after r1).afterPass p0) fun co1 t2 r2 q2 => ?_
    have r12 := r1.trans r2
    have p12 := passRan_trans p0 r12.pass
    have c12 := r12.cyclesPerUs
    have n12 := r12.now
    rw [r1.cyclesPerUs, c0] at n12
    have ev12 : ((slotEvents t1.cyclesPerUs t1.now true).reverse
        ++ (slotEvents s0.cyclesPerUs s0.now true).reverse) ++ []
        = (slotsEvents s.cyclesPerUs s.now [true, true]).reverse := by
      rw [r1.cyclesPerUs, r1.now, c0, n0, List.append_nil]
      simp only [slotsEvents, List.append_nil, List.reverse_append]
    have first : s.env.passive = true → ∀ {t : State}, (∀ u, u ≤ t2.now → t.lineLevel u = t2.lineLevel u) →
        id1 = t.lineLevel (s.slotLevelEdge (s.now + 183 * s.cyclesPerUs * (lo - lo)))
        ∧ co1 = t.lineLevel (s.slotLevelEdge
            (s.now + 183 * s.cyclesPerUs * (lo - lo) + 61 * s.cyclesPerUs)) := by
      intro hp t lift
      have hp0 : s0.env.passive = true := by rw [e0]; exact hp
      have hp1 : t1.env.passive = true := by rw [r1.passive hp0]; exact hp0
      simp only [Nat.sub_self, Nat.mul_zero, Nat.add_zero]
      have sl : ∀ u, s.slotLevelEdge u = s0.slotLevelEdge u := fun u => by
        simp only [State.slotLevelEdge, t0, c0]
      have hb61 : (1 + s.w.tsample.toNat) * s.cyclesPerUs ≤ 61 * s.cyclesPerUs :=
        Nat.mul_le_mul_right _ (by omega)
      have n1 := r1.now
      rw [c0, n0] at n1
      refine ⟨?_, ?_⟩
      · rw [lift _ (by simp only [State.slotLevelEdge]; omega), q1.2.2 hp0, n0, sl,
          r2.lineLevel hp1 (by simp only [State.slotLevelEdge, t0, c0]; omega)]
      · rw [lift _ (by simp only [State.slotLevelEdge]; omega), q2.2.2 hp1, n1]
        simp only [State.slotLevelEdge, r1.w_tsample, r1.cyclesPerUs, t0, c0]
    by_cases hbc : (id1 && co1) = true
    · rw [if_pos hbc, ends_pure]
      refine ⟨q2.2.1.trans (q1.2.1.trans x0), fun _ => q2.1, 0, fun _ => id1, fun _ => co1,
        chosen_none (by rw [r12.w_buf, b0]) (by rw [r12.w_lastZero, z0]) (by rw [r12.w_famZero, f0]),
        ?_, .inr ⟨rfl, by omega, (Bool.and_eq_true_iff.1 hbc).1, (Bool.and_eq_true_iff.1 hbc).2,
        Ran.of_eq p12 ?_ ?_⟩⟩
      · intro hp n a b
        have hn : n = lo := by omega
        subst hn
        exact first hp (fun u _ => rfl)
      · rw [r1.cyclesPerUs, c0]; ring
      · rw [ev12, passBits_zero, List.nil_append]
    · rw [if_neg hbc, ends_bind, ends_state, ends_bind, ends_change]
      have hd : romBit t2.w.buf lo = romBit s.w.buf lo := by rw [r12.w_buf, b0]
      generalize hdir : searchDirection id1 co1 (romBit t2.w.buf lo) lo ld = d
      rw [hd] at hdir
      have p3 := noteDirection_pass t2 lo (id1 == co1) d
      have hp3 : (t2.noteDirection lo (id1 == co1) d).pads = Pads.released := q2.1
      have b3 : (t2.noteDirection lo (id1 == co1) d).w.buf = setRomBit s.w.buf lo d := by
        rw [← b0, ← r12.w_buf]; rfl
      have z3 : (t2.noteDirection lo (id1 == co1) d).w.lastZero
          = if (id1 == co1 && !d) = true then BitVec.ofNat 7 lo else s.w.lastZero := by
        rw [← z0, ← r12.w_lastZero]; rfl
      have f3 : (t2.noteDirection lo (id1 == co1) d).w.famZero
          = if ((id1 == co1 && !d) && decide (lo ≤ 8)) = true then BitVec.ofNat 4 lo
            else s.w.famZero := by
        rw [← f0, ← r12.w_famZero]; rfl
      have x3 : (t2.noteDirection lo (id1 == co1) d).w.shift = s.w.shift :=
        q2.2.1.trans (q1.2.1.trans x0)
      have l3 : ∀ u, (t2.noteDirection lo (id1 == co1) d).lineLevel u = t2.lineLevel u := fun _ => rfl
      generalize t2.noteDirection lo (id1 == co1) d = t3 at *
      have p13 := passRan_trans p12 p3
      have c13 : t3.cyclesPerUs = s.cyclesPerUs := Ran.cyclesPerUs (s := s.withPass t3.w) p13
      have n13 := Ran.now (s := s.withPass t3.w) p13
      have b13 : t3.status.busy = true := (Ran.busy (s := s.withPass t3.w) p13).trans hb
      refine ends_then (writeSlot_ends b13 d) (fun t ht => ht.afterPass p13) fun _ t4 r4 q4 => ?_
      have p14 := passRan_trans p13 r4.pass
      have c14 : t4.cyclesPerUs = s.cyclesPerUs := Ran.cyclesPerUs (s := s.withPass t4.w) p14
      have n14 := Ran.now (s := s.withPass t4.w) p14
      have e14 : s.env.passive = true → t4.env = s.env := fun hp => Ran.passive (s := s.withPass t4.w) p14 hp
      have ts14 : t4.w.tsample = s.w.tsample := Ran.w_tsample (s := s.withPass t4.w) p14
      have hn14 : t4.now = s.now + 183 * s.cyclesPerUs := by
        rw [n14, c13, c0, r1.cyclesPerUs, c0]
        change s.now + _ = _
        ring
      refine (ih (lo + 1) ((Ran.busy (s := s.withPass t4.w) p14).trans hb) (by rw [ts14]; exact hts) (by omega)
        (by omega)).mono (fun full t5 h5 => ?_) (fun t ht => ht.afterPass p14)
      obtain ⟨s5, pd5, j, idf, cof, hc, hl, h5⟩ := h5
      have r5 : ∃ m ev, PassRan m ev t4 t5 := by
        rcases h5 with h5 | h5
        · exact ⟨_, _, h5.2.2⟩
        · exact ⟨_, _, h5.2.2.2.2⟩
      have hj : j ≤ k := by rcases h5 with h5 | h5 <;> omega
      have blo : romBit t5.w.buf lo = d := by
        rw [hc.rest lo h1 (by omega) (by omega), r4.w_buf, b3,
          romBit_setRomBit _ _ h1 (by omega) h1 (by omega), if_pos rfl]
      have ev14 : (slotEvents t3.cyclesPerUs t3.now d).reverse
          ++ (slotsEvents s.cyclesPerUs s.now [true, true]).reverse
          = (slotsEvents s.cyclesPerUs s.now [true, true, d]).reverse := by
        have e3 : t3.now = t2.now := Ran.now (s := t2.withPass t3.w) p3
        rw [c13, e3, n12, n0]
        simp only [slotsEvents, List.append_nil, List.reverse_append, List.append_assoc]
        rw [show s.now + (61 * s.cyclesPerUs + 61 * s.cyclesPerUs)
          = s.now + 61 * s.cyclesPerUs + 61 * s.cyclesPerUs by omega]
      have evs : ∀ bits, (slotsEvents t4.cyclesPerUs t4.now bits).reverse
          ++ (slotsEvents s.cyclesPerUs s.now [true, true, d]).reverse
          = (slotsEvents s.cyclesPerUs s.now ([true, true, romBit t5.w.buf lo] ++ bits)).reverse := by
        intro bits
        rw [slotsEvents_append, List.reverse_append, blo, c14, hn14]
        congr 3
        change _ = s.now + 61 * s.cyclesPerUs * 3
        ring
      refine ⟨s5.trans (q4.2.trans x3), fun _ => pd5 q4.1, j + 1,
        fun n => if n = lo then id1 else idf n, fun n => if n = lo then co1 else cof n, ?_, ?_, ?_⟩
      rotate_left 2
      · have a1 : ¬lo + (j + 1) = lo := by omega
        have a2 : lo + (j + 1) = lo + 1 + j := by omega
        rcases h5 with ⟨rfl, rfl, r5⟩ | ⟨rfl, hjk, i5, o5, r5⟩
        · refine .inl ⟨rfl, rfl, Ran.of_eq (passRan_trans p14 r5) ?_ ?_⟩
          · rw [c14, c13, r1.cyclesPerUs, c0]; ring
          · rw [List.nil_append, ev12, ev14, evs, passBits_succ]
        · refine .inr ⟨rfl, by omega, ?_, ?_, Ran.of_eq (passRan_trans p14 r5) ?_ ?_⟩
          · simp only [a1, if_false]; rw [a2]; exact i5
          · simp only [a1, if_false]; rw [a2]; exact o5
          · rw [c14, c13, r1.cyclesPerUs, c0]; ring
          · rw [List.nil_append, ev12, ev14, evs, passBits_succ, List.append_assoc]
      · have bne : ∀ n, 1 ≤ n → n ≤ 64 → n ≠ lo → romBit t4.w.buf n = romBit s.w.buf n := by
          intro n a b c
          rw [r4.w_buf, b3, romBit_setRomBit _ _ h1 (by omega) a b, if_neg c]
        have zlo : ((id1 == co1 && !d) = true) ↔ (id1 = co1 ∧ romBit t5.w.buf lo = false) := by
          rw [blo]; cases id1 <;> cases co1 <;> cases d <;> decide
        refine ⟨fun n a b => ?_, fun n a b => ?_, fun n a b c => ?_, ?_, ?_⟩
        · by_cases hn : n = lo
          · simp only [hn, if_true]
            intro hh; exact hbc (by rw [hh.1, hh.2]; rfl)
          · simp only [hn, if_false]; exact hc.notBoth n (by omega) (by omega)
        · by_cases hn : n = lo
          · subst hn; simp only [if_true]; rw [blo, hdir]
          · simp only [hn, if_false]
            rw [hc.direction n (by omega) (by omega), bne n (by omega) (by omega) hn]
        · rw [hc.rest n a b (by omega), bne n a b (by omega)]
        · refine HighestFrom.cons (v1 := t4.w.lastZero.toNat) ?_ ?_
          · simp only [if_true]
            rw [r4.w_lastZero, z3]
            by_cases hz : (id1 == co1 && !d) = true
            · refine .inr ⟨zlo.1 hz, ?_⟩
              rw [if_pos hz, BitVec.toNat_ofNat]; omega
            · exact .inl ⟨fun hh => hz (zlo.2 hh), by rw [if_neg hz]⟩
          · have := hc.lastZero
            unfold HighestFrom at this ⊢
            have ne : ∀ n, lo + 1 ≤ n → n ≠ lo := fun n a => by omega
            rcases this with ⟨e, h⟩ | ⟨a, b, c, d'⟩
            · refine .inl ⟨e, fun n x y => ?_⟩
              simp only [ne n x, if_false]; exact h n x y
            · refine .inr ⟨a, b, ?_, fun n x y => ?_⟩
              · simp only [ne _ a, if_false]; exact c
              · simp only [ne n (by omega), if_false]; exact d' n x y
        · refine HighestFrom.cons (v1 := t4.w.famZero.toNat) ?_ ?_
          · simp only [if_true]
            rw [r4.w_famZero, f3]
            by_cases hz : (id1 == co1 && !d) = true
            · by_cases h8 : lo ≤ 8
              · refine .inr ⟨⟨h8, zlo.1 hz⟩, ?_⟩
                rw [if_pos (by rw [hz, decide_eq_true h8]; rfl), BitVec.toNat_ofNat]; omega
              · refine .inl ⟨fun hh => h8 hh.1, ?_⟩
                rw [if_neg (by rw [decide_eq_false h8, Bool.and_false]; decide)]
            · refine .inl ⟨fun hh => hz (zlo.2 hh.2), ?_⟩
              rw [if_neg (fun hh => hz (Bool.and_eq_true_iff.1 hh).1)]
          · have := hc.famZero
            unfold HighestFrom at this ⊢
            have ne : ∀ n, lo + 1 ≤ n → n ≠ lo := fun n a => by omega
            rcases this with ⟨e, h⟩ | ⟨a, b, c, d'⟩
            · refine .inl ⟨e, fun n x y => ?_⟩
              simp only [ne n x, if_false]; exact h n x y
            · refine .inr ⟨a, b, ?_, fun n x y => ?_⟩
              · simp only [ne _ a, if_false]; exact c
              · simp only [ne n (by omega), if_false]; exact d' n x y
      · intro hp n a b
        have hp4 : t4.env.passive = true := by rw [e14 hp]; exact hp
        obtain ⟨m, ev, r5⟩ := r5
        by_cases hn : n = lo
        · subst hn
          simp only [if_true]
          refine first hp fun u hu => ?_
          have hp3 : t3.env.passive = true := by
            have := Ran.passive (s := s.withPass t3.w) p13 hp; rw [this]; exact hp
          have e3 : t3.now = t2.now := Ran.now (s := t2.withPass t3.w) p3
          have l5 : t5.lineLevel u = t4.lineLevel u :=
            Ran.lineLevel (s := t4.withPass t5.w) r5 hp4 (by
              change u ≤ t4.now
              rw [hn14]; omega)
          rw [l5, r4.lineLevel hp3 (by omega), l3]
        · simp only [hn, if_false]
          obtain ⟨a1, a2⟩ := hl hp4 n (by omega) (by
            rcases b with b | b
            · exact .inl (by omega)
            · exact .inr ⟨b.1, by omega⟩)
          have e : t4.now + 183 * t4.cyclesPerUs * (n - (lo + 1))
              = s.now + 183 * s.cyclesPerUs * (n - lo) := by
            rw [hn14, c14, show n - lo = n - (lo + 1) + 1 by omega, Nat.mul_add]; omega
          rw [e, c14] at a2
          rw [e] at a1
          have sl : ∀ u, t4.slotLevelEdge u = s.slotLevelEdge u := fun u => by
            simp only [State.slotLevelEdge, ts14, c14]
          rw [sl] at a1 a2
          exact ⟨a1, a2⟩

/-! ### The latency measurement -/

theorem Ran.setCounter {n : Nat} {ev : List PadEvent} {s t : State} (h : Ran n ev s t)
    (c : BitVec 16) : Ran n ev (s.setCounter c) (t.setCounter c) where
  now := h.now
  wave := h.wave
  edges := h.edges
  frame := congrArg (fun u : State => u.setCounter c) h.frame
  done := h.done
  passive := h.passive
  noReset := h.noReset
  noWrites := h.noWrites
  bits := h.bits
  port := h.port
  timely := h.timely
  reads := h.reads

/-- `Ran`, but that the cycle counter may have changed. -/
abbrev CounterRan (n : Nat) (ev : List PadEvent) (s t : State) : Prop :=
  Ran n ev (s.setCounter t.w.cal) t

theorem Ran.counter {n : Nat} {ev : List PadEvent} {s t : State} (h : Ran n ev s t) :
    CounterRan n ev s t := by
  have e : s.setCounter t.w.cal = s := by rw [h.w_cal]; rfl
  rw [CounterRan, e]; exact h

theorem counterRan_trans {n m : Nat} {ev ev' : List PadEvent} {s t u : State}
    (h : CounterRan n ev s t) (k : CounterRan m ev' t u) : CounterRan (n + m) (ev' ++ ev) s u :=
  (Ran.setCounter h u.w.cal).trans k

theorem CutShort.afterCounter {n : Nat} {ev : List PadEvent} {s t u : State}
    (h : CounterRan n ev s t) (k : CutShort t u) : CutShort s u :=
  have := k.after h
  ⟨this.frame, this.later, this.released, this.wave, this.asked, this.timely⟩

/-- `left` ticks of the measurement window, the next being number `j`: the counter keeps a value it has,
and otherwise takes the number of the first tick whose sample reads 1 (43_control.md R180). -/
theorem measure_ends (left : Nat) : ∀ {s : State} (j : Nat), s.status.busy = true → 1 ≤ j →
    j + left ≤ 0xFFFF →
    (measure left j).Ends s
      (fun _ t => t.pads = s.pads ∧ CounterRan left [] s t
        ∧ (s.w.cal ≠ noLatency → t.w.cal = s.w.cal)
        ∧ (s.w.cal = noLatency →
          (t.w.cal = noLatency ∨ (j ≤ t.w.cal.toNat ∧ t.w.cal.toNat < j + left
            ∧ (padsBefore s.wave (s.now + 1 + (t.w.cal.toNat - j) - 2)).oeLow = false))
          ∧ (s.env.passive = true →
            (t.w.cal ≠ noLatency → t.lineLevel (s.now + 1 + (t.w.cal.toNat - j) - 2) = true)
            ∧ ∀ i, j ≤ i → i < j + left → i < t.w.cal.toNat →
              t.lineLevel (s.now + 1 + (i - j) - 2) = false))) (CutShort s) := by
  induction left with
  | zero =>
    intro s j _ _ _
    exact ⟨rfl, Ran.refl s, fun _ => rfl, fun h => ⟨.inl h, fun _ =>
      ⟨fun h' => absurd h h', fun i a b => absurd b (by omega)⟩⟩⟩
  | succ left ih =>
    intro s j hb hj hl
    unfold measure
    refine ends_then (tick_ends hb) (fun _ => id) fun _ t1 r1 q1 => ?_
    rw [ends_bind, ends_state]
    have n1 := r1.now
    have cal1 := r1.w_cal
    by_cases hc : t1.w.cal = noLatency
    · rw [if_pos hc]
      simp only [ends_bind, ends_sample, ends_ite, ends_change]
      have rc := r1.trans (countStep_ran t1)
      have pc : t1.countStep.pads = s.pads := q1.1
      have cc : t1.countStep.w.cal = t1.w.cal := rfl
      have nc : t1.countStep.now = t1.now := rfl
      have lc : ∀ u, t1.countStep.lineLevel u = t1.lineLevel u := fun _ => rfl
      generalize t1.countStep = t2 at *
      refine ⟨fun hs => ?_, fun hs => ?_⟩
      · have r3 : CounterRan 0 [] t2 (t2.setCounter (BitVec.ofNat 16 j)) := Ran.refl _
        have p3 : (t2.setCounter (BitVec.ofNat 16 j)).pads = s.pads := pc
        have w3 : (t2.setCounter (BitVec.ofNat 16 j)).w.cal = BitVec.ofNat 16 j := rfl
        have l3 : ∀ u, (t2.setCounter (BitVec.ofNat 16 j)).lineLevel u = t1.lineLevel u := lc
        have n3 : (t2.setCounter (BitVec.ofNat 16 j)).now = t1.now := nc
        generalize t2.setCounter (BitVec.ofNat 16 j) = t3 at *
        have r13 := counterRan_trans rc.counter r3
        have wj : t3.w.cal.toNat = j := by rw [w3, BitVec.toNat_ofNat]; omega
        have wn : t3.w.cal ≠ noLatency := fun h => by
          have := congrArg BitVec.toNat h
          rw [wj] at this
          have e : noLatency.toNat = 0xFFFF := rfl
          omega
        refine (ih (j + 1) ((Ran.busy (s := s.setCounter t3.w.cal) r13).trans hb) (by omega)
          (by omega)).mono (fun _ t4 h4 => ?_) (fun t ht => ht.afterCounter r13)
        obtain ⟨a, b, c, -⟩ := h4
        have w4 := c wn
        refine ⟨a.trans p3, Ran.of_eq (counterRan_trans r13 b) (by omega) rfl,
          fun h => absurd (cal1 ▸ hc) h, fun _ => ⟨.inr ⟨by rw [w4, wj], by rw [w4, wj]; omega, ?_⟩,
          fun hp => ⟨fun _ => ?_, fun i x y z => ?_⟩⟩⟩
        · rw [w4, wj, Nat.sub_self, Nat.add_zero, ← n1]
          have hw : t1.wave = s.wave := r1.wave
          have hlow : (!(padsBefore t1.wave (t1.now - 2)).oeLow) = true :=
            (Bool.and_eq_true_iff.1 hs).1
          rw [hw] at hlow
          simpa using hlow
        · have hp3 : t3.env.passive = true := by
            have := Ran.passive (s := s.setCounter t3.w.cal) r13 hp
            rw [this]; exact hp
          rw [w4, wj, Nat.sub_self, Nat.add_zero,
            Ran.lineLevel (s := t3.setCounter t4.w.cal) b hp3 (by
              change _ ≤ t3.now; omega)]
          change t3.lineLevel _ = true
          rw [l3, ← n1]; exact hs
        · rw [w4, wj] at z; omega
      · refine (ih (j + 1) (rc.busy.trans hb) (by omega) (by omega)).mono (fun _ t4 h4 => ?_)
          (fun t ht => ht.after rc)
        obtain ⟨a, b, -, d⟩ := h4
        obtain ⟨d1, d2⟩ := d (cc.trans hc)
        refine ⟨a.trans pc, Ran.of_eq (counterRan_trans rc.counter b) (by omega) rfl,
          fun h => absurd (cal1 ▸ hc) h, fun _ => ⟨?_, fun hp => ?_⟩⟩
        · rcases d1 with d1 | d1
          · exact .inl d1
          · refine .inr ⟨by omega, by omega, ?_⟩
            have hw : t2.wave = s.wave := rc.wave
            rw [← hw, show s.now + 1 + (t4.w.cal.toNat - j) - 2
              = t2.now + 1 + (t4.w.cal.toNat - (j + 1)) - 2 by omega]
            exact d1.2.2
        · have hp2 : t2.env.passive = true := by rw [rc.passive hp]; exact hp
          obtain ⟨e1, e2⟩ := d2 hp2
          refine ⟨fun h => ?_, fun i x y z => ?_⟩
          · have := e1 h
            rcases d1 with d1 | d1
            · exact absurd d1 h
            · rw [show s.now + 1 + (t4.w.cal.toNat - j) - 2
                = t2.now + 1 + (t4.w.cal.toNat - (j + 1)) - 2 by omega]
              exact this
          · by_cases hi : i = j
            · subst hi
              rw [Nat.sub_self, Nat.add_zero,
                Ran.lineLevel (s := t2.setCounter t4.w.cal) b hp2 (by
                  change _ ≤ t2.now; omega)]
              change t2.lineLevel _ = false
              rw [lc, ← n1]; simpa using hs
            · have := e2 i (by omega) (by omega) z
              rw [show s.now + 1 + (i - j) - 2 = t2.now + 1 + (i - (j + 1)) - 2 by omega]
              exact this
    · rw [if_neg hc]
      refine (ih (j + 1) (r1.busy.trans hb) (by omega) (by omega)).mono (fun _ t4 h4 => ?_)
        (fun t ht => ht.after r1)
      obtain ⟨a, b, c, -⟩ := h4
      exact ⟨a.trans q1.1, Ran.of_eq (counterRan_trans r1.counter b) (by omega) rfl,
        fun _ => (c hc).trans cal1, fun h => absurd (cal1.trans h) hc⟩

end Sys2Proof.Machine
end

