-- ==== Sys2Proof/Laws/Effects.lean ====
section
/-! SUPPORT. Everything each command can do, said once: `exec_effect` is the inversion lemma the
whole-machine statements are derived from. It holds in every busy state, whatever its registers hold. -/

namespace Sys2Proof.Machine

variable {α β : Type}

/-! ### What a command has done before its commit -/

/-- `s` with the working registers a command computes with as `v` has them. -/
def State.withWork (s : State) (v : Working) : State :=
  { s with w := { s.w with
      buf := v.buf, lastZero := v.lastZero, famZero := v.famZero, n := v.n, cal := v.cal } }

/-- `t` is `s` after a part of a running command that committed nothing: time went by, the line was
driven, the working registers and what the host may reach changed, and nothing else. -/
def Did (s t : State) : Prop := ∃ n ev, Ran n ev (s.withWork t.w) t

theorem Ran.withWork {n : Nat} {ev : List PadEvent} {s t : State} (h : Ran n ev s t) (v : Working) :
    Ran n ev (s.withWork v) (t.withWork v) where
  now := h.now
  wave := h.wave
  edges := h.edges
  frame := congrArg (fun u : State => u.withWork v) h.frame
  done := h.done
  passive := h.passive
  noReset := h.noReset
  noWrites := h.noWrites
  bits := h.bits
  port := h.port
  timely := h.timely
  reads := h.reads

theorem Ran.did {n : Nat} {ev : List PadEvent} {s t : State} (h : Ran n ev s t) : Did s t := by
  have e : s.withWork t.w = s := by rw [h.w]; rfl
  exact ⟨n, ev, by rw [e]; exact h⟩

theorem Did.trans {s t u : State} (h : Did s t) (k : Did t u) : Did s u := by
  obtain ⟨n, ev, h⟩ := h
  obtain ⟨m, ev', k⟩ := k
  exact ⟨n + m, ev' ++ ev, (Ran.withWork h u.w).trans k⟩

theorem CutShort.afterDid {s t u : State} (h : Did s t) (k : CutShort t u) : CutShort s u := by
  obtain ⟨n, ev, h⟩ := h
  have := k.after h
  exact ⟨this.frame, this.later, this.released, this.wave, this.asked, this.timely⟩

theorem setPosition_did (s : State) (n : Nat) : Did s (s.setPosition n) := ⟨0, [], Ran.refl _⟩

theorem noteDirection_did (s : State) (n : Nat) (z d : Bool) : Did s (s.noteDirection n z d) :=
  ⟨0, [], Ran.refl _⟩

theorem startPass_did (s : State) : Did s s.startPass := ⟨0, [], Ran.refl _⟩

theorem setCounter_did (s : State) (c : BitVec 16) : Did s (s.setCounter c) := ⟨0, [], Ran.refl _⟩

theorem setShift_did (s : State) (v : Byte) : Did s (s.setShift v) := (setShift_ran s v).did

/-- A part of a command that did something, followed by the rest. -/
theorem did_then {s : State} {m : Run α} {f : α → Run β} {P : α → State → Prop}
    {Q : β → State → Prop} {R : State → Prop}
    (h : m.Ends s (fun a t => Did s t ∧ P a t) (CutShort s)) (hR : ∀ t, CutShort s t → R t)
    (k : ∀ a t, Did s t → P a t → (f a).Ends t Q R) : (m >>= f).Ends s Q R :=
  (ends_bind m f).2 (h.mono (fun a t ht => k a t ht.1 ht.2) hR)

/-- The facts about a running command that hold whatever it did. -/
theorem Did.stays {s t : State} (h : Did s t) :
    t.status.busy = s.status.busy ∧ t.w.data = s.w.data ∧ t.w.tsample = s.w.tsample
      ∧ t.w.selrom = s.w.selrom ∧ t.search = s.search ∧ t.cfg = s.cfg ∧ t.status.cal = s.status.cal
      ∧ t.status.calerr = s.status.calerr := by
  obtain ⟨n, ev, h⟩ := h
  exact ⟨h.busy, h.w_data, h.w_tsample, h.w_selrom, h.search, h.cfg, h.cal, h.calerr⟩

/-- The registers a part of a command that committed nothing leaves, and its history. -/
theorem Did.regs {s t : State} (h : Did s t) :
    t.data = s.data ∧ t.tsample = s.tsample ∧ t.latency = s.latency ∧ t.selRomLo = s.selRomLo
      ∧ t.selRomHi = s.selRomHi ∧ t.crc8 = s.crc8 ∧ t.crc16 = s.crc16
      ∧ t.status.presence = s.status.presence ∧ t.status.found = s.status.found
      ∧ t.status.stuck = s.status.stuck ∧ s.wave <:+ t.wave ∧ (s.Timely → t.Timely) := by
  obtain ⟨n, ev, h⟩ := h
  exact ⟨h.data, h.tsample, h.latency, h.selRomLo, h.selRomHi, h.crc8, h.crc16, h.presence, h.found,
    h.stuck, ⟨ev, h.wave.symm⟩, h.timely⟩

/-- A part of a command after which the line is released. -/
abbrev Frees (m : Run α) (s : State) : Prop :=
  m.Ends s (fun _ t => Did s t ∧ t.pads = Pads.released) (CutShort s)

theorem readSlot_frees {s : State} (hb : s.status.busy = true) : Frees readSlot s :=
  (readSlot_ran hb).mono (fun _ _ h => ⟨h.1.did, h.2.1⟩) (fun _ => id)

theorem rxBits_frees (is : List Nat) : ∀ {s : State}, s.status.busy = true → is ≠ [] →
    Frees (rxBits is) s := by
  induction is with
  | nil => intro s _ h; exact absurd rfl h
  | cons i is ih =>
    intro s hb _
    refine did_then (readSlot_frees hb) (fun _ => id) fun b t1 h1 p1 => ?_
    rw [ends_bind, ends_change]
    have h2 := h1.trans (shiftIn_ran t1 i b).did
    have p2 : (t1.shiftIn i b).pads = Pads.released := p1
    generalize t1.shiftIn i b = t2 at h2 p2
    by_cases hi : is = []
    · subst hi; exact ⟨h2, p2⟩
    · exact (ih (h2.stays.1.trans hb) hi).mono (fun _ t3 h3 => ⟨h2.trans h3.1, h3.2⟩)
        (fun t ht => ht.afterDid h2)

theorem rxByte_frees {s : State} (hb : s.status.busy = true) : Frees rxByte s := by
  simp only [Frees, rxByte, ends_bind, ends_change]
  refine (rxBits_frees byteBits (s := s.setShift 0#8) hb (by simp)).mono (fun _ t h => ?_)
    (fun t ht => ht.afterDid (setShift_did s _))
  simp only [ends_state, ends_pure]
  exact ⟨(setShift_did s _).trans h.1, h.2⟩

theorem txRomBytes_ends (rom : RomCode) (is : List Nat) : ∀ {s : State}, s.status.busy = true →
    (txRomBytes rom is).Ends s
      (fun _ t => Ran (488 * s.cyclesPerUs * is.length)
          (slotsEvents s.cyclesPerUs s.now (is.flatMap fun i => lineBits (romByte rom i))).reverse s t
        ∧ (s.pads = Pads.released ∨ is ≠ [] → t.pads = Pads.released)) (CutShort s) := by
  induction is with
  | nil => intro s _; exact ⟨Ran.refl s, by simp⟩
  | cons i is ih =>
    intro s hb
    refine ends_then (txByte_ends hb (romByte rom i)) (fun _ => id) fun _ t1 h1 p1 => ?_
    refine (ih (h1.busy.trans hb)).mono (fun _ t2 h2 => ?_) (fun t ht => ht.after h1)
    refine ⟨(h1.trans h2.1).of_eq ?_ ?_, fun _ => h2.2 (.inl p1.1)⟩
    · rw [h1.cyclesPerUs, List.length_cons]; ring
    · rw [List.flatMap_cons, slotsEvents_append, List.reverse_append, h1.cyclesPerUs, h1.now,
        show (lineBits (romByte rom i)).length = 8 by rfl]
      congr 4
      ring

/-- The last-zero candidates of a pass that has come to position `m` (10_state.md R62). -/
def ZerosBelow (w : Working) (m : Nat) : Prop :=
  w.lastZero.toNat < m ∧ w.famZero.toNat ≤ 8 ∧ w.famZero.toNat ≤ w.lastZero.toNat

theorem searchPass_frees (ld k : Nat) : ∀ {s : State} (lo : Nat), s.status.busy = true → 1 ≤ lo →
    lo + k ≤ 65 → ZerosBelow s.w lo →
    (searchPass ld (List.range' lo k)).Ends s
      (fun _ t => Did s t ∧ (s.pads = Pads.released → t.pads = Pads.released) ∧ ZerosBelow t.w (lo + k))
      (CutShort s) := by
  induction k with
  | zero =>
    intro s lo _ _ _ hz
    exact ⟨(Ran.refl s).did, id, hz⟩
  | succ k ih =>
    intro s lo hb h1 h2 hz
    rw [List.range'_succ]
    unfold searchPass
    rw [ends_bind, ends_change]
    have d0 := setPosition_did s lo
    have z0 : ZerosBelow (s.setPosition lo).w lo := hz
    generalize s.setPosition lo = s0 at d0 z0
    have b0 : s0.status.busy = true := d0.stays.1.trans hb
    have zero : ∀ {a b : State}, Did a b → b.w.lastZero = a.w.lastZero →
        b.w.famZero = a.w.famZero → ZerosBelow a.w lo → ZerosBelow b.w lo := by
      intro a b _ h1 h2 h3
      unfold ZerosBelow at *
      rw [h1, h2]; exact h3
    have slot : ∀ {a : State}, a.status.busy = true → readSlot.Ends a
        (fun _ b => Did a b ∧ b.w.lastZero = a.w.lastZero ∧ b.w.famZero = a.w.famZero
          ∧ b.pads = Pads.released) (CutShort a) := by
      intro a ha
      exact (readSlot_ran ha).mono
        (fun _ _ h => ⟨h.1.did, h.1.w_lastZero, h.1.w_famZero, h.2.1⟩) (fun _ => id)
    refine did_then (slot b0) (fun t ht => ht.afterDid d0) fun id1 t1 d1 q1 => ?_
    have z1 := zero d1 q1.1 q1.2.1 z0
    refine did_then (slot (d1.stays.1.trans b0)) (fun t ht => (ht.afterDid d1).afterDid d0)
      fun co1 t2 d2 q2 => ?_
    have z2 := zero d2 q2.1 q2.2.1 z1
    have d02 := (d0.trans d1).trans d2
    by_cases hbc : (id1 && co1) = true
    · rw [if_pos hbc, ends_pure]
      exact ⟨d02, fun _ => q2.2.2, by have := z2.1; exact ⟨by omega, z2.2⟩⟩
    · rw [if_neg hbc, ends_bind, ends_state, ends_bind, ends_change]
      generalize searchDirection id1 co1 (romBit t2.w.buf lo) lo ld = d
      have d3 := d02.trans (noteDirection_did t2 lo (id1 == co1) d)
      have z3 : ZerosBelow (t2.noteDirection lo (id1 == co1) d).w (lo + 1) := by
        have := z2.1
        have := z2.2.1
        have := z2.2.2
        simp only [ZerosBelow, State.noteDirection, Working.noteDirection]
        by_cases hc : (id1 == co1 && !d) = true
        · by_cases h8 : lo ≤ 8
          · simp only [hc, h8, decide_true, Bool.and_true, if_true, BitVec.toNat_ofNat]; omega
          · simp only [hc, h8, decide_false, Bool.and_false, if_true, Bool.false_eq_true, if_false,
              BitVec.toNat_ofNat]
            omega
        · simp only [Bool.not_eq_true] at hc
          simp only [hc, Bool.false_and, Bool.false_eq_true, if_false]; omega
      have p3 : (t2.noteDirection lo (id1 == co1) d).pads = Pads.released := q2.2.2
      generalize t2.noteDirection lo (id1 == co1) d = t3 at d3 z3 p3
      have b3 := d3.stays.1.trans hb
      refine ends_then (writeSlot_ends b3 d) (fun t ht => ht.afterDid d3) fun _ t4 r4 q4 => ?_
      have d4 := d3.trans r4.did
      have z4 : ZerosBelow t4.w (lo + 1) := by
        unfold ZerosBelow at *; rw [r4.w_lastZero, r4.w_famZero]; exact z3
      refine (ih (lo + 1) (d4.stays.1.trans hb) (by omega) (by omega) z4).mono
        (fun _ t5 h5 => ?_) (fun t ht => ht.afterDid d4)
      exact ⟨d4.trans h5.1, fun _ => h5.2.1 q4.1, by
        rw [show lo + (k + 1) = lo + 1 + k by omega]; exact h5.2.2⟩

/-- The measurement window after the low pulse that began at edge `r - c` and ended at edge `r`: no sample
sees a level from before the release (43_control.md R182 (d)). -/
theorem measure_did {s : State} {left r c : Nat} {wave : List PadEvent} (hb : s.status.busy = true)
    (hcal : s.w.cal = noLatency) (hl : 1 + left ≤ 0xFFFF) (hr : s.now = r + c)
    (hw : s.wave = ⟨s.now, Pads.released⟩ :: ⟨r, Pads.low⟩ :: wave) :
    (measure left 1).Ends s (fun _ t => Did s t ∧ t.pads = s.pads
      ∧ (2 ≤ c → Config.syncStages < t.w.cal.toNat)) (CutShort s) := by
  refine (measure_ends left 1 hb (Nat.le_refl 1) hl).mono (fun _ t h => ?_) (fun _ => id)
  obtain ⟨h1, h2, -, h4⟩ := h
  have d : Did s t := by
    refine ⟨left, [], ?_⟩
    have e : s.withWork t.w = s.setCounter t.w.cal := by
      have := Ran.w (s := s.setCounter t.w.cal) h2
      rw [this]; rfl
    rw [e]; exact h2
  refine ⟨d, h1, fun hc => ?_⟩
  rcases (h4 hcal).1 with h | ⟨h5, -, h6⟩
  · rw [h]; decide
  · by_contra hlt
    have hlt : t.w.cal.toNat ≤ 2 := Nat.le_of_not_lt hlt
    have e1 : ¬s.now < s.now + 1 + (t.w.cal.toNat - 1) - 2 := by omega
    have e2 : r < s.now + 1 + (t.w.cal.toNat - 1) - 2 := by omega
    rw [hw, padsBefore, if_neg e1, padsBefore, if_pos e2] at h6
    simp [Pads.low] at h6

/-! ### What each command commits -/

/-- The line is not driven high, and driven low only if it was before: what `begin_line()` leaves
(40_bus_transactions.md R111). -/
def Freed (s u : State) : Prop :=
  u.pads.pu = false ∧ (s.pads.oeLow = false → u.pads.oeLow = false)

/-- From the start state `s` of a command, its state `u` just before its commit, its result and its state
after the commit: every way a command can complete. -/
inductive Effect (s u : State) : Instr → ResultCode → State → Prop
  | gateClosed (i : Instr) : i ∈ gatedCommands → s.status.cal = false → u.pads = s.pads →
      Effect s u i .notCalibrated u
  | illegal (i : Instr) : (i = .reserved ∨ (i = .crc16 ∧ s.cfg.hasCrc16 = false)
        ∨ (i = .calibrate ∧ (s.status.cal = true ∨ s.status.calerr = true))) → u.pads = s.pads →
      Effect s u i .illegalCmd u
  | nop : u.pads = s.pads → Effect s u .nop .ok u
  | owReset (o : ResetOutcome) : s.status.cal = true → (o.stuck = true → o.presence = false) →
      Freed s u → Effect s u .owReset (if o.presence then .ok else .noPresence) (u.recordReset o)
  | sent (i : Instr) : i ∈ [Instr.writeBit, .writeByte, .select, .skip] → s.status.cal = true →
      u.pads = Pads.released → Effect s u i .ok u
  | sentHold : s.status.cal = true → u.pads = Pads.high → Effect s u .writeByteH .ok u
  | received (i : Instr) (v : Byte) : i ∈ [Instr.readBit, .readByte] → s.status.cal = true →
      u.pads = Pads.released → Effect s u i .ok (u.setData v)
  | depower : Freed s u → Effect s u .depower .ok u
  | exhausted : s.status.cal = true → s.search.term = true → u.pads = s.pads →
      Effect s u .searchNext .exhausted u.dropFound
  | noDevice (o : ResetOutcome) : s.status.cal = true → s.search.term = false →
      o.presence = false → Freed s u →
      Effect s u .searchNext .noPresence (u.recordReset o).clearSearch
  | dropped (r : ResultCode) (v : State) :
      s.status.cal = true → s.search.term = false → u.pads = Pads.released →
      (r = .busCollisionAbort ∧ v = u.recordReset ⟨true, false⟩
        ∨ r = .zeroFamily ∧ v = u.recordReset ⟨true, false⟩
        ∨ r = .crcMismatch ∧ v = (u.recordReset ⟨true, false⟩).checkCrc) →
      Effect s u .searchNext r v.clearSearch
  | found : s.status.cal = true → s.search.term = false → u.pads = Pads.released →
      romByte u.w.buf 0 ≠ 0x00#8 → validRom u.w.buf = true → ZerosBelow u.w 65 →
      Effect s u .searchNext .ok (u.recordReset ⟨true, false⟩).checkCrc.commitPass
  | searchReset : u.pads = s.pads → Effect s u .searchReset .ok u.clearSearch
  | targetSearch : u.pads = s.pads → Effect s u .targetSearch .ok u.seedSearch
  | crc8 : u.pads = s.pads → Effect s u .crc8 .ok u.advanceCrc8
  | crc16 : s.cfg.hasCrc16 = true → u.pads = s.pads → Effect s u .crc16 .ok u.advanceCrc16
  | calibrated (pass : Bool) : s.status.cal = false → s.status.calerr = false →
      u.pads = Pads.released →
      pass = decide (u.w.cal.toNat < u.w.tsample.toNat * u.cyclesPerUs) →
      (s.cfg.wf = true → Config.syncStages < u.w.cal.toNat) →
      Effect s u .calibrate (if pass then .ok else .calibrationError) (u.commitCalibration pass)

/-- What no commit writes. -/
theorem Effect.stays {s u v : State} {i : Instr} {r : ResultCode} (h : Effect s u i r v) :
    v.tsample = u.tsample ∧ v.selRomLo = u.selRomLo ∧ v.selRomHi = u.selRomHi ∧ v.cfg = u.cfg
      ∧ v.pads = u.pads ∧ v.wave = u.wave ∧ v.now = u.now ∧ v.reads = u.reads ∧ v.ie = u.ie
      ∧ v.port = u.port ∧ v.env = u.env ∧ v.status.ovr = u.status.ovr := by
  cases h
  case dropped h =>
    rcases h with ⟨_, rfl⟩ | ⟨_, rfl⟩ | ⟨_, rfl⟩ <;>
      exact ⟨rfl, rfl, rfl, rfl, rfl, rfl, rfl, rfl, rfl, rfl, rfl, rfl⟩
  case calibrated pass _ _ _ _ _ =>
    exact ⟨rfl, rfl, rfl, rfl, rfl, rfl, rfl, rfl, rfl, rfl, rfl, by cases pass <;> rfl⟩
  all_goals exact ⟨rfl, rfl, rfl, rfl, rfl, rfl, rfl, rfl, rfl, rfl, rfl, rfl⟩

/-- Every result a command completes with is one of the nine of 60_exceptions.md R187. -/
theorem Effect.named {s u v : State} {i : Instr} {r : ResultCode} (h : Effect s u i r v) :
    r.code.toNat ≤ 8 := by
  cases h
  case owReset o _ _ _ => cases o.presence <;> decide
  case dropped h => rcases h with ⟨rfl, _⟩ | ⟨rfl, _⟩ | ⟨rfl, _⟩ <;> decide
  case calibrated pass _ _ _ _ _ => cases pass <;> decide
  all_goals decide

/-- No command makes the block await a reset edge. -/
theorem Effect.awaitingReset {s u v : State} {i : Instr} {r : ResultCode} (h : Effect s u i r v) :
    v.awaitingReset = u.awaitingReset := by
  cases h
  case dropped h => rcases h with ⟨_, rfl⟩ | ⟨_, rfl⟩ | ⟨_, rfl⟩ <;> rfl
  all_goals rfl

theorem Did.awaitingReset {s t : State} (h : Did s t) : t.awaitingReset = s.awaitingReset := by
  obtain ⟨n, ev, h⟩ := h
  exact h.awaitingReset

/-- `beginLine` in the terms of `Did`. -/
theorem beginLine_did (s : State) :
    beginLine.Ends s (fun _ t => Did s t ∧ Freed s t) (CutShort s) :=
  (beginLine_ends s).mono (fun _ t h => ⟨h.1.did, h.2.1, fun hs => by rw [h.2.2.1, hs]; rfl⟩)
    (fun _ => id)

theorem busReset_did {s : State} (hb : s.status.busy = true) :
    busReset.Ends s (fun o t => Did s t ∧ (o.stuck = true → o.presence = false)
      ∧ (o.presence = true → o = ⟨true, false⟩) ∧ (s.pads.pu = false → Freed s t)) (CutShort s) := by
  refine (busReset_ends hb).mono (fun o t h => ?_) (fun _ => id)
  rcases h.2 with ⟨hs, hp, k, _, hr, _⟩ | ⟨rfl, hp, _, hr, _⟩
  · refine ⟨hr.did, fun h => by rw [hs] at h; exact absurd h (by decide), fun h => ?_,
      fun _ => ⟨by rw [hp]; rfl, fun _ => by rw [hp]; rfl⟩⟩
    cases o; simp_all
  · exact ⟨hr.did, fun _ => rfl, fun h => absurd h (by decide),
      fun h => ⟨by rw [hp]; exact h, fun h' => by rw [hp]; exact h'⟩⟩

theorem Freed.tail {s t u : State} (hf : Freed s t) (k : Freed t u) : Freed s u :=
  ⟨k.1, fun hs => k.2 (hf.2 hs)⟩

/-- A command accepted in `s` has come past its first edge. -/
def Began (s t : State) : Prop := Did s t ∧ s.now < t.now

theorem Did.now_le {s t : State} (h : Did s t) : s.now ≤ t.now := by
  obtain ⟨n, ev, h⟩ := h
  have e : t.now = s.now + n := h.now
  omega

theorem Began.did_then {s t u : State} (h : Began s t) (k : Did t u) : Began s u :=
  ⟨h.1.trans k, Nat.lt_of_lt_of_le h.2 k.now_le⟩

theorem Began.busy {s t : State} (h : Began s t) (hb : s.status.busy = true) : t.status.busy = true :=
  h.1.stays.1.trans hb

/-- A command accepted in `s` ends in an effect, or is cut short, when `m` is what is left to do in
`t`. -/
abbrev Has (i : Instr) (s : State) (m : Run ResultCode) (t : State) : Prop :=
  m.Ends t (fun r v => ∃ u, Began s u ∧ Effect s u i r v) (CutShort s)

theorem has_gated {i : Instr} {s t : State} {body : Run ResultCode} (hi : i ∈ gatedCommands)
    (h : Began s t) (hp : t.pads = s.pads) (hbody : s.status.cal = true → Has i s body t) :
    Has i s (gated body) t := by
  have hc := h.1.stays.2.2.2.2.2.2.1
  exact ends_gated.2 ⟨fun k => hbody (hc ▸ k), fun k => ⟨t, h, .gateClosed i hi (hc ▸ k) hp⟩⟩

theorem has_line {i : Instr} {s t : State} {body : Run ResultCode} (h : Began s t)
    (hp : t.pads = s.pads) (hbody : ∀ u, Began s u → Freed s u → Has i s body u) :
    Has i s (do beginLine; body) t :=
  did_then (beginLine_did t) (fun u hu => hu.afterDid h.1) fun _ u k f =>
    hbody u (h.did_then k) ⟨f.1, fun hs => f.2 (by rw [hp]; exact hs)⟩

theorem has_search {s t : State} (hb : s.status.busy = true) (hc : s.status.cal = true)
    (hterm : s.search.term = false) (h : Began s t) (hp : t.pads = s.pads) :
    Has .searchNext s searchOnBus t := by
  unfold searchOnBus
  refine has_line h hp fun t1 d1 f1 => ?_
  refine did_then (busReset_did (d1.busy hb)) (fun u hu => hu.afterDid d1.1)
    fun o t2 d2 q2 => ?_
  obtain ⟨-, q2b, q2c⟩ := q2
  have d02 := d1.did_then d2
  have f2 := f1.tail (q2c f1.1)
  cases hpres : o.presence with
  | false =>
    rw [if_neg (by decide), ends_bind, ends_change, ends_pure]
    exact ⟨t2, d02, .noDevice o hc hterm hpres f2⟩
  | true =>
    obtain rfl := q2b hpres
    rw [if_pos rfl]
    refine ends_then (txByte_ends (d02.busy hb) _) (fun u hu => hu.afterDid d02.1)
      fun _ t3 r3 q3 => ?_
    have d03 := d02.did_then r3.did
    rw [ends_bind, ends_change, ends_bind, ends_state]
    have d04 := d03.did_then (startPass_did t3)
    have z4 : ZerosBelow t3.startPass.w 1 := by
      simp [ZerosBelow, State.startPass]
    have p4 : t3.startPass.pads = Pads.released := q3.1
    generalize t3.startPass = t4 at d04 z4 p4
    refine did_then (searchPass_frees _ 64 1 (d04.busy hb) (by decide) (by decide) z4)
      (fun u hu => hu.afterDid d04.1) fun full t5 d5 q5 => ?_
    have d05 := d04.did_then d5
    have p5 := q5.1 p4
    rw [ends_bind, ends_change]
    cases full with
    | false =>
      rw [if_neg (by decide), ends_bind, ends_change, ends_pure]
      exact ⟨t5, d05, .dropped _ _ hc hterm p5 (.inl ⟨rfl, rfl⟩)⟩
    | true =>
      rw [if_pos rfl]
      refine (finishPass_ends _).mono (fun r v h => ?_) fun _ => id
      rcases h with ⟨rfl, -, rfl⟩ | ⟨rfl, -, -, rfl⟩ | ⟨rfl, hf, hv, rfl⟩
      · exact ⟨t5, d05, .dropped _ _ hc hterm p5 (.inr (.inl ⟨rfl, rfl⟩))⟩
      · exact ⟨t5, d05, .dropped _ _ hc hterm p5 (.inr (.inr ⟨rfl, rfl⟩))⟩
      · exact ⟨t5, d05, .found hc hterm p5 hf hv q5.2⟩

/-- A command, from what it does after its first cycle. -/
theorem effect_of {i : Instr} {s : State} {body : Run ResultCode} (hi : exec i s = command body s)
    (hb : s.status.busy = true)
    (h : ∀ t, Began s t → t.pads = s.pads → Has i s body t) :
    ∃ t, exec i s = .next t ∧ (CutShort s t ∨
      ∃ u v r, Began s u ∧ Effect s u i r v ∧ t = v.complete r) := by
  rw [hi]
  refine command_ends (P := fun t => CutShort s t ∨ ∃ u v r, Began s u ∧ Effect s u i r v
    ∧ t = v.complete r) ?_
  refine ends_then (tick_ends hb) (fun t ht => .inl ht) fun _ t1 r1 q1 => ?_
  have n1 := r1.now
  exact (h t1 ⟨r1.did, by omega⟩ q1.1).mono (fun r v hv =>
    let ⟨u, hu, he⟩ := hv; .inr ⟨u, v, r, hu, he, rfl⟩) (fun t ht => .inl ht)

/-- The inversion lemma: a command is cut short by a reset edge, or it completes, and then one of the
effects happened. -/
theorem exec_effect (i : Instr) {s : State} (hb : s.status.busy = true) :
    ∃ t, exec i s = .next t ∧ (CutShort s t ∨
      ∃ u v r, Began s u ∧ Effect s u i r v ∧ t = v.complete r) := by
  cases i with
  | nop => exact effect_of (body := return .ok) rfl hb fun t h hp => ⟨t, h, .nop hp⟩
  | owReset =>
    refine effect_of rfl hb fun t h hp => has_gated (by decide) h hp fun hc =>
      has_line h hp fun t1 d1 f1 => ?_
    refine did_then (busReset_did (d1.busy hb)) (fun u hu => hu.afterDid d1.1) fun o t2 d2 q2 => ?_
    rw [ends_bind, ends_change, ends_pure]
    exact ⟨t2, d1.did_then d2, .owReset o hc q2.1 (f1.tail (q2.2.2 f1.1))⟩
  | writeBit =>
    refine effect_of rfl hb fun t h hp => has_gated (by decide) h hp fun hc =>
      has_line h hp fun t1 d1 f1 => ?_
    rw [Has, ends_bind, ends_state]
    refine ends_then (writeSlot_ends (d1.busy hb) _) (fun u hu => hu.afterDid d1.1) fun _ t2 r2 q2 => ?_
    exact ⟨t2, d1.did_then r2.did, .sent _ (by decide) hc q2.1⟩
  | readBit =>
    refine effect_of rfl hb fun t h hp => has_gated (by decide) h hp fun hc =>
      has_line h hp fun t1 d1 f1 => ?_
    refine did_then (readSlot_frees (d1.busy hb)) (fun u hu => hu.afterDid d1.1) fun b t2 d2 q2 => ?_
    rw [ends_bind, ends_change, ends_pure]
    exact ⟨t2, d1.did_then d2, .received _ _ (by decide) hc q2⟩
  | writeByte =>
    refine effect_of rfl hb fun t h hp => has_gated (by decide) h hp fun hc =>
      has_line h hp fun t1 d1 f1 => ?_
    rw [Has, ends_bind, ends_state]
    refine ends_then (txByte_ends (d1.busy hb) _) (fun u hu => hu.afterDid d1.1) fun _ t2 r2 q2 => ?_
    exact ⟨t2, d1.did_then r2.did, .sent _ (by decide) hc q2.1⟩
  | writeByteH =>
    refine effect_of rfl hb fun t h hp => has_gated (by decide) h hp fun hc =>
      has_line h hp fun t1 d1 f1 => ?_
    rw [Has, ends_bind, ends_state]
    refine ends_then (txByte_ends (d1.busy hb) _) (fun u hu => hu.afterDid d1.1) fun _ t2 r2 q2 => ?_
    refine ends_then (drive_ends t2 Pads.high) (fun u hu => (hu.after r2).afterDid d1.1)
      fun _ t3 r3 q3 => ?_
    exact ⟨t3, d1.did_then (r2.trans r3).did, .sentHold hc q3.1⟩
  | readByte =>
    refine effect_of rfl hb fun t h hp => has_gated (by decide) h hp fun hc =>
      has_line h hp fun t1 d1 f1 => ?_
    refine did_then (rxByte_frees (d1.busy hb)) (fun u hu => hu.afterDid d1.1) fun b t2 d2 q2 => ?_
    rw [ends_bind, ends_change, ends_pure]
    exact ⟨t2, d1.did_then d2, .received _ _ (by decide) hc q2⟩
  | select =>
    refine effect_of rfl hb fun t h hp => has_gated (by decide) h hp fun hc =>
      has_line h hp fun t1 d1 f1 => ?_
    refine ends_then (txByte_ends (d1.busy hb) _) (fun u hu => hu.afterDid d1.1) fun _ t2 r2 q2 => ?_
    have d2 := d1.did_then r2.did
    rw [ends_bind, ends_state]
    refine ends_then (txRomBytes_ends _ _ (d2.busy hb)) (fun u hu => hu.afterDid d2.1)
      fun _ t3 r3 q3 => ?_
    exact ⟨t3, d2.did_then r3.did, .sent _ (by decide) hc (q3 (.inl q2.1))⟩
  | skip =>
    refine effect_of rfl hb fun t h hp => has_gated (by decide) h hp fun hc =>
      has_line h hp fun t1 d1 f1 => ?_
    refine ends_then (txByte_ends (d1.busy hb) _) (fun u hu => hu.afterDid d1.1) fun _ t2 r2 q2 => ?_
    exact ⟨t2, d1.did_then r2.did, .sent _ (by decide) hc q2.1⟩
  | depower =>
    refine effect_of rfl hb fun t h hp => has_line h hp fun t1 d1 f1 => ?_
    exact ⟨t1, d1, .depower f1⟩
  | searchNext =>
    refine effect_of rfl hb fun t h hp => has_gated (by decide) h hp fun hc => ?_
    have hs : t.search = s.search := h.1.stays.2.2.2.2.1
    rw [Has, ends_bind, ends_state, hs]
    cases hterm : s.search.term with
    | true =>
      rw [if_pos rfl, ends_bind, ends_change, ends_pure]
      exact ⟨t, h, .exhausted hc hterm hp⟩
    | false =>
      rw [if_neg (by decide)]
      exact has_search hb hc hterm h hp
  | searchReset => exact effect_of rfl hb fun t h hp => ⟨t, h, .searchReset hp⟩
  | targetSearch => exact effect_of rfl hb fun t h hp => ⟨t, h, .targetSearch hp⟩
  | crc8 => exact effect_of rfl hb fun t h hp => ⟨t, h, .crc8 hp⟩
  | crc16 =>
    refine effect_of rfl hb fun t h hp => ?_
    have hcfg : t.cfg = s.cfg := h.1.stays.2.2.2.2.2.1
    rw [Has, ends_bind, ends_state, hcfg]
    cases hc : s.cfg.hasCrc16 with
    | true =>
      rw [if_pos rfl, ends_bind, ends_change, ends_pure]
      exact ⟨t, h, .crc16 hc hp⟩
    | false =>
      rw [if_neg (by decide), ends_pure]
      exact ⟨t, h, .illegal _ (.inr (.inl ⟨rfl, hc⟩)) hp⟩
  | calibrate =>
    refine effect_of rfl hb fun t h hp => ?_
    have e1 : t.status.cal = s.status.cal := h.1.stays.2.2.2.2.2.2.1
    have e2 : t.status.calerr = s.status.calerr := h.1.stays.2.2.2.2.2.2.2
    rw [Has, ends_bind, ends_state, e1, e2]
    by_cases hc : (s.status.cal || s.status.calerr) = true
    · rw [if_pos hc, ends_pure]
      exact ⟨t, h, .illegal _ (.inr (.inr ⟨rfl, Bool.or_eq_true_iff.1 hc⟩)) hp⟩
    · rw [if_neg hc]
      simp only [Bool.or_eq_true, not_or, Bool.not_eq_true] at hc
      refine has_line h hp fun t1 d1 f1 => ?_
      refine ends_then (drive_ends t1 Pads.low) (fun u hu => hu.afterDid d1.1) fun _ t2 r2 q2 => ?_
      have d2 := d1.did_then r2.did
      refine ends_then (waitUs_ends (d2.busy hb) _) (fun u hu => hu.afterDid d2.1)
        fun _ t3 r3 q3 => ?_
      have d3 := d2.did_then r3.did
      refine ends_then (drive_ends t3 Pads.released) (fun u hu => hu.afterDid d3.1)
        fun _ t4 r4 q4 => ?_
      have d4 := d3.did_then r4.did
      rw [ends_bind, ends_change]
      have hcfg : t4.cfg = s.cfg := d4.1.stays.2.2.2.2.2.1
      have hcu : t1.cyclesPerUs = s.cyclesPerUs := by
        simp only [State.cyclesPerUs, d1.1.stays.2.2.2.2.2.1]
      have hc8 : s.cyclesPerUs < 256 := s.cfg.clkPerUs.isLt
      have n2 := r2.now
      have n3 := r3.now
      have n4 := r4.now
      have w4 : t4.wave = ⟨t4.now, Pads.released⟩ :: ⟨t1.now, Pads.low⟩ :: t1.wave := by
        rw [r4.wave, r3.wave, r2.wave, n4]; rfl
      rw [r2.cyclesPerUs, hcu] at n3
      have e5 : (t4.setCounter noLatency).w.cal = noLatency := rfl
      have w5 : (t4.setCounter noLatency).wave
          = ⟨(t4.setCounter noLatency).now, Pads.released⟩ :: ⟨t1.now, Pads.low⟩ :: t1.wave := w4
      have n5 : (t4.setCounter noLatency).now = t1.now + s.cyclesPerUs := by
        have e : Config.tW1l * s.cyclesPerUs = s.cyclesPerUs := Nat.one_mul _
        change t4.now = _
        omega
      have p5 : (t4.setCounter noLatency).pads = Pads.released := q4.1
      have u5 : t.cyclesPerUs = s.cyclesPerUs := by
        simp only [State.cyclesPerUs, h.1.stays.2.2.2.2.2.1]
      have d5 := d4.did_then (setCounter_did t4 noLatency)
      generalize t4.setCounter noLatency = t5 at e5 w5 n5 p5 d5
      refine did_then (measure_did (d5.busy hb) e5 (by rw [u5]; change 1 + 60 * _ ≤ _; omega) n5 w5)
        (fun u hu => hu.afterDid d5.1) fun _ t6 d6 q6 => ?_
      have p6 : t6.pads = Pads.released := q6.1.trans p5
      rw [ends_bind, ends_state, ends_bind, ends_change, ends_pure]
      refine ⟨t6, d5.did_then d6, .calibrated _ hc.1 hc.2 p6 rfl fun hwf => q6.2 ?_⟩
      simp only [Config.wf, Bool.and_eq_true, decide_eq_true_eq] at hwf
      exact hwf.1.1
  | reserved =>
    exact effect_of (body := return .illegalCmd) rfl hb fun t h hp => ⟨t, h, .illegal _ (.inl rfl) hp⟩

end Sys2Proof.Machine
end

