-- ==== Sys2Proof/Laws/Host.lean ====
section
/-! SUPPORT. What every command is made of (`Piece`), said once, so that a fact about two runs of a command
is proved by one induction; and the first such fact: the host cannot disturb a running command
(20_memory.md R81). -/

namespace Sys2Proof.Machine

variable {α β : Type}

/-! ### What a command is made of -/

/-- The host's part of a state: what the sequencer neither reads nor writes. -/
structure HostPart where
  bits : HostBits
  port : List PortCycle
  reads : List ReadAnswer

/-- `s` with another host's part. -/
def State.withHost (s : State) (h : HostPart) : State :=
  { s with
    status := { s.status with done := h.bits.done, ovr := h.bits.ovr }
    ie := h.bits.ie, port := h.port, reads := h.reads }

/-- The host's part of `s`. -/
def State.hostPart (s : State) : HostPart := ⟨s.hostBits, s.port, s.reads⟩

@[simp] theorem State.withHost_hostPart (s : State) : s.withHost s.hostPart = s := rfl
@[simp] theorem State.hostPart_withHost (s : State) (h : HostPart) : (s.withHost h).hostPart = h := rfl

/-- A change of the state that takes no time, neither reads nor writes the host's part, and makes pad
events at the current edge only. -/
structure Quiet (f : State → State) : Prop where
  host : ∀ s h, f (s.withHost h) = (f s).withHost h
  busy : ∀ s, (f s).status.busy = s.status.busy
  now : ∀ s, (f s).now = s.now
  wave : ∀ s, ∃ ev, (f s).wave = ev ++ s.wave ∧ ∀ e ∈ ev, e.edge = s.now

/-- A quiet change leaves the host's part. -/
theorem Quiet.hostPart {f : State → State} (hf : Quiet f) (s : State) : (f s).hostPart = s.hostPart := by
  conv_lhs => rw [← s.withHost_hostPart, hf.host, State.hostPart_withHost]

/-- What a command's pseudocode is made of: it looks at the sequencer's part of the state, changes that
part, and lets time pass, which is all that can tell what the host does. -/
inductive Piece : {α : Type} → Run α → Prop
  | pure {α : Type} (a : α) : Piece (pure a : Run α)
  | bind {α β : Type} {m : Run α} {f : α → Run β} : Piece m → (∀ a, Piece (f a)) → Piece (m >>= f)
  | state {β : Type} {f : State → Run β} : (∀ s h, f (s.withHost h) = f s) → (∀ s, Piece (f s)) →
      Piece (Run.state >>= f)
  | change {f : State → State} : Quiet f → Piece (Run.change f)
  | cycles (n : Nat) : Piece (cycles n)

theorem Piece.ite {c : Prop} [Decidable c] {m n : Run α} (hm : Piece m) (hn : Piece n) :
    Piece (if c then m else n) := by
  by_cases h : c <;> simpa [h]

/-- A change that makes no pad event. -/
theorem piece_change {f : State → State} (host : ∀ s h, f (s.withHost h) = (f s).withHost h)
    (busy : ∀ s, (f s).status.busy = s.status.busy) (now : ∀ s, (f s).now = s.now)
    (wave : ∀ s, (f s).wave = s.wave) : Piece (Run.change f) :=
  .change ⟨host, busy, now, fun s => ⟨[], wave s, by simp⟩⟩

theorem piece_countStep : Piece (Run.change State.countStep) :=
  piece_change (fun _ _ => rfl) (fun _ => rfl) (fun _ => rfl) (fun _ => rfl)

theorem piece_tick : Piece tick := .cycles 1

theorem piece_waitUs (n : Nat) : Piece (waitUs n) := .state (fun _ _ => rfl) fun _ => .cycles _

theorem piece_drive (p : Pads) : Piece (drive p) :=
  .change ⟨fun _ _ => rfl, fun _ => rfl, fun _ => rfl, fun s => ⟨[⟨s.now, p⟩], rfl, by simp⟩⟩

theorem piece_announceRead : Piece (Run.change State.announceRead) :=
  piece_change (fun _ _ => rfl) (fun _ => rfl) (fun _ => rfl) (fun _ => rfl)

theorem piece_sample : Piece sample :=
  .bind piece_countStep fun _ => .state (fun _ _ => rfl) fun _ => .pure _

theorem piece_beginLine : Piece beginLine :=
  .state (fun _ _ => rfl) fun _ => .ite (piece_drive _) (.pure _)

theorem piece_writeSlot (b : Bool) : Piece (writeSlot b) :=
  .bind (piece_drive _) fun _ => .ite
    (.bind (piece_waitUs _) fun _ => .bind (piece_drive _) fun _ => piece_waitUs _)
    (.bind (piece_waitUs _) fun _ => .bind (piece_drive _) fun _ => piece_waitUs _)

theorem piece_readSlot : Piece readSlot :=
  .state (fun _ _ => rfl) fun _ => .bind piece_announceRead fun _ => .bind (piece_drive _) fun _ =>
    .bind (piece_waitUs _) fun _ => .bind (piece_drive _) fun _ => .bind (piece_waitUs _) fun _ =>
    .bind piece_sample fun _ => .bind (piece_waitUs _) fun _ => .pure _

theorem piece_txBits (v : Byte) (is : List Nat) : Piece (txBits v is) := by
  induction is with
  | nil => exact .pure ()
  | cons i is ih => exact .bind (piece_writeSlot _) fun _ => ih

theorem piece_setShift (v : Byte) : Piece (Run.change fun s => s.setShift v) :=
  piece_change (fun _ _ => rfl) (fun _ => rfl) (fun _ => rfl) (fun _ => rfl)

theorem piece_txByte (v : Byte) : Piece (txByte v) :=
  .bind (piece_setShift v) fun _ => piece_txBits _ _

theorem piece_rxBits (is : List Nat) : Piece (rxBits is) := by
  induction is with
  | nil => exact .pure ()
  | cons i is ih =>
    exact .bind piece_readSlot fun b => .bind
      (piece_change (fun _ _ => rfl) (fun _ => rfl) (fun _ => rfl) (fun _ => rfl)) fun _ => ih

theorem piece_rxByte : Piece rxByte :=
  .bind (piece_setShift _) fun _ => .bind (piece_rxBits _) fun _ =>
    .state (fun _ _ => rfl) fun _ => .pure _

theorem piece_idleCheck (left : Nat) : Piece (idleCheck left) := by
  induction left with
  | zero => exact .pure _
  | succ left ih =>
    exact .bind piece_sample fun _ => .ite (.pure _)
      (.ite (.pure _) (.bind (piece_waitUs _) fun _ => ih))

theorem piece_busReset : Piece busReset :=
  .bind (piece_idleCheck _) fun _ => .ite
    (.bind (piece_drive _) fun _ => .bind (piece_waitUs _) fun _ => .bind (piece_drive _) fun _ =>
      .bind (piece_waitUs _) fun _ => .bind piece_sample fun _ => .bind (piece_waitUs _) fun _ => .pure _)
    (.pure _)

theorem piece_gated {body : Run ResultCode} (h : Piece body) : Piece (gated body) :=
  .state (fun _ _ => rfl) fun _ => .ite h (.pure _)

/-- A gated command that uses the line. -/
theorem piece_line {body : Run ResultCode} (h : Piece body) : Piece (gated (do beginLine; body)) :=
  piece_gated (.bind piece_beginLine fun _ => h)

theorem piece_txRomBytes (rom : RomCode) (is : List Nat) : Piece (txRomBytes rom is) := by
  induction is with
  | nil => exact .pure ()
  | cons i is ih => exact .bind (piece_txByte _) fun _ => ih

theorem piece_searchPass (ld : Nat) (ns : List Nat) : Piece (searchPass ld ns) := by
  induction ns with
  | nil => exact .pure _
  | cons n ns ih =>
    refine .bind (piece_change (fun _ _ => rfl) (fun _ => rfl) (fun _ => rfl) (fun _ => rfl)) fun _ =>
      .bind piece_readSlot fun _ => .bind piece_readSlot fun _ =>
      .ite (.pure _) (.state (fun _ _ => rfl) fun _ => ?_)
    exact .bind (piece_change (fun _ _ => rfl) (fun _ => rfl) (fun _ => rfl) (fun _ => rfl)) fun _ =>
      .bind (piece_writeSlot _) fun _ => ih

/-- A change without a pad event, and then a result: how a command ends. -/
theorem piece_commit {f : State → State} (r : ResultCode)
    (host : ∀ s h, f (s.withHost h) = (f s).withHost h)
    (busy : ∀ s, (f s).status.busy = s.status.busy) (now : ∀ s, (f s).now = s.now)
    (wave : ∀ s, (f s).wave = s.wave) : Piece (do Run.change f; return r : Run ResultCode) :=
  .bind (piece_change host busy now wave) fun _ => .pure _

theorem piece_finishPass : Piece finishPass :=
  .state (fun _ _ => rfl) fun _ => .ite
    (piece_commit _ (fun _ _ => rfl) (fun _ => rfl) (fun _ => rfl) (fun _ => rfl))
    (.bind (piece_change (fun _ _ => rfl) (fun _ => rfl) (fun _ => rfl) (fun _ => rfl)) fun _ => .ite
      (piece_commit _ (fun _ _ => rfl) (fun _ => rfl) (fun _ => rfl) (fun _ => rfl))
      (piece_commit _ (fun _ _ => rfl) (fun _ => rfl) (fun _ => rfl) (fun _ => rfl)))

theorem piece_searchOnBus : Piece searchOnBus :=
  .bind piece_beginLine fun _ => .bind piece_busReset fun _ => .ite
    (.bind (piece_txByte _) fun _ => .bind
      (piece_change (fun _ _ => rfl) (fun _ => rfl) (fun _ => rfl) (fun _ => rfl)) fun _ =>
      .state (fun _ _ => rfl) fun _ => .bind (piece_searchPass _ _) fun _ => .bind
      (piece_change (fun _ _ => rfl) (fun _ => rfl) (fun _ => rfl) (fun _ => rfl)) fun _ =>
      .ite piece_finishPass
        (piece_commit _ (fun _ _ => rfl) (fun _ => rfl) (fun _ => rfl) (fun _ => rfl)))
    (piece_commit _ (fun _ _ => rfl) (fun _ => rfl) (fun _ => rfl) (fun _ => rfl))

theorem piece_measure (left : Nat) : ∀ j, Piece (measure left j) := by
  induction left with
  | zero => intro j; exact .pure ()
  | succ left ih =>
    intro j
    exact .bind piece_tick fun _ => .state (fun _ _ => rfl) fun _ => .ite
      (.bind piece_sample fun _ => .ite
        (.bind (piece_change (fun _ _ => rfl) (fun _ => rfl) (fun _ => rfl) (fun _ => rfl)) fun _ => ih _)
        (ih _)) (ih _)

theorem exec_of {i : Instr} {body : Run ResultCode} (hi : ∀ s, exec i s = command body s)
    (h : Piece body) : ∃ body : Run ResultCode, Piece body ∧ ∀ s, exec i s = command body s :=
  ⟨body, h, hi⟩

/-- Every command is made of these pieces. -/
theorem exec_piece (i : Instr) : ∃ body : Run ResultCode, Piece body ∧ ∀ s, exec i s = command body s := by
  have data : ∀ v : Byte, Piece (do Run.change fun s => s.setData v; return .ok : Run ResultCode) :=
    fun _ => piece_commit _ (fun _ _ => rfl) (fun _ => rfl) (fun _ => rfl) (fun _ => rfl)
  cases i with
  | nop => exact exec_of (body := return .ok) (fun _ => rfl) (.pure _)
  | owReset =>
    exact exec_of (fun _ => rfl) <| piece_line <| .bind piece_busReset fun _ => .bind
      (piece_change (fun _ _ => rfl) (fun _ => rfl) (fun _ => rfl) (fun _ => rfl)) fun _ => .pure _
  | writeBit =>
    exact exec_of (fun _ => rfl) <| piece_line <| .state (fun _ _ => rfl) fun _ =>
      .bind (piece_writeSlot _) fun _ => .pure _
  | readBit => exact exec_of (fun _ => rfl) <| piece_line <| .bind piece_readSlot fun _ => data _
  | writeByte =>
    exact exec_of (fun _ => rfl) <| piece_line <| .state (fun _ _ => rfl) fun _ =>
      .bind (piece_txByte _) fun _ => .pure _
  | writeByteH =>
    exact exec_of (fun _ => rfl) <| piece_line <| .state (fun _ _ => rfl) fun _ =>
      .bind (piece_txByte _) fun _ => .bind (piece_drive _) fun _ => .pure _
  | readByte => exact exec_of (fun _ => rfl) <| piece_line <| .bind piece_rxByte fun _ => data _
  | select =>
    exact exec_of (fun _ => rfl) <| piece_line <| .bind (piece_txByte _) fun _ =>
      .state (fun _ _ => rfl) fun _ => .bind (piece_txRomBytes _ _) fun _ => .pure _
  | skip =>
    exact exec_of (fun _ => rfl) <| piece_line <| .bind (piece_txByte _) fun _ => .pure _
  | depower => exact exec_of (fun _ => rfl) <| .bind piece_beginLine fun _ => .pure _
  | searchNext =>
    exact exec_of (fun _ => rfl) <| piece_gated <| .state (fun _ _ => rfl) fun _ => .ite
      (piece_commit _ (fun _ _ => rfl) (fun _ => rfl) (fun _ => rfl) (fun _ => rfl)) piece_searchOnBus
  | searchReset =>
    exact exec_of (fun _ => rfl)
      (piece_commit _ (fun _ _ => rfl) (fun _ => rfl) (fun _ => rfl) (fun _ => rfl))
  | targetSearch =>
    exact exec_of (fun _ => rfl)
      (piece_commit _ (fun _ _ => rfl) (fun _ => rfl) (fun _ => rfl) (fun _ => rfl))
  | crc8 =>
    exact exec_of (fun _ => rfl)
      (piece_commit _ (fun _ _ => rfl) (fun _ => rfl) (fun _ => rfl) (fun _ => rfl))
  | crc16 =>
    exact exec_of (fun _ => rfl) <| .state (fun _ _ => rfl) fun _ => .ite
      (piece_commit _ (fun _ _ => rfl) (fun _ => rfl) (fun _ => rfl) (fun _ => rfl)) (.pure _)
  | calibrate =>
    refine exec_of (fun _ => rfl) <| .state (fun _ _ => rfl) fun _ => .ite (.pure _) <|
      .bind piece_beginLine fun _ => .bind (piece_drive _) fun _ => .bind (piece_waitUs _) fun _ =>
      .bind (piece_drive _) fun _ => .bind
        (piece_change (fun _ _ => rfl) (fun _ => rfl) (fun _ => rfl) (fun _ => rfl)) fun _ =>
      .bind (piece_measure _ _) fun _ => .state (fun _ _ => rfl) fun u => .bind ?_ fun _ => .pure _
    cases decide (u.w.cal.toNat < u.w.tsample.toNat * u.cyclesPerUs) <;>
      exact piece_change (fun _ _ => rfl) (fun _ => rfl) (fun _ => rfl) (fun _ => rfl)
  | reserved => exact exec_of (body := return .illegalCmd) (fun _ => rfl) (.pure _)

/-! ### With the host and without it -/

/-- `s'` is `s` without the host: it differs at most in DONE, OVR, IE, the port and the answers. -/
structure SameRun (s s' : State) : Prop where
  eq : s' = { s with
    status := { s.status with done := s'.status.done, ovr := s'.status.ovr }
    ie := s'.ie, port := s'.port, reads := s'.reads }
  silent : s'.port = []

namespace SameRun

variable {s s' : State}

theorem status (h : SameRun s s') :
    s'.status = { s.status with done := s'.status.done, ovr := s'.status.ovr } :=
  (congrArg State.status h.eq :)
theorem w (h : SameRun s s') : s'.w = s.w := (congrArg State.w h.eq :)
theorem cfg (h : SameRun s s') : s'.cfg = s.cfg := (congrArg State.cfg h.eq :)
theorem pads (h : SameRun s s') : s'.pads = s.pads := (congrArg State.pads h.eq :)
theorem now (h : SameRun s s') : s'.now = s.now := (congrArg State.now h.eq :)
theorem wave (h : SameRun s s') : s'.wave = s.wave := (congrArg State.wave h.eq :)
theorem env (h : SameRun s s') : s'.env = s.env := (congrArg State.env h.eq :)
theorem search (h : SameRun s s') : s'.search = s.search := (congrArg State.search h.eq :)
theorem cal (h : SameRun s s') : s'.status.cal = s.status.cal := (congrArg Status.cal h.status :)
theorem calerr (h : SameRun s s') : s'.status.calerr = s.status.calerr :=
  (congrArg Status.calerr h.status :)
theorem busy (h : SameRun s s') : s'.status.busy = s.status.busy := (congrArg Status.busy h.status :)
theorem cyclesPerUs (h : SameRun s s') : s'.cyclesPerUs = s.cyclesPerUs := by
  simp only [State.cyclesPerUs, h.cfg]
theorem lineLevel (h : SameRun s s') (u : Nat) : s'.lineLevel u = s.lineLevel u := by
  simp only [State.lineLevel, h.wave, h.env]

theorem withHost (h : SameRun s s') : s' = s.withHost s'.hostPart := h.eq

theorem of_withHost (h : s' = s.withHost s'.hostPart) (hs : s'.port = []) : SameRun s s' := ⟨h, hs⟩

end SameRun

/-- The host's part that a run without accesses keeps. -/
def HostKept (s t : State) : Prop :=
  t.ie = s.ie ∧ t.status.ovr = s.status.ovr ∧ t.reads = s.reads

/-- `m` ends with the same value, and in the same state but for the host's part, with the host and
without it. -/
def Blind (m : Run α) : Prop :=
  ∀ s s', SameRun s s' → NoReset s → s.status.busy = true →
    ∃ a t t', m s = .ok a t ∧ m s' = .ok a t' ∧ SameRun t t' ∧ NoReset t ∧ t.status.busy = true
      ∧ HostKept s' t'

/-! ### Time -/

/-- The working registers after a wait: only the timer has run down. -/
theorem passCycles_w (l : List PortCycle) : ∀ (n : Nat) (s : State), s.status.busy = true →
    s.port = l →
      (passCycles l n).Ends s (fun _ t => t.w = { s.w with timer := 0 }) (fun _ => True) := by
  induction l with
  | nil => intro n s _ _; rfl
  | cons c rest ih =>
    intro n s hb hp
    unfold Run.Ends passCycles
    by_cases hn : c.gap < n
    · simp only [hn, if_true]
      cases hc : c.rst with
      | true => trivial
      | false =>
        simp only [Bool.false_eq_true, if_false]
        obtain ⟨h1, h2, -⟩ := nextPortCycle_ran (left := n - (c.gap + 1)) hb hp hc
        have hw : (s.nextPortCycle c rest (n - (c.gap + 1))).w
            = { s.w with timer := n - (c.gap + 1) } := by
          simp only [State.nextPortCycle, State.portEdge, hc, Bool.false_eq_true, if_false]
          cases c.access with
          | none => rfl
          | some a => exact congrArg State.w (hostAccess_busy (s := { s with
              now := s.now + (c.gap + 1), port := rest
              w := { s.w with timer := n - (c.gap + 1) } }) hb a).1
        refine Run.Ends.mono (ih _ _ (h1.busy.trans hb) h2) (fun _ t ht => ?_) (fun _ => id)
        rw [ht, hw]
    · simp only [hn, if_false]
      rfl

theorem blind_cycles (n : Nat) : Blind (cycles n) := by
  intro s s' h hn hb
  have e := passCycles_ends s.port n s.countStep hb rfl
  have ew := passCycles_w s.port n s.countStep hb rfl
  unfold Run.Ends at e ew
  cases hm : passCycles s.port n s.countStep with
  | error x t => rw [hm] at e; exact absurd hn e.asked
  | ok a t =>
    rw [hm] at e ew
    obtain ⟨r, p, v, -⟩ := e
    have hp' : s'.port = [] := h.silent
    have hm' : cycles n s' = .ok () (s'.countStep.quietCycles n []) := by
      simp only [cycles, hp', passCycles]
    refine ⟨a, t, s'.countStep.quietCycles n [], hm, hm', ⟨?_, rfl⟩, r.noReset hn, r.busy.trans hb,
      rfl, rfl, rfl⟩
    have hf := r.frame
    rw [hf]
    have hn' := r.now
    have hw' := r.wave
    have hs := h.status
    simp only [State.quietCycles, State.countStep, List.nil_append] at *
    rw [ew, v, p, hn', hw', h.eq]

/-- Every command is blind to the host (20_memory.md R81). -/
theorem Piece.blind {m : Run α} (h : Piece m) : Blind m := by
  induction h with
  | pure a => exact fun s s' h hn hb => ⟨a, s, s', rfl, rfl, h, hn, hb, rfl, rfl, rfl⟩
  | bind _ _ hm hf =>
    intro s s' h hn hb
    obtain ⟨a, t, t', e, e', ht, hnt, hbt, k1, k2, k3⟩ := hm s s' h hn hb
    obtain ⟨b, u, u', d, d', hu, hnu, hbu, l1, l2, l3⟩ := hf a t t' ht hnt hbt
    refine ⟨b, u, u', ?_, ?_, hu, hnu, hbu, l1.trans k1, l2.trans k2, l3.trans k3⟩
    · simp only [Bind.bind, EStateM.bind, e, d]
    · simp only [Bind.bind, EStateM.bind, e', d']
  | @state _ f hs _ hf =>
    intro s s' h hn hb
    obtain ⟨b, u, u', d, d', hu⟩ := hf s s s' h hn hb
    have e : f s' = f s := by rw [h.withHost, hs]
    exact ⟨b, u, u', d, by rw [← e] at d'; exact d', hu⟩
  | @change f hf =>
    intro s s' h hn hb
    have hp := hf.hostPart s
    have hp' := hf.hostPart s'
    refine ⟨(), f s, f s', rfl, rfl, SameRun.of_withHost ?_ ?_, ?_, (hf.busy s).trans hb, ?_, ?_, ?_⟩
    · rw [hp', ← hf.host, ← h.withHost]
    · exact (congrArg HostPart.port hp').trans h.silent
    · intro c hc
      exact hn c (by rw [← show (f s).port = s.port from congrArg HostPart.port hp]; exact hc)
    · exact congrArg (fun p : HostPart => p.bits.ie) hp'
    · exact congrArg (fun p : HostPart => p.bits.ovr) hp'
    · exact congrArg HostPart.reads hp'
  | cycles n => exact blind_cycles n

end Sys2Proof.Machine
end

