-- ==== Sys2Proof/Laws/PerInstr.lean ====
section
/-! SUPPORT. Statements made for each command, as syntax. -/

namespace Sys2Proof.Laws.Row

/-- The word of a command sets no bit outside those its row of the opcode table fixes (30_encoding.md
R91, R105), the table's 32 bits of it decode to the command (R90, R94), and a build with the optional CRC
offers it unless it is the reserved row (R92). -/
def Statement (i : Instr) : Prop :=
  encode i &&& ~~~rowMask i = 0#32
    ∧ decodeTableWord 32 (encode i).toNat = some i
    ∧ ∀ cfg : Config, cfg.hasCrc16 = true → (i.legal cfg = true ↔ i ≠ .reserved)

/-- Every lemma of the family: its three parts by evaluation, for one command. -/
theorem of_parts {i : Instr} (h : encode i &&& ~~~rowMask i = 0#32)
    (d : decodeTableWord 32 (encode i).toNat = some i)
    (l : ∀ cfg : Config, cfg.hasCrc16 = true → (i.legal cfg = true ↔ i ≠ .reserved)) :
    Statement i := ⟨h, d, l⟩

theorem nop : Statement .nop := of_parts rfl rfl (by simp [Instr.legal])
theorem owReset : Statement .owReset := of_parts rfl rfl (by simp [Instr.legal])
theorem writeBit : Statement .writeBit := of_parts rfl rfl (by simp [Instr.legal])
theorem readBit : Statement .readBit := of_parts rfl rfl (by simp [Instr.legal])
theorem writeByte : Statement .writeByte := of_parts rfl rfl (by simp [Instr.legal])
theorem writeByteH : Statement .writeByteH := of_parts rfl rfl (by simp [Instr.legal])
theorem readByte : Statement .readByte := of_parts rfl rfl (by simp [Instr.legal])
theorem select : Statement .select := of_parts rfl rfl (by simp [Instr.legal])
theorem skip : Statement .skip := of_parts rfl rfl (by simp [Instr.legal])
theorem depower : Statement .depower := of_parts rfl rfl (by simp [Instr.legal])
theorem searchNext : Statement .searchNext := of_parts rfl rfl (by simp [Instr.legal])
theorem searchReset : Statement .searchReset := of_parts rfl rfl (by simp [Instr.legal])
theorem targetSearch : Statement .targetSearch := of_parts rfl rfl (by simp [Instr.legal])
theorem crc8 : Statement .crc8 := of_parts rfl rfl (by simp [Instr.legal])
theorem crc16 : Statement .crc16 := of_parts rfl rfl (by simp [Instr.legal])
theorem calibrate : Statement .calibrate := of_parts rfl rfl (by simp [Instr.legal])
theorem reserved : Statement .reserved := of_parts rfl rfl (by simp [Instr.legal])

end Sys2Proof.Laws.Row
end

