-- ==== Sys2Proof/Laws/Port.lean ====
section
/-! SUPPORT. Everything the idle block and the register port can do, said once. -/

namespace Sys2Proof.Machine

/-- `s` once `n` more cycles have passed and the port carries `port`. -/
def State.after (s : State) (n : Nat) (port : List PortCycle) : State :=
  { s with now := s.now + n, port := port }

/-- Every way the idle block's step can end (10_state.md R59, 70_reset_and_hazards.md R207, R225): time
has passed, or there was also a host access, or a reset edge. -/
inductive IdleEffect (s : State) : State → Prop
  | quiet (n : Nat) (port : List PortCycle) : 1 ≤ n → (NoReset s → ∀ c ∈ port, c.rst = false) →
      IdleEffect s (s.after n port)
  | access (n : Nat) (port : List PortCycle) (a : Access) : 1 ≤ n →
      (NoReset s → ∀ c ∈ port, c.rst = false) → IdleEffect s ((s.after n port).hostAccess a)
  | reset (n : Nat) (port : List PortCycle) (reads : List ReadAnswer) : 1 ≤ n → ¬NoReset s →
      IdleEffect s ({ s.after n port with reads := reads }).resetEdge

theorem idle_effect (s : State) : IdleEffect s s.idle := by
  unfold State.idle
  cases hp : s.port with
  | nil => exact .quiet 1 [] (Nat.le_refl 1) (fun _ => by simp)
  | cons c rest =>
    have hrest : NoReset s → ∀ d ∈ rest, d.rst = false := fun h d hd =>
      h d (by rw [hp]; exact List.mem_cons_of_mem _ hd)
    have hn : 1 ≤ c.gap + 1 := Nat.le_add_left 1 _
    simp only [State.portEdge]
    cases hc : c.rst with
    | true =>
      have asked : ¬NoReset s := fun h => by
        have := h c (by rw [hp]; exact List.mem_cons_self)
        rw [hc] at this; exact absurd this (by decide)
      simp only [if_true]
      cases c.access with
      | none => exact .reset _ rest s.reads hn asked
      | some a =>
        cases a with
        | read x => exact .reset _ rest _ hn asked
        | write x v => exact .reset _ rest s.reads hn asked
    | false =>
      simp only [Bool.false_eq_true, if_false]
      cases c.access with
      | none => exact .quiet _ rest hn hrest
      | some a => exact .access _ rest a hn hrest

/-- Every way a host access to an idle block can end (20_memory.md R72). -/
inductive AccessEffect (s : State) : State → Prop
  | read (b : ReadAnswer) : b.edge = s.now → b.value = s.readReg (regAt b.word) →
      AccessEffect s { s with reads := b :: s.reads }
  | nothing : AccessEffect s s
  | accepted (v : Word) : AccessEffect s (s.accept v)
  | status (v : Word) : AccessEffect s { s with status := s.status.clearOnes v }
  | data (v : Byte) : AccessEffect s { s with data := v }
  | config (b : Bool) : AccessEffect s { s with ie := b }
  | tsample (v : Byte) : s.tsampleLocked = false → legalTsample v = true →
      AccessEffect s { s with tsample := v }
  | selRomLo (v : Word) : AccessEffect s { s with selRomLo := v }
  | selRomHi (v : Word) : AccessEffect s { s with selRomHi := v }
  | crc8 (v : Byte) : AccessEffect s { s with crc8 := v }
  | crc16 (v : BitVec 16) : s.cfg.hasCrc16 = true → AccessEffect s { s with crc16 := v }

theorem access_effect {s : State} (hb : s.status.busy = false) (a : Access) :
    AccessEffect s (s.hostAccess a) := by
  cases a with
  | read x => exact .read ⟨s.now, x, _⟩ rfl rfl
  | write x v =>
    have hb' : ¬s.status.busy = true := by rw [hb]; decide
    simp only [State.hostAccess]
    generalize regAt x = r
    cases r <;> simp only [State.writeReg, hb, Bool.false_eq_true, if_false]
    case cmd => exact .accepted v
    case status => exact .status v
    case data => exact .data _
    case config => exact .config _
    case tsample =>
      split
      · exact .nothing
      · rename_i h
        simp only [Bool.or_eq_true, Bool.not_eq_true', not_or, Bool.not_eq_true,
          Bool.not_eq_false] at h
        exact .tsample _ h.1 h.2
    case selRomLo => exact .selRomLo _
    case selRomHi => exact .selRomHi _
    case crc8 => exact .crc8 _
    case crc16 =>
      cases h : s.cfg.hasCrc16 with
      | true => exact .crc16 _ h
      | false => exact .nothing
    all_goals exact .nothing

/-- A host access changes neither the build, nor the clock, nor that a reset edge is awaited. -/
theorem hostAccess_keeps (s : State) (a : Access) :
    (s.hostAccess a).cfg = s.cfg ∧ (s.hostAccess a).now = s.now
      ∧ (s.hostAccess a).awaitingReset = s.awaitingReset := by
  cases a with
  | read x => exact ⟨rfl, rfl, rfl⟩
  | write x v =>
    simp only [State.hostAccess]
    generalize regAt x = r
    cases r <;> unfold State.writeReg <;> (repeat' split) <;> exact ⟨rfl, rfl, rfl⟩

/-- Every way the step of a block that awaits its first reset edge can end (70_reset_and_hazards.md
R210): everything is unspecified once more, or the reset edge has come. -/
inductive UnresetEffect (s : State) : State → Prop
  | unspecified (u : State) : u.cfg = s.cfg → u.now = s.now + 1 → u.awaitingReset = s.awaitingReset →
      UnresetEffect s u.unspecified
  | reset (u : State) : u.cfg = s.cfg → u.now = s.now + 1 → ¬NoReset s → UnresetEffect s u.resetEdge

theorem unreset_effect (s : State) : UnresetEffect s s.unresetEdge := by
  unfold State.unresetEdge
  cases hp : s.port with
  | nil => exact .unspecified _ rfl rfl rfl
  | cons c rest =>
    simp only
    split
    · cases hc : c.rst with
      | true =>
        have asked : ¬NoReset s := fun h => by
          have := h c (by rw [hp]; exact List.mem_cons_self)
          rw [hc] at this; exact absurd this (by decide)
        simp only [if_true, State.portEdge, hc]
        rcases c.access with _ | ⟨x⟩ | ⟨x, v⟩ <;> exact .reset _ rfl rfl asked
      | false =>
        simp only [Bool.false_eq_true, if_false, State.portEdge, hc]
        cases c.access with
        | none => exact .unspecified _ rfl rfl rfl
        | some a =>
          obtain ⟨h1, h2, h3⟩ := hostAccess_keeps { s with now := s.now + 1, port := rest } a
          exact .unspecified _ h1 h2 h3
    · exact .unspecified _ rfl rfl rfl

/-- A step: a block that awaits its first reset edge, the accepted command, or the idle block
(10_state.md R33, R59, 70_reset_and_hazards.md R210). -/
theorem step_cases {s t : State} (h : step s = .next t) :
    (s.awaitingReset = true ∧ UnresetEffect s t)
      ∨ (s.awaitingReset = false ∧ s.status.busy = true ∧ exec s.fetch s = .next t)
      ∨ (s.awaitingReset = false ∧ s.status.busy = false ∧ IdleEffect s t) := by
  unfold step at h
  cases ha : s.awaitingReset with
  | true =>
    simp only [ha, if_true, Host.Outcome.next.injEq] at h
    exact .inl ⟨rfl, h ▸ unreset_effect s⟩
  | false =>
    rw [ha] at h
    cases hb : s.status.busy with
    | true => rw [hb] at h; exact .inr (.inl ⟨rfl, rfl, h⟩)
    | false =>
      rw [hb] at h
      simp only [Bool.false_eq_true, if_false, Host.Outcome.next.injEq] at h
      exact .inr (.inr ⟨rfl, rfl, h ▸ idle_effect s⟩)

end Sys2Proof.Machine
end

