-- ==== Sys2Proof/Laws/Reset.lean ====
section
/-! SUPPORT. A reset edge cuts a running command short where it falls, and only there
(70_reset_and_hazards.md R207, R208): each piece of a command is held against the same piece with the
host's port cycles cut off before the first reset. -/

namespace Sys2Proof.Machine

variable {α β : Type}

/-! ### The port cycles up to the first reset -/

theorem firstReset_later {port : List PortCycle} : ∀ {now e : Nat} {a : Option Access}
    {rest : List PortCycle}, firstReset port now = some (e, a, rest) → now < e := by
  induction port with
  | nil => intro now e a rest h; cases h
  | cons d ds ih =>
    intro now e a rest h
    rw [firstReset] at h
    split at h
    · cases h; omega
    · have := ih h; omega

theorem untilReset_noReset (s : State) : NoReset s.untilReset := fun c hc => by
  have := List.mem_takeWhile_imp hc
  simpa using this

theorem untilReset_of_nil {s : State} (h : s.port = []) : s.untilReset = s := by
  rcases s with ⟨⟩
  cases h
  rfl

/-- A quiet change does not look at the port. -/
theorem Quiet.untilReset {f : State → State} (hf : Quiet f) (s : State) :
    f s.untilReset = (f s).untilReset := by
  have hp := congrArg HostPart.port (hf.hostPart s)
  have e : s.untilReset = s.withHost ⟨s.hostBits, s.untilReset.port, s.reads⟩ := rfl
  have hb := congrArg HostPart.bits (hf.hostPart s)
  have hr := congrArg HostPart.reads (hf.hostPart s)
  rw [e, hf.host]
  change _ = (f s).withHost ⟨(f s).hostBits, (f s).untilReset.port, (f s).reads⟩
  congr 2
  · exact hb.symm
  · change _ = (f s).port.takeWhile _
    rw [show (f s).port = s.port from hp]; rfl
  · exact hr.symm

/-- A host access neither reads nor writes the port cycles to come. -/
theorem hostAccess_port (s : State) (a : Access) (port : List PortCycle) :
    ({ s with port := port } : State).hostAccess a = { s.hostAccess a with port := port }
      ∧ (s.hostAccess a).port = s.port := by
  cases a with
  | read x => exact ⟨by cases hr : regAt x <;> simp only [State.hostAccess, hr] <;> rfl, rfl⟩
  | write x v =>
    simp only [State.hostAccess]
    cases regAt x <;> simp only [State.writeReg, State.dropWrite, State.accept, State.tsampleLocked]
    case tsample =>
      by_cases hb : s.status.busy = true
      · simp only [hb, if_true]; trivial
      · by_cases hl : (s.status.cal || s.status.calerr || !legalTsample (lowByte v)) = true <;>
          simp only [hb, hl, if_true] <;> trivial
    case crc16 => cases s.cfg.hasCrc16 <;> cases s.status.busy <;> exact ⟨rfl, rfl⟩
    all_goals first | trivial | exact ⟨rfl, rfl⟩ | cases s.status.busy <;> exact ⟨rfl, rfl⟩

/-- The read among the access of a port cycle that ends at `edge`. -/
def askedAt (access : Option Access) (edge : Nat) : List (Nat × BitVec 4) :=
  match access with
  | some (.read word) => [(edge, word)]
  | some (.write _ _) | none => []

/-! ### A piece beside the piece without the reset -/

/-- `m` comes to its end in `s`, before the first reset, as it does without that reset. -/
def Finishes (m : Run α) (s : State) : Prop :=
  ∃ a t n ev, m s = .ok a t ∧ m s.untilReset = .ok a t.untilReset ∧ t.status.busy = true
    ∧ t.now = s.now + n ∧ t.port = restCycles s.port n
    ∧ firstReset s.port s.now = firstReset t.port t.now
    ∧ t.wave = ev ++ s.wave ∧ (∀ x ∈ ev, s.now ≤ x.edge ∧ x.edge ≤ t.now)
    ∧ (s.port = [] → t.reads = s.reads)

/-- `m` is cut short in `s` at the first reset edge, in the state `t`; without that reset it would have
come to its end there or later, in `t'`, from the same pad events and answers up to that edge. -/
def IsCut (m : Run α) (s : State) : Prop :=
  ∃ x t a t' c before later, m s = .error x t ∧ m s.untilReset = .ok a t' ∧ t'.status.busy = true
    ∧ t'.port = [] ∧ firstReset s.port s.now = some (t.now, c, t.port) ∧ t.now ≤ t'.now
    ∧ t.wave = ⟨t.now, Pads.released⟩ :: (before ++ s.wave) ∧ t'.wave = later ++ (before ++ s.wave)
    ∧ (∀ x ∈ before, x.edge < t.now) ∧ (∀ x ∈ later, t.now ≤ x.edge)
    ∧ ∃ last, t.reads = last ++ t'.reads ∧ last.map ReadAnswer.asked = askedAt c t.now
    ∧ t.status.done = false

/-- In every busy state `m` finishes as it does without the first reset, or is cut short by it. -/
def Cuttable (m : Run α) : Prop := ∀ s, s.status.busy = true → Finishes m s ∨ IsCut m s

theorem finishes_bind {m : Run α} {f : α → Run β} (hf : ∀ a, Cuttable (f a)) {s : State}
    (h : Finishes m s) : Finishes (m >>= f) s ∨ IsCut (m >>= f) s := by
  obtain ⟨a, t, n, ev, e, e', hb, hn, hp, hr, hw, hv, hq⟩ := h
  have step : (m >>= f) s = f a t := by simp only [Bind.bind, EStateM.bind, e]
  have step' : (m >>= f) s.untilReset = f a t.untilReset := by simp only [Bind.bind, EStateM.bind, e']
  rcases hf a t hb with ⟨b, u, n', ev', d, d', hb', hn', hp', hr', hw', hv', hq'⟩ |
    ⟨x, u, b, u', c, before, later, d, d', hb', hp', hr', hn', w1, w2, v1, v2, hq'⟩
  · refine .inl ⟨b, u, n + n', ev' ++ ev, step.trans d, step'.trans d', hb', by omega, ?_, hr.trans hr',
      by rw [hw', hw, List.append_assoc], fun x hx => ?_, fun h => ?_⟩
    · rw [hp', hp, restCycles_add]
    · rcases List.mem_append.1 hx with hx | hx
      · have := hv' x hx; omega
      · have := hv x hx; omega
    · rw [hq' (by rw [hp, h]; rfl), hq h]
  · have later' := firstReset_later hr'
    refine .inr ⟨x, u, b, u', c, before ++ ev, later, step.trans d, step'.trans d', hb', hp', hr.trans hr',
      hn', by rw [w1, hw, List.append_assoc], by rw [w2, hw, List.append_assoc], fun x hx => ?_, v2, hq'⟩
    rcases List.mem_append.1 hx with hx | hx
    · exact v1 x hx
    · have := hv x hx; omega

theorem isCut_bind {m : Run α} {f : α → Run β} (hf : ∀ a, Cuttable (f a)) {s : State}
    (h : IsCut m s) : IsCut (m >>= f) s := by
  obtain ⟨x, t, a, t', c, before, later, e, e', hb, hp, hr, hn, hw, hw', hv, hv', last, hq, hq'⟩ := h
  have step : (m >>= f) s = .error x t := by simp only [Bind.bind, EStateM.bind, e]
  have step' : (m >>= f) s.untilReset = f a t' := by simp only [Bind.bind, EStateM.bind, e']
  rcases hf a t' hb with ⟨b, u, n, ev, d, -, hb', hn', hp', -, hw2, hv2, hq2⟩ |
    ⟨_, _, _, _, _, _, _, _, _, _, _, hr2, _⟩
  · refine ⟨x, t, b, u, c, before, ev ++ later, step, step'.trans d, hb', by rw [hp', hp]; rfl, hr,
      by omega, hw, by rw [hw2, hw', List.append_assoc], hv, fun y hy => ?_, last,
      by rw [hq, hq2 hp], hq'⟩
    rcases List.mem_append.1 hy with hy | hy
    · have := hv2 y hy; omega
    · exact hv' y hy
  · rw [hp] at hr2; cases hr2

/-! ### Time -/

theorem nextPortCycle_untilReset {s : State} {c : PortCycle} {rest : List PortCycle} {left : Nat}
    (hc : c.rst = false) :
    s.untilReset.nextPortCycle c (rest.takeWhile fun c => !c.rst) left
      = (s.nextPortCycle c rest left).untilReset := by
  simp only [State.nextPortCycle, State.portEdge, hc, Bool.false_eq_true, if_false]
  cases c.access with
  | none => rfl
  | some a =>
    let u : State := { s with
      now := s.now + (c.gap + 1), port := rest, w := { s.w with timer := left } }
    have h := (hostAccess_port u a (rest.takeWhile fun c => !c.rst)).1
    refine Eq.trans h ?_
    change _ = (u.hostAccess a).untilReset
    rw [State.untilReset, (hostAccess_port u a []).2]

theorem passCycles_cut {c : PortCycle} {n : Nat} (hn : c.gap < n) (hc : c.rst = true)
    (rest : List PortCycle) (s : State) :
    passCycles (c :: rest) n s = .error .byReset (s.nextPortCycle c rest (n - (c.gap + 1))) := by
  rw [passCycles, if_pos hn, if_pos hc]

theorem passCycles_on {c : PortCycle} {n : Nat} (hn : c.gap < n) (hc : c.rst = false)
    (rest : List PortCycle) (s : State) :
    passCycles (c :: rest) n s
      = passCycles rest (n - (c.gap + 1)) (s.nextPortCycle c rest (n - (c.gap + 1))) := by
  rw [passCycles, if_pos hn, if_neg (by rw [hc]; decide)]

theorem passCycles_wait {c : PortCycle} {n : Nat} (hn : ¬c.gap < n) (rest : List PortCycle)
    (s : State) :
    passCycles (c :: rest) n s = .ok () (s.quietCycles n ({ c with gap := c.gap - n } :: rest)) := by
  rw [passCycles, if_neg hn]

theorem passCycles_cuttable (l : List PortCycle) : ∀ (n : Nat) (s : State), s.status.busy = true →
    s.port = l →
      (∃ t, passCycles l n s = .ok () t
        ∧ passCycles (l.takeWhile fun c => !c.rst) n s.untilReset = .ok () t.untilReset
        ∧ t.status.busy = true ∧ t.now = s.now + n ∧ t.port = restCycles l n
        ∧ firstReset l s.now = firstReset t.port t.now ∧ t.wave = s.wave
        ∧ (l = [] → t.reads = s.reads))
      ∨ ∃ x t t' a, passCycles l n s = .error x t
        ∧ passCycles (l.takeWhile fun c => !c.rst) n s.untilReset = .ok () t'
        ∧ t'.status.busy = true ∧ t'.port = [] ∧ firstReset l s.now = some (t.now, a, t.port)
        ∧ t.now ≤ t'.now ∧ t.wave = ⟨t.now, Pads.released⟩ :: s.wave ∧ t'.wave = s.wave
        ∧ ∃ last, t.reads = last ++ t'.reads ∧ last.map ReadAnswer.asked = askedAt a t.now
          ∧ t.status.done = false := by
  induction l with
  | nil =>
    intro n s hb hp
    exact .inl ⟨_, rfl, rfl, hb, rfl, rfl, rfl, rfl, fun _ => rfl⟩
  | cons c rest ih =>
    intro n s hb hp
    by_cases hn : c.gap < n
    · cases hc : c.rst with
      | true =>
        rw [List.takeWhile_cons, hc]
        refine .inr ⟨_, _, s.untilReset.quietCycles n [], c.access, passCycles_cut hn hc _ _, rfl, hb, rfl,
          ?_⟩
        simp only [State.nextPortCycle, State.portEdge, hc, if_true, firstReset]
        rcases c.access with _ | ⟨x⟩ | ⟨x, v⟩
        · exact ⟨rfl, Nat.add_le_add_left hn s.now, rfl, rfl, [], rfl, rfl, rfl⟩
        · exact ⟨rfl, Nat.add_le_add_left hn s.now, rfl, rfl, [_], rfl, rfl, rfl⟩
        · exact ⟨rfl, Nat.add_le_add_left hn s.now, rfl, rfl, [], rfl, rfl, rfl⟩
      | false =>
        obtain ⟨h1, h2, -⟩ := nextPortCycle_ran (left := n - (c.gap + 1)) hb hp hc
        have hw : (s.nextPortCycle c rest (n - (c.gap + 1))).wave = s.wave := h1.wave
        have hnow := h1.now
        rw [List.takeWhile_cons, hc]
        simp only [Bool.not_false, if_true]
        rw [passCycles_on hn hc, passCycles_on hn hc, nextPortCycle_untilReset hc, firstReset, hc,
          if_neg (by decide), ← hnow, restCycles, if_pos hn, ← hw]
        rcases ih (n - (c.gap + 1)) _ (h1.busy.trans hb) h2 with
          ⟨t, e, e', b, nn, p, r, w, -⟩ | h
        · exact .inl ⟨t, e, e', b, by omega, p, r, w, fun h => nomatch h⟩
        · exact .inr h
    · refine .inl ⟨_, passCycles_wait hn _ _, ?_, hb, rfl, ?_, ?_, rfl, fun h => nomatch h⟩
      · cases hc : c.rst with
        | true =>
          rw [List.takeWhile_cons, hc]
          simp only [Bool.not_true, Bool.false_eq_true, if_false, passCycles, State.quietCycles,
            State.untilReset, List.takeWhile_cons]
        | false =>
          rw [List.takeWhile_cons, hc]
          simp only [Bool.not_false, if_true]
          rw [passCycles_wait hn]
          simp only [State.quietCycles, State.untilReset, List.takeWhile_cons, hc, Bool.not_false, if_true]
      · rw [restCycles, if_neg hn]; rfl
      · change _ = firstReset ({ c with gap := c.gap - n } :: rest) (s.now + n)
        rw [firstReset, firstReset, show s.now + n + (c.gap - n + 1) = s.now + (c.gap + 1) by omega]

theorem cycles_cuttable (n : Nat) : Cuttable (cycles n) := fun s hb => by
  rcases passCycles_cuttable s.port n s.countStep hb rfl with
    ⟨t, e, e', b, nn, p, r, w, q⟩ | ⟨x, t, t', a, e, e', b, p, r, nn, w, w', q⟩
  · exact .inl ⟨(), t, n, [], e, e', b, nn, p, r, w, by simp, q⟩
  · exact .inr ⟨x, t, (), t', a, [], [], e, e', b, p, r, nn, w, w', by simp, by simp, q⟩

/-- Every command finishes before the first reset edge, or is cut short by it. -/
theorem Piece.cuttable {m : Run α} (h : Piece m) : Cuttable m := by
  induction h with
  | pure a =>
    exact fun s hb => .inl ⟨a, s, 0, [], rfl, rfl, hb, rfl, (restCycles_zero _).symm, rfl, rfl, by simp,
      fun _ => rfl⟩
  | bind _ _ hm hf =>
    intro s hb
    rcases hm s hb with h | h
    · exact finishes_bind hf h
    · exact .inr (isCut_bind hf h)
  | @state _ f hs _ hf =>
    intro s hb
    have e : f s.untilReset = f s := hs s ⟨s.hostBits, s.untilReset.port, s.reads⟩
    have step : (Run.state >>= f) s.untilReset = f s s.untilReset := by
      change f s.untilReset s.untilReset = _
      rw [e]
    rcases hf s s hb with ⟨a, t, n, ev, d, d', r⟩ | ⟨x, t, a, t', c, bf, lt, d, d', r⟩
    · exact .inl ⟨a, t, n, ev, d, step.trans d', r⟩
    · exact .inr ⟨x, t, a, t', c, bf, lt, d, step.trans d', r⟩
  | @change f hf =>
    intro s hb
    have hp := hf.hostPart s
    have port : (f s).port = s.port := congrArg HostPart.port hp
    obtain ⟨ev, hw, hv⟩ := hf.wave s
    refine .inl ⟨(), f s, 0, ev, rfl, ?_, (hf.busy s).trans hb, hf.now s, ?_, ?_, hw, fun x hx => ?_,
      fun _ => congrArg HostPart.reads hp⟩
    · change EStateM.Result.ok () (f s.untilReset) = _
      rw [hf.untilReset]
    · rw [restCycles_zero, port]
    · rw [port, hf.now s]
    · rw [hf.now s, hv x hx]; exact ⟨Nat.le_refl _, Nat.le_refl _⟩
  | cycles n => exact cycles_cuttable n

end Sys2Proof.Machine
end

