-- ==== Sys2Proof/Tests/Slice0.lean ====
section
/-! SUPPORT. Tests, with their expected results from spec/95_test_vectors.md (V<n>) and the opcode table,
and for every statement with hypotheses a witness that meets them. -/

namespace Sys2Proof.Tests

open Sys2Proof.Machine

/-! ### Well-formedness refuses ill-formed terms -/

/-- 30_encoding.md R92: OP 0xF is an illegal encoding in every build. -/
theorem test_reserved_is_illegal (cfg : Config) : Instr.legal cfg .reserved = false := rfl
/-- 30_encoding.md R92: OP 0xD is one without the optional CRC, and none with it. -/
theorem test_crc16_needs_the_option :
    Instr.legal ⟨4#8, false, 0xA001#16, 10#8⟩ .crc16 = false
      ∧ Instr.legal ⟨4#8, true, 0xA001#16, 10#8⟩ .crc16 = true := by decide
/-- 00_scope.md R9: CLK_PER_US below 2. -/
theorem test_wf_refuses_slow_clock : Config.wf ⟨1#8, false, 0xA001#16, 10#8⟩ = false := by decide
/-- 00_scope.md R9: TSAMPLE_RESET outside 1..59. -/
theorem test_wf_refuses_offsets : Config.wf ⟨4#8, false, 0xA001#16, 0#8⟩ = false
    ∧ Config.wf ⟨4#8, false, 0xA001#16, 60#8⟩ = false
    ∧ Config.wf ⟨2#8, false, 0xA001#16, 1#8⟩ = true
    ∧ Config.wf ⟨255#8, false, 0xA001#16, 59#8⟩ = true := by decide
/-- The build of `State.reset` is legal, whatever its clock (log 5). -/
theorem test_build_is_legal : Config.build.wf = true := by
  have h := Config.clkOffset.isLt
  have e : (BitVec.ofNat 8 (Config.clkOffset.val + 2)).toNat = Config.clkOffset.val + 2 := by
    rw [BitVec.toNat_ofNat]; omega
  simp [Config.wf, Config.build, e]
/-- 30_encoding.md R105: a reserved bit, and HOLD on a command that has none. -/
theorem test_canonical_refuses : canonicalWord 0xFFFFFFF0#32 = false
    ∧ canonicalWord 0x00000105#32 = false ∧ canonicalWord 0x00000104#32 = true := by decide

/-! ### Decoding: OP in bits 3:0, HOLD in bit 8 (30_encoding.md R89, R91), written bit by bit -/

theorem test_decode_nop : decode 0b00000000000000000000000000000000#32 = .nop := by decide
theorem test_decode_owReset : decode 0b00000000000000000000000000000001#32 = .owReset := by decide
theorem test_decode_writeBit : decode 0b00000000000000000000000000000010#32 = .writeBit := by decide
theorem test_decode_readBit : decode 0b00000000000000000000000000000011#32 = .readBit := by decide
theorem test_decode_writeByte : decode 0b00000000000000000000000000000100#32 = .writeByte := by decide
theorem test_decode_writeByteH :
    decode 0b00000000000000000000000100000100#32 = .writeByteH := by decide
theorem test_decode_readByte : decode 0b00000000000000000000000000000101#32 = .readByte := by decide
theorem test_decode_select : decode 0b00000000000000000000000000000110#32 = .select := by decide
theorem test_decode_skip : decode 0b00000000000000000000000000000111#32 = .skip := by decide
theorem test_decode_depower : decode 0b00000000000000000000000000001000#32 = .depower := by decide
theorem test_decode_searchNext : decode 0b00000000000000000000000000001001#32 = .searchNext := by
  decide
theorem test_decode_searchReset : decode 0b00000000000000000000000000001010#32 = .searchReset := by
  decide
theorem test_decode_targetSearch : decode 0b00000000000000000000000000001011#32 = .targetSearch := by
  decide
theorem test_decode_crc8 : decode 0b00000000000000000000000000001100#32 = .crc8 := by decide
theorem test_decode_crc16 : decode 0b00000000000000000000000000001101#32 = .crc16 := by decide
theorem test_decode_calibrate : decode 0b00000000000000000000000000001110#32 = .calibrate := by decide
theorem test_decode_reserved : decode 0b00000000000000000000000000001111#32 = .reserved := by decide
/-- 30_encoding.md R93: bits 7:4 and 31:9 are ignored, and HOLD too but for WRITE_BYTE. -/
theorem test_decode_ignores_reserved_bits : decode 0xFFFFFFF0#32 = .nop
    ∧ decode 0xFFFFFEF4#32 = .writeByte ∧ decode 0x0000010E#32 = .calibrate := by decide
/-- The same instruction through the opcode table's numbering, and a row too long to be one word. -/
theorem test_decodeTableWord : decodeTableWord 32 0x104 = some .writeByteH
    ∧ decodeTableWord 8 0x104 = some .writeByte ∧ decodeTableWord 33 0 = none := by decide

/-! ### States to start from: C = 4, TSAMPLE = 10 (spec/95_test_vectors.md §0) -/

/-- The build of the vectors. -/
def build4 : Config := ⟨4#8, false, 0xA001#16, 10#8⟩

/-- "reset". -/
def fresh : State := .resetFor build4

/-- "calibrated", with the line high throughout. -/
def calibrated : State :=
  { fresh with
    status := { Status.atReset with done := true, cal := true }
    latency := 3#16
    now := 300
    env := .lows [] }

/-- "reset", on an ideal line: high from the first edge after the block stops pulling it low. -/
def ideal : State := { fresh with now := 300, env := .lows [] }

/-- ROM codes A and Cd of §0. -/
def romA : RomCode := 0x2900000000000128#64
def romCd : RomCode := 0x1000000000000510#64
def romB : RomCode := 0x7000000000000228#64

/-- "calibrated", with the reference devices. -/
def onBus (roms : List RomCode) (script : List Bool) : State :=
  { calibrated with env := .devices (.fresh roms script) }

/-- The state after the command word `v`, accepted at edge `e = s.now + 1`. -/
def after (s : State) (v : Word) : State := stepState (s.acceptNow v)

/-- Status, cycles since acceptance, and the pad events as offsets from it, in order of time. -/
def report (s : State) (v : Word) : Word × Nat × List (Nat × Bool × Bool) :=
  let t := after s v
  let e := s.now + 1
  let new := t.wave.take (t.wave.length - s.wave.length)
  (t.statusWord, t.now - e, new.reverse.map fun p => (p.edge - e, p.pads.oeLow, p.pads.pu))

/-! ### The port (§2.1, §2.2) -/

/-- V1, V2, V3, V4, V9. -/
theorem test_register_writes : fresh.readReg .tsample = 0xA#32
    ∧ (fresh.writeReg .tsample 0#32).readReg .tsample = 0xA#32
    ∧ (fresh.writeReg .tsample 60#32).readReg .tsample = 0xA#32
    ∧ (fresh.writeReg .tsample 0x13B#32).readReg .tsample = 0x3B#32
    ∧ (fresh.writeReg .data 0xFFFFFF5A#32).readReg .data = 0x5A#32
    ∧ fresh.readReg .hwcfg = 0x400#32 := by decide
/-- V5, V6, V8: no OVR either. -/
theorem test_ignored_writes : calibrated.writeReg .tsample 20#32 = calibrated
    ∧ fresh.writeReg .srchState 0xFFFFFFFF#32 = fresh
    ∧ fresh.writeReg .crc16 0x1234#32 = fresh := by decide
/-- V10, V11. -/
theorem test_status_write_one_to_clear :
    let s := { fresh with status := { fresh.status with done := true, ovr := true } }
    (s.writeReg .status 0xFFFFFFFF#32).statusWord = 0#32
      ∧ (s.writeReg .status 2#32).statusWord = 4#32 := by decide
/-- V12, V13, V16: OW_RESET on device A, with a busy write to DATA, one to CMD at the completion edge,
and a write of 1 to DONE at it. -/
theorem test_port_while_busy :
    let s := (onBus [romA] []).acceptNow 1#32
    let run := fun gap word v =>
      (stepState { s with port := [⟨gap, false, some (.write word v)⟩] }).statusWord
    run 9 2#4 0x77#32 = 0x4E#32 ∧ run 3840 0#4 9#32 = 0x4E#32 ∧ run 3840 1#4 2#32 = 0x4A#32 := by
  decide +kernel
/-- V15, and a read of CONFIG and one of STATUS after a dropped write, on the way. -/
theorem test_writes_while_busy :
    let t := stepState { (onBus [romA] []).acceptNow 1#32 with port :=
      [⟨9, false, some (.write 3#4 1#32)⟩, ⟨0, false, some (.read 3#4)⟩,
        ⟨0, false, some (.write 2#4 0x77#32)⟩, ⟨0, false, some (.read 1#4)⟩,
        ⟨0, false, some (.write 1#4 4#32)⟩] }
    t.reads.map (·.value) = [0x45#32, 1#32] ∧ t.statusWord = 0x4A#32 ∧ t.irq = true
      ∧ t.readReg .data = 0#32 := by decide +kernel
/-- V14: a CMD write presented in the cycle right after completion is accepted there. -/
theorem test_command_after_completion :
    let s := { (onBus [romA] []).acceptNow 1#32 with port := [⟨3841, false, some (.write 0#4 9#32)⟩] }
    let t := stepState (stepState s)
    t.now = s.now + 3842 ∧ t.status.busy = true ∧ t.w.cmd = 9#32 := by decide +kernel
/-- V80, V82: a reset in a slot of a search; DONE stays 0, and the block takes a command again. -/
theorem test_reset_cuts_a_command_short :
    let s := { (onBus [romA] []).acceptNow 9#32 with
      port := [⟨4000, true, none⟩, ⟨0, false, some (.write 0#4 0xE#32)⟩] }
    let t := stepState s
    t.statusWord = 0#32 ∧ t.readReg .tsample = 0xA#32 ∧ t.pads = Pads.released
      ∧ t.now = s.now + 4001 ∧ (stepState t).status.busy = true := by decide +kernel

/-- 70_reset_and_hazards.md R210, R209: after power-up an edge passes, and the next one, with `rst_n` low,
gives the reset values. -/
theorem test_power_up_then_reset :
    let s := { State.powerUp build4 with port := [⟨1, true, none⟩] }
    (stepState s).awaitingReset = true
      ∧ (let t := stepState (stepState s)
        t.awaitingReset = false ∧ t.statusWord = 0#32 ∧ t.readReg .tsample = 0xA#32) :=
  ⟨rfl, rfl, rfl, rfl⟩

/-- 60_exceptions.md R199, 70_reset_and_hazards.md R207: a reset edge at the completion edge overrides the
completion; one edge later it finds the command complete, and is still to come. -/
theorem test_reset_at_the_completion_edge :
    let run := fun gap => stepState { fresh.acceptNow 0#32 with port := [⟨gap, true, none⟩] }
    ((run 0).status.done = false ∧ (run 0).now = 2 ∧ (run 0).port = [])
      ∧ (run 1).status.done = true ∧ (run 1).now = 2 ∧ (run 1).port = [⟨0, true, none⟩] := by decide
/-- 10_state.md R37, 20_memory.md R80: accepted at edge 1, WRITE_BIT ends a power hold at edge 2; the cycle
that ends there still reads POWER 1, the next one 0. -/
theorem test_power_is_live :
    ((stepState { fresh.acceptNow 2#32 with
        status := { (fresh.acceptNow 2#32).status with cal := true }
        pads := Pads.high
        port := [⟨0, false, some (.read 1#4)⟩, ⟨0, false, some (.read 1#4)⟩] }).reads.map fun a =>
      (a.edge, a.value.getLsbD 5)) = [(3, false), (2, true)] := by decide +kernel

/-! ### Each command (§2.3, §2.4, §2.6, §2.7) -/

/-- V23. -/
theorem test_nop : report fresh 0x0#32 = (0x2#32, 1, []) := by decide
/-- V24. -/
theorem test_reserved : report fresh 0xF#32 = (0x802#32, 1, []) := by decide
/-- V26: c = 3. -/
theorem test_calibrate_passes : report ideal 0xE#32
      = (0x42#32, 245, [(1, true, false), (5, false, false)])
    ∧ (after ideal 0xE#32).readReg .latency = 3#32 := by decide +kernel
/-- V27, V28: a rise at `r + 37` and at `r + 38`, `r` being the fifth edge after acceptance. -/
theorem test_calibrate_boundary :
    let rise := fun m => { ideal with env := .lows [(0, 301 + 5 + m)] }
    (after (rise 37) 0xE#32).statusWord = 0x42#32
      ∧ (after (rise 38) 0xE#32).statusWord = 0x782#32
      ∧ (after (rise 38) 0xE#32).readReg .latency = 0x28#32 := by decide +kernel
/-- V36 and V40. -/
theorem test_owReset : report fresh 0x1#32 = (0x602#32, 1, [])
    ∧ report (onBus [romA] []) 0x1#32
      = (0x4A#32, 3841, [(1, true, false), (1921, false, false)]) := by decide +kernel
/-- V42 and V43: three samples of the idle check read 0, and all 250 do. -/
theorem test_owReset_idle_check :
    report { onBus [romA] [] with env := .devices { Devices.fresh [romA] [] with
        holdFrom := 0, holdTo := 301 + 11 } } 0x1#32
      = (0x4A#32, 3853, [(13, true, false), (1933, false, false)])
    ∧ report { calibrated with env := .lows [(0, 9999)] } 0x1#32 = (0x1142#32, 997, []) := by
  decide +kernel
/-- V45 and V46. -/
theorem test_writeBit : report { calibrated with data := 1#8 } 0x2#32
      = (0x42#32, 245, [(1, true, false), (5, false, false)])
    ∧ report { calibrated with data := 0xFE#8 } 0x2#32
      = (0x42#32, 245, [(1, true, false), (241, false, false)]) := by decide +kernel
/-- V48, and V47: a device holds the line low to its sample at e+45, which sees edge e+43, by the script
or by itself. -/
theorem test_readBit : (after calibrated 0x3#32).readReg .data = 1#32
    ∧ (after (onBus [romA] [false]) 0x3#32).readReg .data = 0#32
    ∧ (after { calibrated with env := .lows [(301, 301 + 44)] } 0x3#32).readReg .data = 0#32
    ∧ (after { calibrated with env := .lows [(301, 301 + 43)] } 0x3#32).readReg .data = 1#32 := by
  decide +kernel
/-- V50. -/
theorem test_writeByte : report { calibrated with data := 0xA5#8 } 0x4#32
    = (0x42#32, 1953, [(1, true, false), (5, false, false), (245, true, false), (485, false, false),
      (489, true, false), (493, false, false), (733, true, false), (973, false, false),
      (977, true, false), (1217, false, false), (1221, true, false), (1225, false, false),
      (1465, true, false), (1705, false, false), (1709, true, false), (1713, false, false)]) := by
  decide +kernel
/-- V52: the last slot is released at e+1949, the line driven high from e+1953. -/
theorem test_writeByteH : (report { calibrated with data := 0x44#8 } 0x104#32).2.2.drop 14
      = [(1709, true, false), (1949, false, false), (1953, false, true)]
    ∧ (after { calibrated with data := 0x44#8 } 0x104#32).statusWord = 0x62#32 := by decide +kernel
/-- The script of V57: a device sends 0x3C. -/
def script3C : List Bool := [false, false, true, true, true, true, false, false]
/-- V57 and V58: the device sends 0x3C, and nobody drives. -/
theorem test_readByte : (after (onBus [romA] script3C) 0x5#32).readReg .data = 0x3C#32
    ∧ (after (onBus [romA] []) 0x5#32).readReg .data = 0xFF#32 := by decide +kernel
/-- 20_memory.md R86 (d), P3: the script answers read slots only, right after an OW_RESET too. -/
theorem test_script_answers_read_slots :
    (after (after (onBus [romA] script3C) 0x4#32) 0x5#32).readReg .data = 0x3C#32
    ∧ (after (after (onBus [romA] script3C) 0x1#32) 0x5#32).readReg .data = 0x3C#32 := by
  decide +kernel
/-- V60: 72 slots; byte 1 is 0x28, whose first slot, a 0, starts at e+1+1952. -/
theorem test_select :
    let r := report { calibrated with selRomLo := 0x128#32, selRomHi := 0x29000000#32 } 0x6#32
    r.1 = 0x42#32 ∧ r.2.1 = 17569 ∧ (r.2.2.drop 16).take 2 = [(1953, true, false), (2193, false, false)]
      ∧ r.2.2.length = 144 := by decide +kernel
/-- V59. -/
theorem test_skip : report calibrated 0x7#32
    = (0x42#32, 1953, [(1, true, false), (241, false, false), (245, true, false), (485, false, false),
      (489, true, false), (493, false, false), (733, true, false), (737, false, false),
      (977, true, false), (1217, false, false), (1221, true, false), (1461, false, false),
      (1465, true, false), (1469, false, false), (1709, true, false), (1713, false, false)]) := by
  decide +kernel
/-- V55 and V56. -/
theorem test_depower : report { calibrated with pads := Pads.high } 0x8#32
      = (0x42#32, 1, [(1, false, false)])
    ∧ report calibrated 0x8#32 = (0x42#32, 1, []) := by decide
/-- V69, pass 1: Cd first, 4→0. -/
theorem test_searchNext : let t := after (onBus [romA, romB, romCd] []) 0x9#32
    t.statusWord = 0x5A#32 ∧ t.search.buf = romCd ∧ t.readReg .srchState = 0x404#32
      ∧ t.now = 301 + 52641 := by decide +kernel
/-- V70 passes 1 and 2, and V79. -/
theorem test_searchNext_directions :
    let s := { onBus [romA, romB, romCd] [] with search := .target 0x28#8 }
    let t := after s 0x9#32
    t.search.buf = romB ∧ t.readReg .srchState = 0x9#32
      ∧ (after t 0x9#32).search.buf = romA ∧ (after t 0x9#32).readReg .srchState = 0x10000#32
      ∧ (after (onBus [0x128#64] []) 0x9#32).statusWord = 0x34A#32 := by decide +kernel
/-- 41_rom_search.md R159: after V69 pass 2, all is cleared. -/
theorem test_searchReset :
    let s := { calibrated with search := ⟨0x228#32, 0x70000000#32, 9#7, 0#4, false⟩ }
    (after s 0xA#32).search = .cleared := by decide
/-- The edge case of §2.6: TARGET_SEARCH with DATA 0x28. -/
theorem test_targetSearch : let t := after { fresh with data := 0x28#8 } 0xB#32
    t.readReg .srchRomLo = 0x28#32 ∧ t.readReg .srchRomHi = 0#32 ∧ t.readReg .srchState = 0x40#32
      ∧ t.statusWord = 0x2#32 := by decide
/-- §2.7. -/
theorem test_crc8 : (after { fresh with crc8 := 0x5A#8, data := 0x3C#8 } 0xC#32).readReg .crc8
    = 0xB8#32 := by decide
/-- §2.7: with the option, and without it. -/
theorem test_crc16 :
    let s := { fresh with cfg := { build4 with hasCrc16 := true }, data := 1#8 }
    (after s 0xD#32).readReg .crc16 = 0xC0C1#32
      ∧ (after { fresh with data := 1#8 } 0xD#32).statusWord = 0x802#32 := by decide
/-- §2.7: the check value of "123456789" for both CRCs, and `checkCrc16`. -/
theorem test_crc_check_values :
    let digits := [0x31#8, 0x32#8, 0x33#8, 0x34#8, 0x35#8, 0x36#8, 0x37#8, 0x38#8, 0x39#8]
    crc8 digits = 0xA1#8 ∧ crc16 0xA001#16 0#16 digits = 0xBB3D#16
      ∧ checkCrc16 0xA001#16 0#16 [1#8, 2#8] 0x7F#8 0xAE#8 = true
      ∧ checkCrc16 0xA001#16 0#16 [1#8, 2#8] 0xAE#8 0x7F#8 = false := by
  decide +kernel
/-- §1.2: the known-good fixture, and code A. -/
theorem test_valid_roms : validRom 0xA200000001B81C02#64 = true ∧ validRom romA = true
    ∧ validRom 0x128#64 = false := by decide +kernel

/-! ### Host programs (30_encoding.md R106 to R110, 70_reset_and_hazards.md R211) -/

/-- P1: construction with TSAMPLE 15, then `irq` enabled. -/
theorem test_boot : let t := boot ideal (some 15#8) true false
    t.statusWord = 0x42#32 ∧ t.readReg .tsample = 0xF#32 ∧ t.readReg .latency = 3#32
      ∧ t.irq = true := by decide +kernel
/-- 00_scope.md R15, 20_memory.md R69, R79: accepted at edge 1, NOP completes at edge 2; the cycle that ends
there still reads BUSY = 1, the next one BUSY = 0. `irq` is there after the completion edge (60_exceptions.md
R201). -/
theorem test_wait_idle :
    (hostProgram fresh (doCmd .nop)).reads = [⟨3, 1#4, 2#32⟩, ⟨2, 1#4, 1#32⟩]
    ∧ (hostProgram fresh [.wr .config 1#32, .cmd .nop, .waitIrq]).irq = true
    ∧ (hostProgram fresh [.wr .config 1#32, .cmd .nop, .waitIrq]).now = 3 := by decide
/-- R110, 20_memory.md R79: `selectFound` does not wait first; on a busy block its reads are answered and
its writes dropped, with OVR. -/
theorem test_selectFound_on_a_busy_block :
    let s := { onBus [romA] [] with search := ⟨0x128#32, 0x29000000#32, 0#7, 0#4, true⟩ }
    let t := hostProgram s (.cmd .owReset :: selectFoundProgram.take 2)
    t.statusWord = 0x4E#32 ∧ t.selRomLo = 0#32 ∧ t.selRomHi = 0#32
      ∧ t.reads.map (·.value) = [0x29000000#32, 0x128#32] := by decide +kernel

/-! ### Witnesses: states and operands that meet the hypotheses of the statements -/

/-- `i` has just been accepted in `s`. -/
def running (i : Instr) (s : State) : State := s.acceptNow (encode i)

theorem witness_EveryWordIsExactlyOneRow :
    0xFFFFFFF4#32 &&& rowMask .writeByteH = encode .writeByteH
      ∧ (opField 0x1#32 = opField 0xFFFFFFF1#32 ∧ opField 0x1#32 ≠ 4#4)
      ∧ (opField 0x104#32 = opField 0xFFFFFFF4#32 ∧ holdField 0x104#32 = holdField 0xFFFFFFF4#32)
      ∧ canonicalWord 0x104#32 = true := by decide
theorem witness_ResetLeavesTheListedValues :
    (⟨0, true, some (.write 2#4 5#32)⟩ : PortCycle).rst = true := by decide
/-- A block that has just been powered up, before an edge with `rst_n` low, before an edge with a write,
and with nothing on the port. -/
theorem witness_UnresetBlockAwaitsOneResetEdge :
    let s := State.powerUp build4
    let c : PortCycle := ⟨0, true, none⟩
    let d : PortCycle := ⟨0, false, some (.write 0#4 1#32)⟩
    (({ s with port := [c] } : State).awaitingReset = true
        ∧ ({ s with port := [c] } : State).port = [c] ∧ c.gap = 0 ∧ c.rst = true)
      ∧ (({ s with port := [d] } : State).awaitingReset = true
        ∧ ∀ e rest, [d] = e :: rest → e.gap = 0 → e.rst = false)
      ∧ ∀ e rest, ([] : List PortCycle) = e :: rest → e.gap = 0 → e.rst = false :=
  ⟨⟨rfl, rfl, rfl, rfl⟩, ⟨rfl, fun _ _ h _ => (List.cons.inj h).1 ▸ rfl⟩, fun _ _ h => nomatch h⟩
theorem witness_EveryRegisterReadsItsFields : fresh.cfg.hasCrc16 = false
    ∧ ({ fresh with cfg := { build4 with hasCrc16 := true } } : State).cfg.hasCrc16 = true := by decide
theorem witness_StatusWriteClearsOnlyDoneAndOvr : RegName.data ≠ .status := by decide
/-- Every word offset falls under exactly one clause, or is CMD or STATUS; TSAMPLE at both ends. -/
theorem witness_IdleWritesStoreTheirFields : calibrated.status.busy = false
    ∧ [0x2#4, 0x3#4, 0x4#4, 0x6#4, 0x7#4, 0xB#4, 0xC#4].map regAt
      = [.data, .config, .tsample, .selRomLo, .selRomHi, .crc8, .crc16]
    ∧ [0x5#4, 0x8#4, 0x9#4, 0xA#4, 0xD#4, 0xE#4, 0xF#4].map regAt
      = [.latency, .srchRomLo, .srchRomHi, .srchState, .hwcfg, .reserved38, .reserved3C]
    ∧ (fresh.status.busy = false ∧ fresh.status.cal = false ∧ fresh.status.calerr = false
      ∧ 1 ≤ (1#32 &&& 0xFF#32).toNat ∧ (59#32 &&& 0xFF#32).toNat ≤ 59)
    ∧ ({ fresh with cfg := { build4 with hasCrc16 := true } } : State).status.busy = false
    ∧ (RegName.crc16 ∈ [RegName.data, .config, .tsample, .selRomLo, .selRomHi, .crc8, .crc16]
      ∧ RegName.status ≠ .crc16)
    ∧ RegName.reserved3C ∈ [RegName.latency, .srchRomLo, .srchRomHi, .srchState, .hwcfg, .reserved38,
        .reserved3C] := by decide
/-- Every word offset falls under exactly one clause. -/
theorem witness_BusyWritesAreDropped : (running .owReset calibrated).status.busy = true
    ∧ regAt 0x0#4 = .cmd ∧ regAt 0xB#4 = .crc8
    ∧ (regAt 0xC#4 = .crc16
      ∧ (running .nop { fresh with cfg := { build4 with hasCrc16 := true } }).cfg.hasCrc16 = true)
    ∧ (regAt 0xC#4 = .crc16 ∧ (running .nop fresh).cfg.hasCrc16 = false)
    ∧ regAt 0x1#4 = .status ∧ regAt 0x3#4 = .config ∧ regAt 0x5#4 = .latency ∧ regAt 0xF#4 = .reserved3C := by decide
theorem witness_AcceptanceLatchesTheOperands :
    let s := { calibrated with port := [⟨0, false, some (.write 0#4 0xFFFFFFFF#32)⟩] }
    s.awaitingReset = false ∧ s.status.busy = false ∧ regAt 0#4 = .cmd
      ∧ s.port = ⟨0, false, some (.write 0#4 0xFFFFFFFF#32)⟩ :: [] := by decide
/-- The hypotheses shared by the statements about a command that is not reset, on a state and a port that
carry something: also of OnlyTheNamedCommandsWrite, HostCannotDisturbACommand and
ReadsDuringACommandSeeOldValues. -/
theorem witness_completing_command :
    let s := { running .crc8 calibrated with
      port := [⟨0, false, some (.read 1#4)⟩, ⟨0, false, some (.write 3#4 1#32)⟩] }
    s.status.busy = true ∧ NoReset s ∧ (∃ u, exec .crc8 s.withoutHost = .next u)
      ∧ ∃ t, exec .crc8 s = .next t ∧ t.reads ≠ [] :=
  ⟨rfl, by decide, ⟨_, rfl⟩, _, rfl, by decide⟩
/-- The premise of the clause about POWER. -/
theorem witness_ReadsDuringACommandSeeOldValues : (running .crc8 calibrated).Timely := by decide
/-- NOP completes at the first edge after acceptance: a reset edge there, and one after it. -/
theorem witness_ResetEndsACommandAtItsEdge :
    let s := fun gap => { running .nop fresh with
      port := [⟨gap, true, some (.read 1#4)⟩, ⟨0, false, none⟩] }
    (∃ u, exec .nop (s 0).untilReset = .next u ∧ u.now = 2)
      ∧ ((s 0).status.busy = true
        ∧ firstReset (s 0).port (s 0).now = some (2, some (.read 1#4), [⟨0, false, none⟩]))
      ∧ ((s 1).status.busy = true
        ∧ firstReset (s 1).port (s 1).now = some (3, some (.read 1#4), [⟨0, false, none⟩])) :=
  ⟨⟨_, rfl, rfl⟩, by decide, by decide⟩
/-- With a write in the cycle that ends at the completion edge, and reads of both registers. -/
theorem witness_WritesDuringACommandTakeEffect :
    let s := { running .writeBit calibrated with port := [⟨0, false, some (.write 2#4 7#32)⟩,
      ⟨0, false, some (.read 1#4)⟩, ⟨0, false, some (.read 3#4)⟩, ⟨241, false, some (.write 3#4 1#32)⟩] }
    s.status.busy = true ∧ NoReset s ∧ (regAt 1#4 = .status ∧ regAt 3#4 = .config)
      ∧ ∃ t, exec .writeBit s = .next t ∧ t.reads.map ReadAnswer.asked = [(304, 3#4), (303, 1#4)]
        ∧ t.now = s.now + 245 ∧ t.port = [] :=
  ⟨rfl, by decide, by decide, _, rfl, by decide +kernel⟩
theorem witness_WaitIdlePollsToTheEndOfTheCommand : calibrated.awaitingReset = false
    ∧ calibrated.status.busy = false ∧ calibrated.port = [] := by decide
theorem witness_StepRunsTheAcceptedCommand :
    ((running .skip calibrated).awaitingReset = false
        ∧ (running .skip calibrated).status.busy = true ∧ decode (running .skip calibrated).w.cmd = .skip)
      ∧ (fresh.awaitingReset = false ∧ fresh.status.busy = false ∧ fresh.port = [])
      ∧ ((⟨3, true, some (.read 1#4)⟩ : PortCycle).rst = true
        ∧ (⟨3, false, some (.write 2#4 5#32)⟩ : PortCycle).rst = false
        ∧ (⟨3, false, none⟩ : PortCycle).access = none)
      ∧ decodeTableWord 32 0xFFFFFFFF = some .reserved
      ∧ decodeTableWord 0 0 = some .nop := by decide
theorem witness_IdleBlockKeepsEverything :
    ({ calibrated with pads := Pads.high } : State).awaitingReset = false
      ∧ ({ calibrated with pads := Pads.high } : State).status.busy = false
      ∧ ({ calibrated with pads := Pads.high } : State).port = [] := by decide
/-- Both ends: with no reset to come, and with one. -/
theorem witness_EveryCommandCompletesOrIsResetAway :
    NoReset (running .nop fresh) ∧ (running .nop fresh).status.busy = true
      ∧ ¬NoReset { running .nop fresh with port := [⟨0, true, none⟩] } := by decide
/-- An idle block that meets the invariant, and steps. -/
theorem witness_StepKeepsTheInvariant : Invariant calibrated
    ∧ ∃ t, step calibrated = .next t := by
  refine ⟨⟨?_, ?_, ?_, ?_, ?_, ?_, ?_, ?_, ?_, ?_, ?_, ?_, ?_, ?_, ?_, ?_⟩, _, rfl⟩
  case refine_12 => exact ⟨by decide, by decide, by decide, by decide⟩
  all_goals decide
/-- A busy one that has found a device, holds the line and runs CALIBRATE, with a search state at the
top of its ranges. -/
theorem witness_StepKeepsTheInvariant_busy :
    let s := running .calibrate { calibrated with
      pads := Pads.high, wave := [⟨200, Pads.high⟩, ⟨200, Pads.released⟩, ⟨100, Pads.low⟩]
      status := { calibrated.status with found := true }
      search := ⟨0x128#32, 0x29000000#32, 64#7, 8#4, false⟩ }
    Invariant s ∧ ∃ t, step s = .next t := by
  refine ⟨⟨?_, ?_, ?_, ?_, ?_, ?_, ?_, ?_, ?_, ?_, ?_, ?_, ?_, ?_, ?_, ?_⟩, _, rfl⟩
  case refine_12 => exact ⟨by decide, by decide, by decide, by decide⟩
  case refine_14 => intro _; exact ⟨by decide +kernel, by decide⟩
  all_goals decide
theorem witness_SearchStateStaysInRange : (calibrated.awaitingReset = false
        ∧ ∃ t, step calibrated = .next t)
      ∧ (⟨0#32, 0#32, 64#7, 8#4, false⟩ : Search).inRange ∧ Search.cleared.inRange
      ∧ (⟨0x128#32, 0x29000000#32, 0#7, 0#4, true⟩ : Search).inRange :=
  ⟨⟨rfl, _, rfl⟩, ⟨by decide, by decide, by decide, by decide⟩,
    ⟨by decide, by decide, by decide, by decide⟩, by decide, by decide, by decide, by decide⟩
theorem witness_LineIsNeverLeftLow : calibrated.awaitingReset = false
    ∧ calibrated.pads = Pads.released
    ∧ ({ calibrated with pads := Pads.high } : State).pads = Pads.high
    ∧ ∃ t, step calibrated = .next t := ⟨rfl, rfl, rfl, _, rfl⟩
theorem witness_CalibrationIsSticky :
    let s := running .calibrate calibrated
    let f := { fresh with status := { Status.atReset with calerr := true } }
    (s.awaitingReset = false ∧ s.status.cal = true ∧ NoReset s ∧ ∃ t, step s = .next t)
      ∧ (f.awaitingReset = false ∧ f.status.calerr = true ∧ NoReset f ∧ ∃ t, step f = .next t) :=
  ⟨⟨rfl, rfl, by decide, _, rfl⟩, rfl, rfl, by decide, _, rfl⟩
theorem witness_PulledLineReadsLow :
    (padsBefore ({ fresh with wave := [⟨5, Pads.low⟩] } : State).wave 6).oeLow = true := by decide
theorem witness_GatedCommandsAreRefusedUncalibrated : Instr.searchNext ∈ gatedCommands
    ∧ (running .searchNext fresh).status.busy = true ∧ NoReset (running .searchNext fresh)
    ∧ (running .searchNext fresh).status.cal = false := by decide
/-- For each of the three clauses; a CALIBRATE is refused after a pass and after a fail. -/
theorem witness_IllegalCommandsDoNothing :
    let f := { fresh with status := { Status.atReset with calerr := true } }
    ((running .reserved fresh).status.busy = true ∧ NoReset (running .reserved fresh))
      ∧ (running .crc16 fresh).cfg.hasCrc16 = false
      ∧ (running .calibrate calibrated).status.cal = true
      ∧ (running .calibrate f).status.calerr = true := by decide
/-- Both clauses. -/
theorem witness_ExhaustedSearchDrivesNothing :
    let done := (⟨0x128#32, 0x29000000#32, 0#7, 0#4, true⟩ : Search)
    let s := running .searchNext { calibrated with search := done }
    let f := running .searchNext { fresh with search := done }
    (s.status.busy = true ∧ NoReset s ∧ s.status.cal = true ∧ s.search.term = true)
      ∧ f.status.busy = true ∧ NoReset f ∧ f.status.cal = false ∧ f.search.term = true := by decide
/-- Of the statements about NOP, SEARCH_RESET, TARGET_SEARCH, CRC8 and DEPOWER: any busy state, one in a
power hold for the last. -/
theorem witness_state_commands :
    ((running .nop fresh).status.busy = true ∧ NoReset (running .nop fresh))
      ∧ ((running .searchReset calibrated).status.busy = true
        ∧ NoReset (running .searchReset calibrated))
      ∧ ((running .targetSearch fresh).status.busy = true ∧ NoReset (running .targetSearch fresh))
      ∧ ((running .crc8 fresh).status.busy = true ∧ NoReset (running .crc8 fresh))
      ∧ (running .depower { calibrated with pads := Pads.high }).pads.pu = true
      ∧ (running .depower calibrated).pads.pu = false := by decide
theorem witness_Crc16AdvancesByOneByte :
    let s := running .crc16 { fresh with cfg := { build4 with hasCrc16 := true } }
    s.status.busy = true ∧ NoReset s ∧ s.cfg.hasCrc16 = true := by decide
theorem witness_CrcIsLinearAndSeesOneBit : [1#8].length = [2#8].length ∧ 0 < 8 ∧ 7 < 8 := by decide
theorem witness_TheFixedValueX : 0 < 7 ∧ 6 < 7 ∧ 7 < 8 := by decide
/-- Of the statements about WRITE_BIT, WRITE_BYTE, WRITE_BYTE.H, SELECT, SKIP and OW_RESET. -/
theorem witness_line_commands : ∀ i ∈ [Instr.writeBit, .writeByte, .writeByteH, .select, .skip,
    .owReset], (running i calibrated).status.busy = true ∧ NoReset (running i calibrated)
      ∧ (running i calibrated).status.cal = true := by decide
/-- Of READ_BIT, READ_BYTE and both statements about SEARCH_NEXT on any bus: the sample offset at both ends of its range. -/
theorem witness_reading_commands : ∀ i ∈ [Instr.readBit, .readByte, .searchNext],
    ∀ v ∈ [1#8, 59#8],
    let s := running i { calibrated with tsample := v }
    s.status.busy = true ∧ NoReset s ∧ s.status.cal = true ∧ s.search.term = false
      ∧ 1 ≤ s.w.tsample.toNat ∧ s.w.tsample.toNat ≤ 59 ∧ s.env.passive = true := by decide
theorem witness_CalibrateMeasuresTheLatency : (running .calibrate fresh).status.busy = true
    ∧ NoReset (running .calibrate fresh) ∧ (running .calibrate fresh).status.cal = false
    ∧ (running .calibrate fresh).status.calerr = false
    ∧ (running .calibrate fresh).cfg.wf = true := by decide

/-- The intervals in which device `rom` alone pulls the line low during a SEARCH_NEXT accepted at edge
`e`: its presence pulse, and a read slot of every position (spec/95_test_vectors.md §2.5). -/
def searchAnswers (rom : RomCode) (e : Nat) : List (Nat × Nat) :=
  (e + 2161, e + 2881) :: searchPositions.map fun n =>
    let slot := e + (if romBit rom n then 6037 else 5793) + 732 * (n - 1)
    (slot, slot + 240)

/-- A passive bus on which device A answers as it should, the search ending with OK (V68). -/
theorem witness_SearchPassFollowsTheDirections :
    let s := running .searchNext { calibrated with env := .lows (searchAnswers romA 301) }
    (s.status.busy = true ∧ NoReset s ∧ s.status.cal = true ∧ s.search.term = false
      ∧ 1 ≤ s.w.tsample.toNat ∧ s.w.tsample.toNat ≤ 59 ∧ s.env.passive = true)
      ∧ ∃ t, exec .searchNext s = .next t ∧ t.status.result = .ok :=
  ⟨by decide, _, rfl, by decide +kernel⟩

theorem onBus_onDevices (roms : List RomCode) : OnDevices (onBus roms []) roms where
  wasReset := rfl
  build := (by decide : build4.wf = true)
  idle := rfl
  calibrated := rfl
  offset := (by decide : 1 ≤ (10#8).toNat ∧ (10#8).toNat ≤ 59)
  passed := (by decide : 2 < (3#16).toNat ∧ (3#16).toNat < (10#8).toNat * build4.clkPerUs.toNat)
  noHost := rfl
  released := rfl
  history := by intro e he; cases he
  notPulled := rfl
  bus := ⟨_, rfl, rfl, rfl, Nat.zero_le _⟩

/-- With no device, and with two. -/
theorem witness_ResetSeesWhetherADeviceIsThere : OnDevices (onBus [] []) []
    ∧ OnDevices (onBus [romA, romCd] []) [romA, romCd] := ⟨onBus_onDevices _, onBus_onDevices _⟩
theorem pair_valid : ∀ r ∈ [romA, romCd], validRom r = true :=
  List.forall_mem_cons.2 ⟨(by decide +kernel : validRom romA = true),
    List.forall_mem_singleton.2 (by decide +kernel : validRom romCd = true)⟩
theorem pair_family : ∀ r ∈ [romA, romCd], romByte r 0 ≠ 0x00#8 :=
  List.forall_mem_cons.2 ⟨(by decide : romByte romA 0 ≠ 0x00#8),
    List.forall_mem_singleton.2 (by decide : romByte romCd 0 ≠ 0x00#8)⟩
theorem pair_distinct : [romA, romCd].Nodup := by decide +kernel
theorem goodRoms_pair : GoodRoms [romA, romCd] := ⟨pair_distinct, pair_valid, pair_family⟩

/-- Of SearchFindsADeviceOfTheBus and EnumerationIsComplete. -/
theorem witness_enumeration : OnDevices (onBus [romA, romCd] []) [romA, romCd]
    ∧ [romA, romCd] ≠ [] ∧ GoodRoms [romA, romCd]
    ∧ (onBus [romA, romCd] []).search.term = false
    ∧ (onBus [romA, romCd] []).search = .cleared :=
  ⟨onBus_onDevices _, by simp, goodRoms_pair, rfl, rfl⟩

end Sys2Proof.Tests
end

section
/-! PROOF. `cmd i; wait_idle` (00_scope.md R15, 70_reset_and_hazards.md R214): the command runs as without
the host (`exec_blind`), and each cycle of it answers one poll of STATUS (`exec_polled`). -/

namespace Sys2Proof.Machine

theorem decode_encode (i : Instr) : decode (encode i) = i := by cases i <;> rfl

/-! ### A whole command, with the host and without it -/

/-- The completion edge sets DONE whatever the host did, and leaves the rest of the host's part. -/
theorem SameRun.complete {s s' : State} (h : SameRun s s') (r : ResultCode) :
    SameRun (s.complete r) (s'.complete r) :=
  ⟨congrArg (fun u : State => u.complete r) h.eq, h.silent⟩

/-- A whole command is blind to the host (20_memory.md R81): both runs complete, at the same edge and in
the same state but for the host's part, which the run without the host keeps. -/
theorem exec_blind (i : Instr) {s s' : State} (h : SameRun s s') (hn : NoReset s)
    (hb : s.status.busy = true) :
    ∃ t t', exec i s = .next t ∧ exec i s' = .next t' ∧ SameRun t t' ∧ t'.status.busy = false
      ∧ t.status.done = true ∧ t'.status.done = true ∧ HostKept s' t' := by
  obtain ⟨body, hbody, hexec⟩ := exec_piece i
  obtain ⟨r, t, t', e, e', hsame, -, -, hkept⟩ :=
    (Piece.bind piece_tick fun _ => hbody).blind s s' h hn hb
  refine ⟨t.complete r, t'.complete r, ?_, ?_, hsame.complete r, rfl, rfl, rfl, hkept⟩
  · rw [hexec, command, runCommand, e]
  · rw [hexec, command, runCommand, e']

/-- Two runs that differ in the host's part only, and not in its bits, differ in the port and the
answers. -/
theorem SameRun.eq_of_hostBits {s s' : State} (h : SameRun s s') (hbits : s.hostBits = s'.hostBits) :
    s = { s' with port := s.port, reads := s.reads } :=
  calc s = s.withHost ⟨s.hostBits, s.port, s.reads⟩ := rfl
    _ = s.withHost ⟨s'.hostBits, s.port, s.reads⟩ := by rw [hbits]
    _ = { s.withHost s'.hostPart with port := s.port, reads := s.reads } := rfl
    _ = { s' with port := s.port, reads := s.reads } := by rw [← h.withHost]

/-- With no reset to come a command has run past its first edge, and its commit and completion edge leave
the clock, the host's port and what the host wrote as the run left them. -/
theorem exec_ran {i : Instr} {s t : State} (hb : s.status.busy = true) (hn : NoReset s)
    (h : exec i s = .next t) :
    ∃ u, Began s u ∧ t.now = u.now ∧ t.port = u.port ∧ t.reads = u.reads ∧ t.ie = u.ie
      ∧ t.status.ovr = u.status.ovr ∧ t.awaitingReset = u.awaitingReset := by
  obtain ⟨t', h', hcut | ⟨u, v, r, hu, he, rfl⟩⟩ := exec_effect i hb
  · exact absurd hn hcut.asked
  · cases h.symm.trans h'
    obtain ⟨-, -, -, -, -, -, hnow, hreads, hie, hport, -, hovr⟩ := he.stays
    exact ⟨u, hu, hnow, hport, hreads, hie, hovr, he.awaitingReset⟩

/-- No command makes a block that has been reset await another reset edge. -/
theorem exec_awaitingReset {i : Instr} {s t : State} (hb : s.status.busy = true) (hn : NoReset s)
    (h : exec i s = .next t) : t.awaitingReset = s.awaitingReset := by
  obtain ⟨u, hu, -, -, -, -, -, he⟩ := exec_ran hb hn h
  exact he.trans hu.1.awaitingReset

/-! ### Polls of STATUS -/

/-- The port cycle of one poll: `rd STATUS`, right after the cycle before it. -/
def pollCycle : PortCycle := ⟨0, false, some (.read (wordOf .status))⟩

/-- `n` cycles use up `n` polls. -/
theorem restCycles_polls (n m : Nat) :
    restCycles (List.replicate (n + m) pollCycle) n = List.replicate m pollCycle := by
  induction n with
  | zero => rw [Nat.zero_add, restCycles_zero]
  | succ n ih =>
    rw [Nat.succ_add, List.replicate_succ, restCycles,
      if_pos (show pollCycle.gap < n + 1 from Nat.succ_pos n)]
    exact ih

theorem readCycles_now (port : List PortCycle) (now : Nat) : readCycles port now now = [] := by
  cases port with
  | nil => rfl
  | cons c rest => exact if_neg (by omega)

/-- `n` polls end at the next `n` edges. -/
theorem readCycles_polls (m n : Nat) : ∀ now,
    readCycles (List.replicate (n + m) pollCycle) now (now + n)
      = (List.range n).map fun k => (now + 1 + k, 0x1#4) := by
  induction n with
  | zero => exact fun now => readCycles_now _ now
  | succ n ih =>
    intro now
    have hedge : now + (pollCycle.gap + 1) ≤ now + (n + 1) := by
      change now + 1 ≤ _; omega
    have hrest := ih (now + 1)
    rw [show now + 1 + n = now + (n + 1) by omega] at hrest
    rw [Nat.succ_add, List.replicate_succ, readCycles, if_pos hedge]
    change (now + 1, 0x1#4) :: readCycles _ (now + 1) (now + (n + 1)) = _
    rw [hrest, List.range_succ_eq_map, List.map_cons, List.map_map]
    congr 1
    refine List.map_congr_left fun k _ => ?_
    simp only [Function.comp, Prod.mk.injEq, and_true]
    omega

theorem statusWord_busy (s : State) : s.statusWord.getLsbD 0 = s.status.busy := by
  simp only [State.statusWord, BitVec.getLsbD_setWidth, BitVec.getLsbD_append,
    BitVec.getLsbD_ofBool]
  simp

/-- A read of STATUS during a command sees its BUSY (20_memory.md R80). -/
theorem Saw.busy {s : State} {a : ReadAnswer} (h : Saw s a) (hr : regAt a.word = .status) :
    a.value.getLsbD 0 = s.status.busy := by
  have hbit := congrArg (fun v : Word => v.getLsbD 0) (h.1 hr)
  simp only [BitVec.getLsbD_and, show (0xFFFFFFD9#32).getLsbD 0 = true from rfl, Bool.and_true] at hbit
  exact hbit.trans (statusWord_busy s)

/-- `polls` are the answers, newest first, to one poll in each of the `n` cycles after edge `now`, and all
find BUSY = 1. -/
def PolledBusy (now n : Nat) (polls : List ReadAnswer) : Prop :=
  (polls.map ReadAnswer.asked).reverse = (List.range n).map (fun k => (now + 1 + k, 0x1#4))
    ∧ ∀ p ∈ polls, p.value.getLsbD 0 = true

/-- Answers to polls are answers of STATUS. -/
theorem PolledBusy.of_asked {now n : Nat} {polls : List ReadAnswer}
    (h : (polls.map ReadAnswer.asked).reverse = (List.range n).map fun k => (now + 1 + k, 0x1#4))
    (hbusy : ∀ p ∈ polls, regAt p.word = .status → p.value.getLsbD 0 = true) :
    PolledBusy now n polls := by
  refine ⟨h, fun p hp => hbusy p hp ?_⟩
  have hmem : p.asked ∈ (polls.map ReadAnswer.asked).reverse :=
    List.mem_reverse.2 (List.mem_map_of_mem hp)
  rw [h] at hmem
  obtain ⟨k, -, hk⟩ := List.mem_map.1 hmem
  rw [show p.word = 0x1#4 from (congrArg Prod.snd hk).symm]
  rfl

/-- `s` with the port cycles `port` to come. -/
def State.withPort (s : State) (port : List PortCycle) : State := { s with port := port }

theorem withPort_self {s : State} {port : List PortCycle} (h : s.port = port) : s.withPort port = s := by
  rw [← h]; rfl

/-- `s` with the answers `reads` on record. -/
def State.withReads (s : State) (reads : List ReadAnswer) : State := { s with reads := reads }

/-- `s` with `n` polls on its port and nothing else. -/
def State.polled (s : State) (n : Nat) : State := s.withPort (List.replicate n pollCycle)

theorem polled_noReset (s : State) (n : Nat) : NoReset (s.polled n) := fun c hc => by
  rw [(List.mem_replicate.1 hc).2]; rfl

theorem polled_noWrites (s : State) (n : Nat) : NoWrites (s.polled n) := fun c hc => by
  rw [(List.mem_replicate.1 hc).2]; rfl

/-- A run of `n` cycles under `n + m` polls answers `n` of them, all with the block's BUSY. -/
theorem Did.polls {s u : State} {n m : Nat} (h : Did (s.polled (n + m)) u)
    (hb : s.status.busy = true) (hn : u.now = s.now + n) :
    u.port = List.replicate m pollCycle ∧ u.ie = s.ie ∧ u.status.ovr = s.status.ovr
      ∧ ∃ polls, u.reads = polls ++ s.reads ∧ PolledBusy s.now n polls := by
  obtain ⟨n', ev, hran⟩ := h
  have hnow : u.now = s.now + n' := hran.now
  obtain rfl : n' = n := by omega
  obtain ⟨-, hie, hovr⟩ := hran.noWrites (polled_noWrites s _)
  obtain ⟨polls, hreads, hasked, hsaw⟩ := hran.reads
  refine ⟨hran.port.trans (restCycles_polls n' m), hie, hovr, polls, hreads, .of_asked ?_ ?_⟩
  · have hall := hasked u.now le_rfl
    rw [readCycles_now, List.append_nil] at hall
    rw [← hall, hn]
    exact readCycles_polls m n' s.now
  · intro p hp hr
    obtain ⟨-, -, hseen, -⟩ := hsaw p hp
    exact (hseen.busy hr).trans hb

/-- The command under polls, one for each of its cycles and `m` more: it ends as it does without the host,
but for the answers, and `m` polls are left. -/
theorem exec_polled {i : Instr} {s u : State} (m : Nat) (hb : s.status.busy = true)
    (hp : s.port = []) (hu : exec i s = .next u) :
    u.status.busy = false ∧ u.port = [] ∧
      ∃ polls, PolledBusy s.now (u.now - s.now) polls
        ∧ exec i (s.polled (u.now - s.now + m))
          = .next ((u.withReads (polls ++ s.reads)).polled m) := by
  have hnr := polled_noReset s (u.now - s.now + m)
  obtain ⟨t, u', ht, hu', hsame, hidle, hdone, hdone', hie', hovr', -⟩ :=
    exec_blind i (s := s.polled (u.now - s.now + m)) ⟨rfl, hp⟩ hnr hb
  cases hu.symm.trans hu'
  obtain ⟨v, ⟨hdid, hlater⟩, hnow, hport, hreads, hie, hovr, -⟩ :=
    exec_ran (s := s.polled (u.now - s.now + m)) hb hnr ht
  have hlt : s.now < u.now := by rw [hsame.now, hnow]; exact hlater
  have hv : v.now = s.now + (u.now - s.now) := by rw [← hnow, ← hsame.now]; omega
  obtain ⟨vport, vie, vovr, polls, vreads, hpolls⟩ := hdid.polls hb hv
  refine ⟨hidle, hsame.silent, polls, hpolls, ?_⟩
  have hbits : t.hostBits = u.hostBits := by
    simp only [State.hostBits, hdone, hdone', hie, vie, hie', hovr, vovr, hovr']
  rw [ht, hsame.eq_of_hostBits hbits, hport, vport, hreads, vreads]
  rfl

/-! ### Settling a host program -/

theorem settleFor_done {s : State} (hb : s.status.busy = false) (hp : s.port = []) (n : Nat) :
    settleFor n s = s := by
  cases n with
  | zero => rfl
  | succ n => rw [settleFor, hb, hp]; rfl

theorem settleFor_busy {s : State} (hb : s.status.busy = true) (n : Nat) :
    settleFor (n + 1) s = settleFor n (stepState s) := by
  rw [settleFor, hb]; rfl

theorem settleFor_port {s : State} {c : PortCycle} {rest : List PortCycle} (hp : s.port = c :: rest)
    (n : Nat) : settleFor (n + 1) s = settleFor n (stepState s) := by
  rw [settleFor, hp, List.isEmpty_cons, Bool.and_false]; rfl

theorem stepState_busy {s t : State} (hr : s.awaitingReset = false) (hb : s.status.busy = true)
    (h : exec s.fetch s = .next t) : stepState s = t := by
  simp only [stepState, step, hr, hb, h, Bool.false_eq_true, if_false, if_true]

theorem stepState_idle {s : State} (hr : s.awaitingReset = false) (hb : s.status.busy = false) :
    stepState s = s.idle := by
  simp only [stepState, step, hr, hb, Bool.false_eq_true, if_false]

/-- The port cycle of `cmd i`. -/
def cmdCycle (i : Instr) : PortCycle := ⟨0, false, some (.write (wordOf .cmd) (encode i))⟩

/-- The next port cycle of an idle block carries a command word: it is accepted. -/
theorem idle_cmd {s : State} (i : Instr) (rest : List PortCycle) (hb : s.status.busy = false) :
    (s.withPort (cmdCycle i :: rest)).idle = (s.acceptNow (encode i)).withPort rest := by
  change State.writeReg { s with now := s.now + 1, port := rest } .cmd (encode i) = _
  rw [State.writeReg, hb]
  rfl

/-- Settling runs the command on the port: two steps, its acceptance and the command itself. -/
theorem settle_cmd {s t : State} {i : Instr} {rest : List PortCycle}
    (hr : s.awaitingReset = false) (hb : s.status.busy = false)
    (ht : exec i ((s.acceptNow (encode i)).withPort rest) = .next t) :
    settle (s.withPort (cmdCycle i :: rest)) = settleFor (2 * rest.length + 1) t := by
  have hfetch : exec (decode (encode i)) ((s.acceptNow (encode i)).withPort rest) = .next t := by
    rw [decode_encode, ht]
  calc settle (s.withPort (cmdCycle i :: rest))
      = settleFor (2 * rest.length + 2) (stepState (s.withPort (cmdCycle i :: rest))) :=
        settleFor_port rfl _
    _ = settleFor (2 * rest.length + 2) ((s.acceptNow (encode i)).withPort rest) := by
        rw [stepState_idle (s := s.withPort (cmdCycle i :: rest)) hr hb, idle_cmd i rest hb]
    _ = settleFor (2 * rest.length + 1) (stepState ((s.acceptNow (encode i)).withPort rest)) :=
        settleFor_busy rfl _
    _ = settleFor (2 * rest.length + 1) t := by
        rw [stepState_busy (s := (s.acceptNow (encode i)).withPort rest) hr rfl hfetch]

/-- `s` once a poll in its next cycle is answered, with nothing left on the port. -/
def State.afterPoll (s : State) : State :=
  { s with now := s.now + 1, port := [], reads := ⟨s.now + 1, 0x1#4, s.statusWord⟩ :: s.reads }

/-- Settling lets the last poll of an idle block be answered. -/
theorem settleFor_poll {s : State} (hr : s.awaitingReset = false) (hb : s.status.busy = false)
    (n : Nat) : settleFor (n + 1) (s.polled 1) = s.afterPoll :=
  calc settleFor (n + 1) (s.polled 1)
      = settleFor n (stepState (s.polled 1)) := settleFor_port rfl n
    _ = settleFor n s.afterPoll := congrArg _ (stepState_idle (s := s.polled 1) hr hb)
    _ = s.afterPoll := settleFor_done (s := s.afterPoll) hb rfl n

/-- The polls `wait_idle` presents after `cmd i`: one for each cycle of the command, and one more. -/
theorem pollsToIdle_cmd {s u : State} {i : Instr} (hr : s.awaitingReset = false)
    (hb : s.status.busy = false) (hu : exec i ((s.acceptNow (encode i)).withPort []) = .next u)
    (hidle : u.status.busy = false) (hport : u.port = []) :
    (s.withPort [cmdCycle i]).pollsToIdle = u.now - (s.acceptNow (encode i)).now + 1 := by
  rw [State.pollsToIdle, settle_cmd hr hb hu, settleFor_done hidle hport]
  rfl

end Sys2Proof.Machine

open Sys2Proof Sys2Proof.Machine

/-- Settles O55: under the polls the command runs as without them (`exec_polled`), and the one poll left
finds it done. -/
theorem waitIdlePollsToTheEndOfTheCommand : Obligations.WaitIdlePollsToTheEndOfTheCommand := by
  intro s i hr hb hp a
  have hap : a.port = [] := hp
  have hnr : NoReset a := by rw [NoReset, hap]; simp
  obtain ⟨-, u, -, hu, -⟩ := exec_blind i (s := a) (s' := a) ⟨rfl, hap⟩ hnr rfl
  obtain ⟨hidle, hport, polls, ⟨hasked, hbusy⟩, hpolled⟩ := exec_polled 1 rfl hap hu
  have hawait : u.awaitingReset = false := (exec_awaitingReset rfl hnr hu).trans hr
  refine ⟨u, polls, hu, hidle, ?_, hasked, hbusy⟩
  have hcmd : hostOp s (.cmd i) = s.withPort [cmdCycle i] := by
    change { s with port := s.port ++ [cmdCycle i] } = _
    rw [hp]; rfl
  have hcount : (s.withPort [cmdCycle i]).pollsToIdle = u.now - a.now + 1 :=
    pollsToIdle_cmd hr hb (by rw [withPort_self hap, hu]) hidle hport
  have hwait : hostOp (s.withPort [cmdCycle i]) .waitIdle
      = (u.withReads (polls ++ a.reads)).afterPoll :=
    calc hostOp (s.withPort [cmdCycle i]) .waitIdle
        = settle (s.withPort (cmdCycle i :: List.replicate (u.now - a.now + 1) pollCycle)) := by
          rw [hostOp, hcount]; rfl
      _ = settleFor _ ((u.withReads (polls ++ a.reads)).polled 1) := settle_cmd hr hb hpolled
      _ = (u.withReads (polls ++ a.reads)).afterPoll :=
          settleFor_poll (s := u.withReads (polls ++ a.reads)) hawait hidle _
  calc hostProgram s [.cmd i, .waitIdle]
      = settle ((u.withReads (polls ++ a.reads)).afterPoll) := by
        rw [hostProgram, List.foldl_cons, List.foldl_cons, List.foldl_nil, hcmd, hwait]
    _ = (u.withReads (polls ++ a.reads)).afterPoll :=
        settleFor_done (s := (u.withReads (polls ++ a.reads)).afterPoll) hidle rfl _
    _ = _ := by rw [State.afterPoll, ← hport]; rfl
end

section
/-! PROOF. What the registers of the window read, and what a host write does to them (10_state.md). -/

namespace Sys2Proof.Machine

/-! ### Fields of a word -/

/-- Above a value's bits the word that holds it in its low bits is 0. -/
theorem setWidth_ushiftRight_self {n : Nat} (x : BitVec n) (m : Nat) :
    x.setWidth m >>> n = 0#m := by
  apply BitVec.eq_of_getLsbD_eq
  intro i _
  simp

/-- A register that is one field from bit 0 on. -/
theorem lowField {n : Nat} (x : BitVec n) (h : n ≤ 32) :
    (x.setWidth 32).extractLsb' 0 n = x ∧ x.setWidth 32 >>> n = 0#32 :=
  ⟨by rw [BitVec.extractLsb'_setWidth_of_le (by omega), BitVec.extractLsb'_eq_self],
    setWidth_ushiftRight_self x 32⟩

/-- A register that is one flag at bit 0. -/
theorem lowBit (b : Bool) :
    ((BitVec.ofBool b).setWidth 32).getLsbD 0 = b ∧ (BitVec.ofBool b).setWidth 32 >>> 1 = 0#32 :=
  ⟨by simp, setWidth_ushiftRight_self _ 32⟩

/-- A field a word is stored in reads as the word under the mask of the field. -/
theorem setWidth_setWidth_eq_and (v : Word) (n : Nat) :
    (v.setWidth n).setWidth 32 = v &&& (BitVec.allOnes n).setWidth 32 := by
  apply BitVec.eq_of_getLsbD_eq
  intro i hi
  by_cases hn : i < n <;> simp [hi, hn]

theorem lowByte_word (v : Word) : (lowByte v).setWidth 32 = v &&& 0xFF#32 :=
  setWidth_setWidth_eq_and v 8

/-! ### The words made of several fields -/

/-- The flags of STATUS beside those of `statusWord_busy` and `statusWord_live` (10_state.md R32). -/
theorem statusWord_flags (s : State) :
    s.statusWord.getLsbD 3 = s.status.presence ∧ s.statusWord.getLsbD 4 = s.status.found
      ∧ s.statusWord.getLsbD 6 = s.status.cal ∧ s.statusWord.getLsbD 7 = s.status.calerr
      ∧ s.statusWord.getLsbD 12 = s.status.stuck := by
  simp only [State.statusWord, BitVec.getLsbD_setWidth, BitVec.getLsbD_append,
    BitVec.getLsbD_ofBool]
  simp

theorem statusWord_result (s : State) : s.statusWord.extractLsb' 8 4 = s.status.result.code := by
  rw [State.statusWord, BitVec.extractLsb'_setWidth_of_le (by decide)]
  iterate 8 rw [BitVec.extractLsb'_append_eq_of_le (by decide)]
  exact BitVec.extractLsb'_append_eq_right

/-- 10_state.md R50. -/
theorem stateWord_fields (q : Search) :
    q.stateWord.extractLsb' 0 7 = q.ld ∧ q.stateWord.getLsbD 7 = false
      ∧ q.stateWord.extractLsb' 8 4 = q.lfd ∧ q.stateWord.extractLsb' 12 4 = 0#4
      ∧ q.stateWord.getLsbD 16 = q.term ∧ q.stateWord >>> 17 = 0#32 := by
  unfold Search.stateWord
  refine ⟨?ld, ?bit7, ?lfd, ?bits15to12, ?term, setWidth_ushiftRight_self _ 32⟩
  case ld =>
    rw [BitVec.extractLsb'_setWidth_of_le (by decide)]
    exact BitVec.extractLsb'_append_eq_right
  case lfd =>
    rw [BitVec.extractLsb'_setWidth_of_le (by decide), BitVec.extractLsb'_append_eq_of_le (by decide),
      BitVec.extractLsb'_append_eq_of_le (by decide)]
    exact BitVec.extractLsb'_append_eq_right
  case bits15to12 =>
    rw [BitVec.extractLsb'_setWidth_of_le (by decide), BitVec.extractLsb'_append_eq_of_le (by decide),
      BitVec.extractLsb'_append_eq_of_le (by decide), BitVec.extractLsb'_append_eq_of_le (by decide)]
    exact BitVec.extractLsb'_append_eq_right
  case bit7 | term =>
    simp only [BitVec.getLsbD_setWidth, BitVec.getLsbD_append]
    simp

/-- 10_state.md R55. -/
theorem hwcfgWord_fields (s : State) :
    s.hwcfgWord.getLsbD 0 = s.cfg.hasCrc16 ∧ s.hwcfgWord.extractLsb' 1 7 = 0#7
      ∧ s.hwcfgWord.extractLsb' 8 8 = s.cfg.clkPerUs ∧ s.hwcfgWord >>> 16 = 0#32 := by
  unfold State.hwcfgWord
  refine ⟨?hasCrc16, ?bits7to1, ?clkPerUs, setWidth_ushiftRight_self _ 32⟩
  case hasCrc16 =>
    simp only [BitVec.getLsbD_setWidth, BitVec.getLsbD_append]
    simp
  case bits7to1 =>
    rw [BitVec.extractLsb'_setWidth_of_le (by decide), BitVec.extractLsb'_append_eq_of_le (by decide)]
    exact BitVec.extractLsb'_append_eq_right
  case clkPerUs =>
    rw [BitVec.extractLsb'_setWidth_of_le (by decide), BitVec.extractLsb'_append_eq_of_le (by decide)]
    exact BitVec.extractLsb'_append_eq_left

/-- HWCFG as `resetReading` writes it. -/
theorem hwcfgWord_eq (s : State) : s.hwcfgWord
    = s.cfg.clkPerUs.setWidth 32 <<< 8 ||| (BitVec.ofBool s.cfg.hasCrc16).setWidth 32 := by
  rw [State.hwcfgWord, BitVec.setWidth_append_append_eq_shiftLeft_setWidth_or]
  simp

/-- The bytes of the candidate ROM buffer in its two registers (20_memory.md R74). -/
theorem srchRom_bytes (q : Search) {i : Nat} (hi : i < 4) :
    q.romLo.extractLsb' (8 * i) 8 = romByte q.buf i
      ∧ q.romHi.extractLsb' (8 * i) 8 = romByte q.buf (i + 4) := by
  constructor
  · exact (BitVec.extractLsb'_append_eq_of_add_le (by omega)).symm
  · rw [romByte, Search.buf, romOf, BitVec.extractLsb'_append_eq_of_le (by omega),
      show 8 * (i + 4) - 32 = 8 * i by omega]

/-! ### Host writes -/

/-- STATUS words that differ in DONE and OVR at most agree at every other bit. -/
theorem statusWord_bit {s t : State} (h : t.status = { s.status with
      done := t.status.done, ovr := t.status.ovr }) (hp : t.pads = s.pads) {i : Nat} (hi : i < 32)
    (h1 : i ≠ 1) (h2 : i ≠ 2) : t.statusWord.getLsbD i = s.statusWord.getLsbD i := by
  by_cases h5 : i = 5
  · subst h5
    rw [(statusWord_live t).2.2, (statusWord_live s).2.2, hp]
  · have hmask : ∀ j < 32, j ≠ 1 → j ≠ 2 → j ≠ 5 → (0xFFFFFFD9#32).getLsbD j = true := by decide
    have hbit := congrArg (fun w : Word => w.getLsbD i) (statusWord_masked h)
    simpa only [BitVec.getLsbD_and, hmask i hi h1 h2 h5, Bool.and_true] using hbit

/-- What STATUS reads after a host write to it (10_state.md R41). -/
theorem statusWord_writeReg_status (s : State) (v : Word) :
    (s.writeReg .status v).statusWord = s.statusWord &&& ~~~(v &&& 0x6#32) := by
  obtain ⟨hdone, hovr, -⟩ := statusWord_live s
  obtain ⟨hdone', hovr', -⟩ := statusWord_live (s.writeReg .status v)
  have hmask : ∀ j < 32, j ≠ 1 → j ≠ 2 → (0x6#32).getLsbD j = false := by decide
  apply BitVec.eq_of_getLsbD_eq
  intro i hi
  rw [BitVec.getLsbD_and, BitVec.getLsbD_not, BitVec.getLsbD_and]
  by_cases h1 : i = 1
  · subst h1
    rw [hdone', hdone]
    simp [State.writeReg, Status.clearOnes]
  by_cases h2 : i = 2
  · subst h2
    rw [hovr', hovr]
    simp [State.writeReg, Status.clearOnes]
  · rw [statusWord_bit (s := s) (t := s.writeReg .status v) rfl rfl hi h1 h2, hmask i hi h1 h2,
      decide_eq_true hi, Bool.and_false, Bool.not_false, Bool.and_self, Bool.and_true]

theorem readReg_writeReg_status (s : State) (v : Word) : (s.writeReg .status v).readReg
    = Function.update s.readReg .status (s.writeReg .status v).statusWord := by
  funext q
  cases q <;> rfl

theorem legalTsample_iff (v : Byte) : legalTsample v = true ↔ 1 ≤ v.toNat ∧ v.toNat ≤ 59 := by
  simp [legalTsample]

theorem tsampleLocked_eq_false (s : State) :
    s.tsampleLocked = false ↔ s.status.cal = false ∧ s.status.calerr = false :=
  Bool.or_eq_false_iff

/-- A word that an unlocked TSAMPLE takes (10_state.md R44, R45). -/
theorem takesTsample_iff (s : State) (v : Word) :
    s.tsampleLocked = false ∧ legalTsample (lowByte v) = true ↔
      s.status.cal = false ∧ s.status.calerr = false ∧ 1 ≤ (v &&& 0xFF#32).toNat
        ∧ (v &&& 0xFF#32).toNat ≤ 59 := by
  rw [tsampleLocked_eq_false, legalTsample_iff, ← lowByte_word,
    BitVec.toNat_setWidth_of_le (by decide), and_assoc]

section Idle

variable {s : State} (hb : s.status.busy = false) (v : Word)

include hb

theorem writeReg_tsample : s.writeReg .tsample v =
    if s.tsampleLocked = false ∧ legalTsample (lowByte v) = true
      then { s with tsample := lowByte v } else s := by
  rw [State.writeReg, hb]
  cases s.tsampleLocked <;> cases legalTsample (lowByte v) <;> rfl

theorem writeReg_crc16 : s.writeReg .crc16 v =
    if s.cfg.hasCrc16 = true then { s with crc16 := v.setWidth 16 } else s := by
  rw [State.writeReg, hb]
  cases s.cfg.hasCrc16 <;> rfl

/-- A host write to an idle block changes the reading of the register written and of no other, but for
CMD, whose write is an acceptance. -/
theorem readReg_writeReg {r : RegName} (hr : r ≠ .cmd) : (s.writeReg r v).readReg
    = Function.update s.readReg r ((s.writeReg r v).readReg r) := by
  cases r
  case cmd => exact absurd rfl hr
  case tsample =>
    rw [writeReg_tsample hb]
    split
    · funext q; cases q <;> rfl
    · exact (Function.update_eq_self _ _).symm
  case crc16 =>
    rw [writeReg_crc16 hb]
    split
    · funext q; cases q <;> rfl
    · exact (Function.update_eq_self _ _).symm
  all_goals
    simp only [State.writeReg, hb, Bool.false_eq_true, if_false]
    funext q
    cases q <;> rfl

end Idle

/-- 10_state.md R29, R30. -/
theorem writeReg_readOnly {r : RegName} (s : State) (v : Word) (h : r ∈ [RegName.latency, .srchRomLo,
    .srchRomHi, .srchState, .hwcfg, .reserved38, .reserved3C]) : s.writeReg r v = s := by
  simp only [List.mem_cons, List.not_mem_nil, or_false] at h
  rcases h with rfl | rfl | rfl | rfl | rfl | rfl | rfl <;> rfl

/-! ### Right after a reset edge -/

/-- `t` holds the reset values of the build `cfg`; time, the inputs and the records of what happened go on
(70_reset_and_hazards.md R207). -/
def State.AfterReset (cfg : Config) (t : State) : Prop :=
  t = { State.resetFor cfg with
    now := t.now, wave := t.wave, port := t.port, reads := t.reads, env := t.env }

theorem resetFor_afterReset (cfg : Config) : (State.resetFor cfg).AfterReset cfg := rfl

theorem resetEdge_afterReset (s : State) : s.resetEdge.AfterReset s.cfg := rfl

theorem portEdge_afterReset {c : PortCycle} (s : State) (hc : c.rst = true) :
    (s.portEdge c).AfterReset s.cfg := by
  rw [State.portEdge, if_pos hc]
  rcases c.access with _ | ⟨_ | _⟩ <;> rfl

theorem State.AfterReset.readReg {cfg : Config} {t : State} (h : t.AfterReset cfg) (r : RegName) :
    t.readReg r = resetReading cfg r := by
  rw [h]
  cases r
  case hwcfg => exact hwcfgWord_eq _
  case crc16 => exact ite_self _
  case status => exact (by decide : State.statusWord State.reset = 0#32)
  case srchState => exact (by decide : Search.stateWord .cleared = 0#32)
  all_goals rfl

end Sys2Proof.Machine

open Sys2Proof Sys2Proof.Machine

/-- Settles O3: a port cycle with `rst_n` low leaves the block in its reset values. -/
theorem resetLeavesTheListedValues : Obligations.ResetLeavesTheListedValues := by
  refine ⟨fun s c hc => ?_, (resetFor_afterReset _).readReg, rfl⟩
  have h := portEdge_afterReset s hc
  refine ⟨h.readReg, ?_, ?_, ?_, ?_⟩ <;> rw [h] <;> rfl

/-- Settles O6: bits 1 and 2 of the word change as `Status.clearOnes` says, and no other reading does. -/
theorem statusWriteClearsOnlyDoneAndOvr : Obligations.StatusWriteClearsOnlyDoneAndOvr := by
  refine fun s v => ⟨statusWord_writeReg_status s v, fun r hr => ?_, rfl, rfl, rfl⟩
  rw [readReg_writeReg_status, Function.update_of_ne hr]

/-- Settles O7: each writable register takes its field, and the frame is `readReg_writeReg`. -/
theorem idleWritesStoreTheirFields : Obligations.IdleWritesStoreTheirFields := by
  intro s a v hb
  simp only [State.hostAccess]
  generalize regAt a = r
  refine ⟨?data, ?config, ?tsample, ?selRomLo, ?selRomHi, ?crc8, ?crc16, fun h q hq => ?frame,
    writeReg_readOnly s v⟩
  case frame =>
    have hr : r ≠ .cmd := by rintro rfl; exact absurd h (by decide)
    rw [readReg_writeReg hb v hr, Function.update_of_ne hq]
  case tsample =>
    rintro rfl
    simp only [writeReg_tsample hb, takesTsample_iff]
    split
    · exact lowByte_word v
    · rfl
  case crc16 =>
    rintro rfl
    rw [writeReg_crc16 hb]
    cases h : s.cfg.hasCrc16 with
    | true => exact (if_pos h).trans (setWidth_setWidth_eq_and v 16)
    | false => exact if_neg (ne_true_of_eq_false h)
  case config => rintro rfl; exact BitVec.and_one_eq_setWidth_ofBool_getLsbD.symm
  case data | crc8 => rintro rfl; rw [State.writeReg, hb]; exact lowByte_word v
  case selRomLo | selRomHi => rintro rfl; rw [State.writeReg, hb]; rfl

/-- Settles O4. -/
theorem statusReadsItsFields : Obligations.StatusReadsItsFields := by
  refine ⟨fun s => ?_, rfl⟩
  obtain ⟨hdone, hovr, hpower⟩ := statusWord_live s
  obtain ⟨hpresence, hfound, hcal, hcalerr, hstuck⟩ := statusWord_flags s
  exact ⟨statusWord_busy s, hdone, hovr, hpresence, hfound, hpower, hcal, hcalerr,
    statusWord_result s, hstuck, setWidth_ushiftRight_self _ 32⟩

/-- Settles O11. -/
theorem irqEqualsDoneAndIe : Obligations.IrqEqualsDoneAndIe := by
  intro s
  rw [State.irq, State.readReg, (statusWord_live s).1, State.readReg, (lowBit s.ie).1]

/-- Settles O50: the map is checked offset by offset, and an access is one to the register there. -/
theorem theWindowHasItsMap : Obligations.TheWindowHasItsMap := by
  refine fun s a => ⟨regAt a, ?_, rfl, rfl, fun _ => rfl⟩
  revert a
  decide

/-- Settles O51, field by field. -/
theorem everyRegisterReadsItsFields : Obligations.EveryRegisterReadsItsFields := by
  intro s
  refine ⟨rfl, rfl, rfl, lowField s.data (by decide), lowBit s.ie, lowField s.tsample (by decide),
    lowField s.latency (by decide), ⟨rfl, rfl⟩, ⟨rfl, rfl⟩, fun i hi => srchRom_bytes s.search hi,
    stateWord_fields s.search, lowField s.crc8 (by decide), fun hcrc => ?_, fun hcrc => ?_,
    hwcfgWord_fields s⟩
  · rw [State.readReg, if_pos hcrc]
    exact lowField s.crc16 (by decide)
  · rw [State.readReg, hcrc]
    rfl
end

section
/-! PROOF. What a step keeps: `step_effect` names every way a step of a block that has been reset can end,
and each statement about steps is one case for each of them. -/

namespace Sys2Proof.Machine

/-! ### A command's end -/

theorem exec_ends {i : Instr} {s t : State} (hb : s.status.busy = true) (h : exec i s = .next t) :
    CutShort s t ∨ ∃ u v r, Began s u ∧ Effect s u i r v ∧ t = v.complete r := by
  obtain ⟨t', h', hends⟩ := exec_effect i hb
  cases h.symm.trans h'
  exact hends

/-- With no reset to come a command completes. -/
theorem exec_completes {i : Instr} {s t : State} (hb : s.status.busy = true) (hn : NoReset s)
    (h : exec i s = .next t) : ∃ u v r, Began s u ∧ Effect s u i r v ∧ t = v.complete r :=
  (exec_ends hb h).resolve_left fun hcut => hcut.asked hn

/-! ### A step's end -/

/-- Every way a step of a block that has been reset can end: in the reset values; idle, with at most one
host access; or at the completion edge of the accepted command. -/
inductive StepEffect (s : State) : State → Prop
  | reset (t : State) : ¬NoReset s → t.AfterReset s.cfg → (s.Timely → t.Timely) → StepEffect s t
  | idle (n : Nat) (port : List PortCycle) (t : State) : s.status.busy = false →
      AccessEffect (s.after n port) t → StepEffect s t
  | completed (u v : State) (r : ResultCode) : s.status.busy = true → Began s u →
      Effect s u s.fetch r v → StepEffect s (v.complete r)

theorem step_effect {s t : State} (hr : s.awaitingReset = false) (h : step s = .next t) :
    StepEffect s t := by
  rcases step_cases h with ⟨hr', -⟩ | ⟨-, hb, hexec⟩ | ⟨-, hb, hidle⟩
  · exact absurd hr' (ne_true_of_eq_false hr)
  · rcases exec_ends hb hexec with hcut | ⟨u, v, r, hu, he, rfl⟩
    · exact .reset t hcut.asked hcut.frame hcut.timely
    · exact .completed u v r hb hu he
  · cases hidle with
    | quiet n port => exact .idle n port _ hb .nothing
    | access n port a => exact .idle n port _ hb (access_effect (s := s.after n port) hb a)
    | reset n port reads _ hasked =>
      exact .reset _ hasked (resetEdge_afterReset _) fun h =>
        h.event (p := Pads.released) rfl rfl (Nat.le_add_right _ _)

theorem step_busy {s : State} (hr : s.awaitingReset = false) (hb : s.status.busy = true) :
    step s = exec s.fetch s := by
  rw [step, hr, hb]; rfl

theorem step_idle {s : State} (hr : s.awaitingReset = false) (hb : s.status.busy = false) :
    step s = .next s.idle := by
  rw [step, hr, hb]; rfl

theorem idle_nil {s : State} (hp : s.port = []) : s.idle = { s with now := s.now + 1 } := by
  rw [State.idle, hp]

theorem idle_cons {s : State} {c : PortCycle} {rest : List PortCycle} (hp : s.port = c :: rest) :
    s.idle = ({ s with now := s.now + (c.gap + 1), port := rest }).portEdge c := by
  rw [State.idle, hp]

theorem portEdge_of_access {c : PortCycle} (s : State) {a : Access} (hc : c.rst = false)
    (ha : c.access = some a) : s.portEdge c = s.hostAccess a := by
  rw [State.portEdge, hc, ha]; rfl

theorem portEdge_of_none {c : PortCycle} (s : State) (hc : c.rst = false) (ha : c.access = none) :
    s.portEdge c = s := by
  rw [State.portEdge, hc, ha]; rfl

theorem decode_of_decodeTableWord {nbits w : Nat} {i : Instr} (h : decodeTableWord nbits w = some i) :
    decode (BitVec.ofNat 32 (w % 2 ^ nbits)) = i := by
  rw [decodeTableWord] at h
  split at h
  · exact Option.some.inj h
  · contradiction

/-! ### The ranges of the search state (10_state.md R52) -/

theorem inRange_cleared : Search.cleared.inRange := by simp [Search.inRange, Search.cleared]

theorem inRange_target (family : Byte) : (Search.target family).inRange := by
  simp [Search.inRange, Search.target]

theorem inRange_commitPass {u : State} (h : ZerosBelow u.w 65) : u.commitPass.search.inRange := by
  obtain ⟨hlast, hfam, hle⟩ := h
  refine ⟨Nat.le_of_lt_succ hlast, hfam, hle, fun hterm => ?_⟩
  have hzero : u.w.lastZero = 0#7 := of_decide_eq_true hterm
  rw [hzero] at hle
  exact ⟨hzero, BitVec.eq_of_toNat_eq (Nat.le_zero.1 hle)⟩

/-! ### What a commit writes -/

/-- The state a pass that found nothing is cleared in, as `Effect.dropped` gives it. -/
theorem before_dropped {u v : State} {r : ResultCode} (h :
      r = .busCollisionAbort ∧ v = u.recordReset ⟨true, false⟩
        ∨ r = .zeroFamily ∧ v = u.recordReset ⟨true, false⟩
        ∨ r = .crcMismatch ∧ v = (u.recordReset ⟨true, false⟩).checkCrc) :
    ∃ w, v = { u.recordReset ⟨true, false⟩ with w := w } := by
  rcases h with ⟨-, rfl⟩ | ⟨-, rfl⟩ | ⟨-, rfl⟩ <;> exact ⟨_, rfl⟩

namespace Effect

variable {s u v : State} {i : Instr} {r : ResultCode}

/-- 10_state.md R42. -/
theorem keeps_data (h : Effect s u i r v) (hi : i ∉ [Instr.readBit, .readByte]) :
    v.data = u.data := by
  cases h
  case received hr => exact absurd hr hi
  case dropped hv => obtain ⟨w, rfl⟩ := before_dropped hv; rfl
  all_goals rfl

/-- 10_state.md R53. -/
theorem keeps_crc8 (h : Effect s u i r v) (hi : i ≠ .crc8) : v.crc8 = u.crc8 := by
  cases h
  case crc8 => exact absurd rfl hi
  case dropped hv => obtain ⟨w, rfl⟩ := before_dropped hv; rfl
  all_goals rfl

/-- 10_state.md R54. -/
theorem keeps_crc16 (h : Effect s u i r v) (hi : i ≠ .crc16) : v.crc16 = u.crc16 := by
  cases h
  case crc16 => exact absurd rfl hi
  case dropped hv => obtain ⟨w, rfl⟩ := before_dropped hv; rfl
  all_goals rfl

/-- 10_state.md R38, R51. -/
theorem keeps_search (h : Effect s u i r v)
    (hi : i ∉ [Instr.searchNext, .searchReset, .targetSearch]) :
    v.search = u.search ∧ v.status.found = u.status.found := by
  cases h
  case exhausted | noDevice | dropped | found | searchReset | targetSearch =>
    exact absurd (by decide) hi
  case calibrated pass _ _ _ _ _ => exact ⟨rfl, by cases pass <;> rfl⟩
  all_goals exact ⟨rfl, rfl⟩

/-- 10_state.md R36. -/
theorem keeps_presence (h : Effect s u i r v) (hi : i ∉ [Instr.owReset, .searchNext]) :
    v.status.presence = u.status.presence ∧ v.status.stuck = u.status.stuck := by
  cases h
  case owReset | exhausted | noDevice | dropped | found => exact absurd (by decide) hi
  case calibrated pass _ _ _ _ _ => cases pass <;> exact ⟨rfl, rfl⟩
  all_goals exact ⟨rfl, rfl⟩

/-- CAL, CALERR and LATENCY stay, or the command was the first CALIBRATE (10_state.md R39, R46,
43_control.md R181). -/
theorem calibration (h : Effect s u i r v) :
    (v.status.cal = u.status.cal ∧ v.status.calerr = u.status.calerr ∧ v.latency = u.latency)
      ∨ i = .calibrate ∧ s.status.cal = false ∧ s.status.calerr = false
        ∧ (s.cfg.wf = true → Config.syncStages < u.w.cal.toNat)
        ∧ v = u.commitCalibration (decide (u.w.cal.toNat < u.w.tsample.toNat * u.cyclesPerUs)) := by
  cases h
  case calibrated pass hcal hcalerr _ hpass hsync =>
    exact .inr ⟨rfl, hcal, hcalerr, hsync, by rw [hpass]⟩
  case dropped hv => obtain ⟨w, rfl⟩ := before_dropped hv; exact .inl ⟨rfl, rfl, rfl⟩
  all_goals exact .inl ⟨rfl, rfl, rfl⟩

/-- What a command leaves on the pads: what it found there, a line it does not drive, or a power hold
(20_memory.md R83, 40_bus_transactions.md R124). -/
theorem pads (h : Effect s u i r v) :
    v.pads = s.pads ∨ Freed s v ∨ i = .writeByteH ∧ s.status.cal = true ∧ v.pads = Pads.high := by
  have released : u.pads = Pads.released → Freed s u := fun hp =>
    ⟨by rw [hp]; rfl, fun _ => by rw [hp]; rfl⟩
  obtain ⟨-, -, -, -, hpads, -⟩ := h.stays
  rw [Freed, hpads]
  cases h
  case gateClosed hp _ | illegal hp _ | nop hp | exhausted hp | searchReset hp | targetSearch hp
      | crc8 hp | crc16 hp => exact .inl hp
  case owReset hf | depower hf | noDevice hf => exact .inr (.inl hf)
  case sent hp _ | received hp _ | dropped hp _ | found hp _ _ _ | calibrated hp _ _ =>
    exact .inr (.inl (released hp))
  case sentHold hcal hp => exact .inr (.inr ⟨rfl, hcal, hp⟩)

/-- A power hold there is after a command was there before, or WRITE_BYTE.H began it. -/
theorem hold (h : Effect s u i r v) (hp : v.pads.pu = true) :
    v.pads = s.pads ∨ i = .writeByteH ∧ s.status.cal = true := by
  rcases h.pads with hkept | ⟨hpu, -⟩ | ⟨hi, hcal, -⟩
  · exact .inl hkept
  · exact absurd hp (ne_true_of_eq_false hpu)
  · exact .inr ⟨hi, hcal⟩

theorem keeps_notLow (h : Effect s u i r v) (hs : s.pads.oeLow = false) :
    v.pads.oeLow = false := by
  rcases h.pads with hkept | ⟨-, hlow⟩ | ⟨-, -, hhigh⟩
  · rw [hkept, hs]
  · exact hlow hs
  · rw [hhigh]; rfl

/-- 10_state.md R52. -/
theorem keeps_inRange (h : Effect s u i r v) (hu : u.search.inRange) : v.search.inRange := by
  cases h
  case noDevice | searchReset | dropped => exact inRange_cleared
  case targetSearch => exact inRange_target _
  case found hz => exact inRange_commitPass (u := (u.recordReset _).checkCrc) hz
  all_goals exact hu

/-- 10_state.md R36. -/
theorem keeps_stuckAbsent (h : Effect s u i r v)
    (hu : u.status.stuck = true → u.status.presence = false) :
    v.status.stuck = true → v.status.presence = false := by
  cases h
  case owReset ho _ => exact ho
  case noDevice ho _ => exact fun _ => ho
  case dropped hv =>
    obtain ⟨w, rfl⟩ := before_dropped hv
    exact fun h => absurd h Bool.false_ne_true
  case found => exact fun h => absurd h Bool.false_ne_true
  case calibrated pass _ _ _ _ _ => cases pass <;> exact hu
  all_goals exact hu

/-- 10_state.md R38, 41_rom_search.md R152, R153. -/
theorem keeps_foundValid (h : Effect s u i r v)
    (hu : u.status.found = true → validRom u.search.buf = true ∧ romByte u.search.buf 0 ≠ 0x00#8) :
    v.status.found = true → validRom v.search.buf = true ∧ romByte v.search.buf 0 ≠ 0x00#8 := by
  cases h
  case exhausted | noDevice | dropped | searchReset | targetSearch =>
    exact fun h => absurd h Bool.false_ne_true
  case found hf hv _ =>
    have hbuf : (u.recordReset ⟨true, false⟩).checkCrc.commitPass.search.buf = u.w.buf :=
      romOf_split u.w.buf
    rw [hbuf]
    exact fun _ => ⟨hv, hf⟩
  case calibrated pass _ _ _ _ _ => cases pass <;> exact hu
  all_goals exact hu

end Effect

/-! ### The calibration -/

/-- The outcome of a calibration, LATENCY and TSAMPLE are the same in `s` and `t`. -/
structure SameCalibration (s t : State) : Prop where
  cal : t.status.cal = s.status.cal
  calerr : t.status.calerr = s.status.calerr
  latency : t.latency = s.latency
  tsample : t.tsample = s.tsample

/-- What a command commits keeps the calibration, or it was the first CALIBRATE. -/
theorem Effect.sameCalibration {s u v : State} {i : Instr} {r : ResultCode} (h : Effect s u i r v)
    (hd : Did s u) : SameCalibration s v
      ∨ i = .calibrate ∧ s.status.cal = false ∧ s.status.calerr = false
        ∧ (s.cfg.wf = true → Config.syncStages < u.w.cal.toNat)
        ∧ v = u.commitCalibration (decide (u.w.cal.toNat < u.w.tsample.toNat * u.cyclesPerUs)) := by
  obtain ⟨-, -, -, -, -, -, hcal, hcalerr⟩ := hd.stays
  obtain ⟨-, hts, hlat, -⟩ := hd.regs
  obtain ⟨hts', -⟩ := h.stays
  refine h.calibration.imp_left fun ⟨hcal', hcalerr', hlat'⟩ => ?_
  exact ⟨hcal'.trans hcal, hcalerr'.trans hcalerr, hlat'.trans hlat, hts'.trans hts⟩

/-- A host access to an idle block keeps a calibration that has run (10_state.md R45). -/
theorem AccessEffect.sameCalibration {s t : State} (h : AccessEffect s t)
    (hrun : s.status.cal = true ∨ s.status.calerr = true) : SameCalibration s t := by
  cases h
  case tsample hfree _ =>
    have hlocked : s.tsampleLocked = true := Bool.or_eq_true_iff.2 hrun
    exact absurd hlocked (ne_true_of_eq_false hfree)
  all_goals exact ⟨rfl, rfl, rfl, rfl⟩

/-- What the invariant says of CAL, CALERR, LATENCY and TSAMPLE (10_state.md R39, 43_control.md R181,
R182). -/
structure CalibratedRelation (s : State) : Prop where
  once : ¬(s.status.cal = true ∧ s.status.calerr = true)
  passed : s.status.cal = true → s.latency.toNat < s.tsample.toNat * s.cyclesPerUs
  synced : s.status.cal = true → Config.syncStages < s.latency.toNat
  failed : s.status.calerr = true → s.tsample.toNat * s.cyclesPerUs ≤ s.latency.toNat

theorem Invariant.calibratedRelation {s : State} (h : Invariant s) : CalibratedRelation s :=
  ⟨h.calOnce, h.calPassed, h.calLatency, h.calFailed⟩

theorem CalibratedRelation.of_same {s t : State} (h : CalibratedRelation s) (hsame : SameCalibration s t)
    (hcfg : t.cfg = s.cfg) : CalibratedRelation t := by
  obtain ⟨hcal, hcalerr, hlat, hts⟩ := hsame
  obtain ⟨honce, hpassed, hsynced, hfailed⟩ := h
  constructor <;> simp only [hcal, hcalerr, hlat, hts, State.cyclesPerUs, hcfg] <;> assumption

/-- The first measurement's commit establishes the relation: it passes iff LATENCY is below TSAMPLE in
cycles (43_control.md R181). -/
theorem CalibratedRelation.of_commit {u : State} (hcal : u.status.cal = false)
    (hcalerr : u.status.calerr = false) (hts : u.w.tsample = u.tsample)
    (hsync : Config.syncStages < u.w.cal.toNat) : CalibratedRelation
      (u.commitCalibration (decide (u.w.cal.toNat < u.w.tsample.toNat * u.cyclesPerUs))) := by
  rw [hts]
  by_cases hpass : u.w.cal.toNat < u.tsample.toNat * u.cyclesPerUs
  · rw [decide_eq_true hpass]
    exact ⟨fun h => absurd h.2 (ne_true_of_eq_false hcalerr), fun _ => hpass, fun _ => hsync,
      fun h => absurd h (ne_true_of_eq_false hcalerr)⟩
  · rw [decide_eq_false hpass]
    exact ⟨fun h => absurd h.1 (ne_true_of_eq_false hcal),
      fun h => absurd h (ne_true_of_eq_false hcal), fun h => absurd h (ne_true_of_eq_false hcal),
      fun _ => Nat.le_of_not_lt hpass⟩

/-! ### The invariant -/

/-- What a command of a block that meets the invariant commits meets the calibrated relation. -/
theorem Invariant.calibratedRelation_commit {s u v : State} {i : Instr} {r : ResultCode}
    (h : Invariant s) (hb : s.status.busy = true) (hd : Did s u) (he : Effect s u i r v) :
    CalibratedRelation v := by
  obtain ⟨-, -, hwts, -, -, hcfg, hcal, hcalerr⟩ := hd.stays
  obtain ⟨-, hts, -⟩ := hd.regs
  obtain ⟨-, -, -, hcfg', -⟩ := he.stays
  rcases he.sameCalibration hd with hsame | ⟨-, hnot, hnoterr, hsync, rfl⟩
  · exact h.calibratedRelation.of_same hsame (hcfg'.trans hcfg)
  · obtain ⟨-, -, hlatched, -⟩ := h.latched hb
    exact .of_commit (hcal.trans hnot) (hcalerr.trans hnoterr)
      (hwts.trans (hlatched.trans hts.symm)) (hsync h.build)

/-- Only a calibrated block has a power hold after a command (70_reset_and_hazards.md R220). -/
theorem Invariant.holdCalibrated_commit {s u v : State} {i : Instr} {r : ResultCode}
    (h : Invariant s) (hd : Did s u) (he : Effect s u i r v) (hp : v.pads.pu = true) :
    v.status.cal = true := by
  have hcal : s.status.cal = true := by
    rcases he.hold hp with hkept | ⟨-, hcal⟩
    · exact h.holdCalibrated (hkept ▸ hp)
    · exact hcal
  rcases he.sameCalibration hd with hsame | ⟨-, hnot, -⟩
  · exact hsame.cal.trans hcal
  · exact absurd hcal (ne_true_of_eq_false hnot)

theorem padsNotBoth_of_notLow {p : Pads} (h : p.oeLow = false) :
    ¬(p.oeLow = true ∧ p.pu = true) :=
  fun hboth => absurd hboth.1 (ne_true_of_eq_false h)

/-- A completed command keeps the invariant. -/
theorem Invariant.complete {s u v : State} {i : Instr} {r : ResultCode} (h : Invariant s)
    (hb : s.status.busy = true) (hd : Did s u) (he : Effect s u i r v) :
    Invariant (v.complete r) := by
  obtain ⟨-, -, -, -, hsearch, hcfg, -⟩ := hd.stays
  obtain ⟨-, hts, -, -, -, -, -, hpresence, hfound, hstuck, -, htimely⟩ := hd.regs
  obtain ⟨hts', -, -, hcfg', hpads', hwave', hnow', -⟩ := he.stays
  have hcal := h.calibratedRelation_commit hb hd he
  have hlow := he.keeps_notLow h.notLow
  have hhold : v.pads.pu = true → v.status.cal = true := h.holdCalibrated_commit hd he
  exact {
    wasReset := he.awaitingReset.trans (hd.awaitingReset.trans h.wasReset)
    result := he.named
    build := (congrArg Config.wf (hcfg'.trans hcfg)).trans h.build
    padsNotBoth := padsNotBoth_of_notLow hlow
    notLow := hlow
    offset := by rw [State.complete_tsample, hts', hts]; exact h.offset
    calOnce := hcal.once
    calPassed := hcal.passed
    calLatency := hcal.synced
    calFailed := hcal.failed
    holdCalibrated := hhold
    search := he.keeps_inRange (hsearch ▸ h.search)
    stuckAbsent := he.keeps_stuckAbsent (by rw [hstuck, hpresence]; exact h.stuckAbsent)
    foundValid := he.keeps_foundValid (by rw [hfound, hsearch]; exact h.foundValid)
    latched := fun hbusy => absurd hbusy Bool.false_ne_true
    history := by
      simp only [State.Timely, State.complete_now, State.complete_wave, State.complete_pads, hpads',
        hwave', hnow']
      exact htimely h.history }

/-- The reset values meet the invariant (10_state.md R66). -/
theorem State.AfterReset.invariant {cfg : Config} {t : State} (h : t.AfterReset cfg)
    (hcfg : cfg.wf = true) (ht : t.Timely) : Invariant t := by
  have hoffset : 1 ≤ cfg.tsampleReset.toNat ∧ cfg.tsampleReset.toNat ≤ 59 := by
    simp only [Config.wf, Bool.and_eq_true, decide_eq_true_eq] at hcfg
    obtain ⟨⟨-, hlow⟩, hhigh⟩ := hcfg
    exact ⟨hlow, hhigh⟩
  rw [h] at ht ⊢
  exact {
    wasReset := rfl
    result := Nat.zero_le 8
    build := hcfg
    padsNotBoth := padsNotBoth_of_notLow rfl
    notLow := rfl
    offset := hoffset
    calOnce := fun h => absurd h.1 Bool.false_ne_true
    calPassed := fun h => absurd h Bool.false_ne_true
    calLatency := fun h => absurd h Bool.false_ne_true
    calFailed := fun h => absurd h Bool.false_ne_true
    holdCalibrated := fun h => absurd h Bool.false_ne_true
    search := inRange_cleared
    stuckAbsent := fun h => absurd h Bool.false_ne_true
    foundValid := fun h => absurd h Bool.false_ne_true
    latched := fun h => absurd h Bool.false_ne_true
    history := ht }

theorem Invariant.after {s : State} (h : Invariant s) (n : Nat) (port : List PortCycle) :
    Invariant (s.after n port) :=
  { h with history := h.history.later rfl rfl (Nat.le_add_right _ _) }

/-- A host access to an idle block keeps the invariant. -/
theorem Invariant.access {s t : State} (h : Invariant s) (hb : s.status.busy = false)
    (ha : AccessEffect s t) : Invariant t := by
  have hidle := ne_true_of_eq_false hb
  cases ha with
  | read | nothing | config | crc8 | crc16 => exact { h with }
  | accepted v => exact { h with latched := fun _ => ⟨rfl, rfl, rfl, rfl, rfl⟩ }
  | status | data | selRomLo | selRomHi => exact { h with latched := fun hbusy => absurd hbusy hidle }
  | tsample v hfree hv =>
    obtain ⟨hcal, hcalerr⟩ := (tsampleLocked_eq_false s).1 hfree
    exact { h with
      offset := (legalTsample_iff v).1 hv
      calPassed := fun h => absurd h (ne_true_of_eq_false hcal)
      calFailed := fun h => absurd h (ne_true_of_eq_false hcalerr)
      latched := fun hbusy => absurd hbusy hidle }

/-- The build of `State.reset` is legal, whatever its clock (00_scope.md R9, log 5). -/
theorem build_wf : Config.build.wf = true := by
  have hclk : Config.clkOffset.val + 2 < 256 := by omega
  simp [Config.wf, Config.build, Nat.mod_eq_of_lt hclk]

theorem resetFor_timely (cfg : Config) : (State.resetFor cfg).Timely :=
  ⟨fun _ he => absurd he List.not_mem_nil, .nil, rfl⟩

end Sys2Proof.Machine

open Sys2Proof Sys2Proof.Machine

/-- Settles O17: the reset values meet the invariant, and a host access and a completed command keep it. -/
theorem stepKeepsTheInvariant : Obligations.StepKeepsTheInvariant := by
  intro s t h hstep
  cases step_effect h.wasReset hstep with
  | reset t _ hreset htimely => exact hreset.invariant h.build (htimely h.history)
  | idle n port t hb ha => exact (h.after n port).access hb ha
  | completed u v r hb hu he => exact h.complete hb hu.1 he

/-- Settles O10: every completion edge sets DONE, after the host's access at that edge. -/
theorem doneFollowsCompletionAndAcceptance : Obligations.DoneFollowsCompletionAndAcceptance := by
  refine ⟨fun i s t hb hn h => ?_, fun _ _ => rfl, fun _ _ => rfl⟩
  obtain ⟨u, v, r, -, -, rfl⟩ := exec_completes hb hn h
  rfl

/-- Settles O18. -/
theorem searchStateStaysInRange : Obligations.SearchStateStaysInRange := by
  intro s t hr h hstep
  cases step_effect hr hstep with
  | reset t _ hreset => rw [hreset]; exact inRange_cleared
  | idle n port t hb ha => cases ha <;> exact h
  | completed u v r hb hu he =>
    obtain ⟨-, -, -, -, hsearch, -⟩ := hu.1.stays
    exact he.keeps_inRange (hsearch ▸ h)

/-- Settles O20: only the first CALIBRATE writes what a calibration leaves, and TSAMPLE is locked after
it. -/
theorem calibrationIsSticky : Obligations.CalibrationIsSticky := by
  intro s t hr hrun hn hstep
  have hsame : SameCalibration s t := by
    cases step_effect hr hstep with
    | reset t hasked => exact absurd hn hasked
    | idle n port t hb ha =>
      obtain ⟨hcal, hcalerr, hlat, hts⟩ := ha.sameCalibration hrun
      exact ⟨hcal, hcalerr, hlat, hts⟩
    | completed u v r hb hu he =>
      rcases he.sameCalibration hu.1 with ⟨hcal, hcalerr, hlat, hts⟩ | ⟨-, hnot, hnoterr, -⟩
      · exact ⟨hcal, hcalerr, hlat, hts⟩
      · exact absurd hrun (by rw [hnot, hnoterr]; decide)
  exact ⟨hsame.cal.trans, hsame.calerr.trans, hsame.tsample, hsame.latency, fun h => by
    rwa [hsame.cal, hsame.calerr]⟩

/-- Settles O21: what each command commits, register by register, on what the command has left before. -/
theorem onlyTheNamedCommandsWrite : Obligations.OnlyTheNamedCommandsWrite := by
  intro i s t hb hn h
  obtain ⟨u, v, r, ⟨hd, -⟩, he, rfl⟩ := exec_completes hb hn h
  obtain ⟨-, -, -, -, hsearch, hcfg, -⟩ := hd.stays
  obtain ⟨hdata, hts, -, hlo, hhi, hcrc8, hcrc16, hpresence, hfound, hstuck, -⟩ := hd.regs
  obtain ⟨hts', hlo', hhi', hcfg', -⟩ := he.stays
  refine ⟨fun hi => (he.keeps_data hi).trans hdata,
    fun hi => (he.keeps_search hi).imp (·.trans hsearch) (·.trans hfound),
    fun hi => (he.keeps_presence hi).imp (·.trans hpresence) (·.trans hstuck),
    fun hi => ?calibration,
    fun hi => (he.keeps_crc8 hi).trans hcrc8, fun hi => (he.keeps_crc16 hi).trans hcrc16,
    fun hi hp => (he.hold hp).resolve_right fun h => hi h.1,
    hts'.trans hts, hlo'.trans hlo, hhi'.trans hhi, hcfg'.trans hcfg⟩
  case calibration =>
    have hsame := (he.sameCalibration hd).resolve_right fun h => hi h.1
    exact ⟨hsame.latency, hsame.cal, hsame.calerr⟩

/-- Settles O12: the three branches of `step`, and the three of the edge that ends a port cycle. -/
theorem stepRunsTheAcceptedCommand : Obligations.StepRunsTheAcceptedCommand := by
  refine ⟨fun s i hr hb hi => ?_, fun s hr hb => ?_, fun s nbits w i h => ?_⟩
  · rw [step_busy hr hb, State.fetch, hi]
  · rw [step_idle hr hb]
    refine ⟨fun hp => by rw [idle_nil hp], fun c rest hp => ?_⟩
    rw [idle_cons hp]
    exact ⟨fun _ => rfl, fun hc a ha => by rw [portEdge_of_access _ hc ha],
      fun hc ha => by rw [portEdge_of_none _ hc ha]⟩
  · rw [← decode_of_decodeTableWord h]
    exact step_busy rfl rfl

/-- Settles O16. -/
theorem resetMeetsTheInvariant : Obligations.ResetMeetsTheInvariant :=
  (resetFor_afterReset _).invariant build_wf (resetFor_timely _)
end

section
/-! PROOF. The host and a running command (20_memory.md §4): what it does is told by `exec_blind`, what
the host reads and writes meanwhile by the fields `reads` and `bits` of `Ran` (`exec_answers`,
`exec_hostBits`). -/

namespace Sys2Proof.Machine

/-! ### What the host sees and writes while a command runs -/

/-- `new` answers, newest first, the reads on the port of `s` up to edge `last`, each as `Saw` says and
with the pad output `line_pu` of the history `wave` in the cycle of the read (20_memory.md R80). -/
def Answered (s : State) (last : Nat) (wave : List PadEvent) (new : List ReadAnswer) : Prop :=
  (new.map ReadAnswer.asked).reverse = readCycles s.port s.now last
    ∧ ∀ a ∈ new, s.now < a.edge ∧ a.edge ≤ last ∧ Saw s a
      ∧ (regAt a.word = .status → s.Timely → a.value.getLsbD 5 = (padsBefore wave a.edge).pu)

theorem Did.answers {s u : State} (h : Did s u) :
    ∃ new, u.reads = new ++ s.reads ∧ Answered s u.now u.wave new := by
  obtain ⟨n, ev, hran⟩ := h
  obtain ⟨new, hreads, hasked, hsaw⟩ := hran.reads
  have hall := hasked u.now le_rfl
  rw [readCycles_now, List.append_nil] at hall
  exact ⟨new, hreads, hall.symm, hsaw⟩

/-- The host's writes up to the edge a run has come to have been made, and no other. -/
theorem Did.hostBits {s u : State} (h : Did s u) : u.hostBits = s.hostBitsAt u.now := by
  obtain ⟨n, ev, hran⟩ := h
  exact (hostBitsAt_now u).symm.trans (hran.bits u.now le_rfl).symm

section Completed

variable {i : Instr} {s t : State} (hb : s.status.busy = true) (hn : NoReset s)
  (h : exec i s = .next t)

include hb hn h

/-- Every read up to the completion edge, that edge included, is answered (20_memory.md R80). -/
theorem exec_answers : ∃ new, t.reads = new ++ s.reads ∧ Answered s t.now t.wave new := by
  obtain ⟨u, v, r, ⟨hdid, -⟩, he, rfl⟩ := exec_completes hb hn h
  obtain ⟨-, -, -, -, -, hwave, hnow, hreads, -⟩ := he.stays
  rw [State.complete_reads, State.complete_now, State.complete_wave, hwave, hnow, hreads]
  exact hdid.answers

/-- The completion edge leaves IE and OVR as the host's writes up to it have left them. -/
theorem exec_hostBits : t.ie = (s.hostBitsAt t.now).ie ∧ t.status.ovr = (s.hostBitsAt t.now).ovr := by
  obtain ⟨u, ⟨hdid, -⟩, hnow, -, -, hie, hovr, -⟩ := exec_ran hb hn h
  rw [hnow, ← hdid.hostBits]
  exact ⟨hie, hovr⟩

end Completed

/-! ### Writes to a busy block -/

/-- 20_memory.md R79, 10_state.md R35. -/
theorem writeReg_busy {s : State} {r : RegName} (hb : s.status.busy = true) (v : Word)
    (hr : r ∈ [RegName.cmd, .data, .tsample, .selRomLo, .selRomHi, .crc8]
      ∨ (r = .crc16 ∧ s.cfg.hasCrc16 = true)) : s.writeReg r v = s.dropWrite := by
  rcases hr with hr | ⟨rfl, hcrc⟩
  · simp only [List.mem_cons, List.not_mem_nil, or_false] at hr
    rcases hr with rfl | rfl | rfl | rfl | rfl | rfl <;> exact if_pos hb
  · rw [State.writeReg, hcrc, hb]
    rfl

theorem writeReg_crc16_absent {s : State} (hcrc : s.cfg.hasCrc16 = false) (v : Word) :
    s.writeReg .crc16 v = s := by
  rw [State.writeReg, hcrc]
  rfl

theorem writeReg_cmd_idle {s : State} (hb : s.status.busy = false) (v : Word) :
    s.writeReg .cmd v = s.accept v :=
  if_neg (ne_true_of_eq_false hb)

/-! ### The line between commands -/

/-- The pad outputs of `release()` and `drive_high()` are those that do not pull the line low
(20_memory.md R82, R83). -/
theorem released_or_high_iff (p : Pads) : p = Pads.released ∨ p = Pads.high ↔ p.oeLow = false := by
  rcases p with ⟨_ | _, _ | _⟩ <;> decide

/-- The host does not reach the pads of an idle block. -/
theorem AccessEffect.pads {s t : State} (h : AccessEffect s t) : t.pads = s.pads := by
  cases h <;> rfl

theorem step_keeps_notLow {s t : State} (hr : s.awaitingReset = false) (hs : s.pads.oeLow = false)
    (hstep : step s = .next t) : t.pads.oeLow = false := by
  cases step_effect hr hstep with
  | reset t _ hreset => rw [hreset]; rfl
  | idle n port t hb ha => rw [ha.pads]; exact hs
  | completed u v r hb hu he => exact he.keeps_notLow hs

end Sys2Proof.Machine

open Sys2Proof Sys2Proof.Machine

/-- Settles O22: every command is blind to the host, and both runs set DONE. -/
theorem hostCannotDisturbACommand : Obligations.HostCannotDisturbACommand := by
  intro i s t u hb hn ht hu
  obtain ⟨t', u', ht', hu', hsame, -, hdone, hdone', hie, hovr, hreads⟩ :=
    exec_blind i (s' := s.withoutHost) ⟨rfl, rfl⟩ hn hb
  cases ht.symm.trans ht'
  cases hu.symm.trans hu'
  rw [hsame.eq, hsame.silent, hie, hovr, hreads, hdone', ← hdone]
  rfl

/-- Settles O23. -/
theorem readsDuringACommandSeeOldValues : Obligations.ReadsDuringACommandSeeOldValues := by
  intro i s t hb hn h
  obtain ⟨new, hreads, hasked, hsaw⟩ := exec_answers hb hn h
  refine ⟨new, hreads, hasked, fun a ha => ?_⟩
  obtain ⟨hlater, hby, hseen, hpower⟩ := hsaw a ha
  have hbusy := hseen.busy
  obtain ⟨hstatus, hother, -⟩ := hseen
  exact ⟨hlater, hby, fun hr => ⟨(hbusy hr).trans hb, hstatus hr, hpower hr⟩, hother⟩

/-- Settles O54. -/
theorem writesDuringACommandTakeEffect : Obligations.WritesDuringACommandTakeEffect := by
  intro i s t hb hn h
  obtain ⟨hie, hovr⟩ := exec_hostBits hb hn h
  obtain ⟨new, hreads, -, hsaw⟩ := exec_answers hb hn h
  refine ⟨hie, hovr, new, hreads, fun a ha => ?_⟩
  obtain ⟨-, -, ⟨-, -, hbits⟩, -⟩ := hsaw a ha
  exact hbits

/-- Settles O8, register by register. -/
theorem busyWritesAreDropped : Obligations.BusyWritesAreDropped := by
  intro s a v hb
  simp only [State.hostAccess]
  generalize regAt a = r
  refine ⟨writeReg_busy hb v, ?crc16, ?config, ?status, writeReg_readOnly s v⟩
  case crc16 => rintro rfl hcrc; exact writeReg_crc16_absent hcrc v
  case config | status => rintro rfl; rfl

/-- Settles O9: the next port cycle of an idle block is the acceptance edge. -/
theorem acceptanceLatchesTheOperands : Obligations.AcceptanceLatchesTheOperands := by
  intro s gap a v rest hr hb ha hp
  have hstep : step s = .next ((s.after (gap + 1) rest).accept v) := by
    rw [step_idle hr hb, idle_cons hp, portEdge_of_access _ rfl rfl, State.hostAccess, ha]
    exact congrArg Host.Outcome.next (writeReg_cmd_idle (s := s.after (gap + 1) rest) hb v)
  exact ⟨_, hstep, rfl, rfl, rfl⟩

/-- Settles O19. -/
theorem lineIsNeverLeftLow : Obligations.LineIsNeverLeftLow := by
  intro s t hr hs hstep
  rw [released_or_high_iff] at hs ⊢
  exact step_keeps_notLow hr hs hstep

/-- Settles O5: what a register reads does not depend on the record of answers. -/
theorem readsHaveNoSideEffect : Obligations.ReadsHaveNoSideEffect :=
  fun s a => ⟨rfl, fun r => by cases r <;> rfl⟩

/-- Settles O24. -/
theorem pulledLineReadsLow : Obligations.PulledLineReadsLow := by
  intro s u h
  rw [State.lineLevel, h]
  rfl
end

section
/-! PROOF. The command word (30_encoding.md §1): every function the statements speak of looks at the
word's two fields only (`and_fieldMask`, `decode_fieldsWord`), and the words of the 32 pairs of fields are
checked one by one. -/

namespace Sys2Proof

/-- The command word with the given fields and every reserved bit clear (30_encoding.md R89). -/
def fieldsWord (op : BitVec 4) (hold : Bool) : Word :=
  op.setWidth 32 ||| (BitVec.ofBool hold).setWidth 32 <<< 8

/-- The bits of the two fields of a command word (30_encoding.md R89). -/
def fieldMask : Word := 0x0000010F#32

theorem fieldMask_getLsbD : ∀ i < 32, fieldMask.getLsbD i = (decide (i < 4) || decide (i = 8)) := by
  decide

/-- A word without its reserved bits is the word of its fields. -/
theorem and_fieldMask (w : Word) : w &&& fieldMask = fieldsWord (opField w) (holdField w) := by
  refine BitVec.eq_of_getLsbD_eq fun i hi => ?_
  rw [BitVec.getLsbD_and, fieldMask_getLsbD i hi, fieldsWord, opField, holdField]
  by_cases h8 : i = 8
  · subst h8
    simp
  · have hshift : 8 ≤ i → i - 8 ≠ 0 := by omega
    simp +contextual [h8, hi, hshift, Bool.and_comm]

theorem rowMask_and_fieldMask (i : Instr) : fieldMask &&& rowMask i = rowMask i := by
  cases i <;> rfl

/-- What a row fixes is decided by the two fields. -/
theorem and_rowMask (w : Word) (i : Instr) :
    w &&& rowMask i = fieldsWord (opField w) (holdField w) &&& rowMask i := by
  rw [← and_fieldMask, BitVec.and_assoc, rowMask_and_fieldMask]

theorem opField_fieldsWord : ∀ op hold, opField (fieldsWord op hold) = op := by decide

theorem holdField_fieldsWord : ∀ op hold, holdField (fieldsWord op hold) = hold := by decide

theorem decode_fieldsWord (w : Word) : decode (fieldsWord (opField w) (holdField w)) = decode w := by
  rw [decode, opField_fieldsWord, holdField_fieldsWord, decode]

/-- A canonical word has no reserved bit set. -/
theorem eq_fieldsWord_of_canonical {w : Word} (h : canonicalWord w = true) :
    w = fieldsWord (opField w) (holdField w) := by
  have hres : w &&& ~~~fieldMask = 0#32 := of_decide_eq_true (Bool.and_eq_true_iff.1 h).1
  calc w = (w &&& fieldMask) ||| (w &&& ~~~fieldMask) := by
        rw [← BitVec.and_or_distrib_left, BitVec.or_not_self, BitVec.and_allOnes]
    _ = fieldsWord (opField w) (holdField w) := by rw [hres, BitVec.or_zero, and_fieldMask]

/-! ### The 32 pairs of fields -/

theorem fieldsWord_matches_row : ∀ op hold,
    fieldsWord op hold &&& rowMask (decode (fieldsWord op hold)) = encode (decode (fieldsWord op hold)) := by
  decide

theorem decode_of_matches_row (i : Instr) : ∀ op hold,
    fieldsWord op hold &&& rowMask i = encode i → decode (fieldsWord op hold) = i := by
  cases i <;> decide

theorem decode_ignores_hold : ∀ op hold hold', op ≠ 4#4 →
    decode (fieldsWord op hold) = decode (fieldsWord op hold') := by
  decide

theorem encode_decode_fieldsWord : ∀ op hold, canonicalWord (fieldsWord op hold) = true →
    encode (decode (fieldsWord op hold)) = fieldsWord op hold := by
  decide

theorem canonicalWord_encode (i : Instr) : canonicalWord (encode i) = true := by cases i <;> rfl

end Sys2Proof

open Sys2Proof Sys2Proof.Machine

/-- Settles O2: each clause about words is one about the words of their fields. -/
theorem everyWordIsExactlyOneRow : Obligations.EveryWordIsExactlyOneRow := by
  refine ⟨fun w => ?_, fun w i h => ?_, fun v w hop hne => ?_, fun v w hop hhold => ?_,
    fun i => ⟨canonicalWord_encode i, decode_encode i⟩, fun w h => ?_⟩
  · rw [and_rowMask, ← decode_fieldsWord]
    exact fieldsWord_matches_row _ _
  · rw [and_rowMask] at h
    rw [← decode_fieldsWord]
    exact decode_of_matches_row i _ _ h
  · rw [← decode_fieldsWord v, ← decode_fieldsWord w, hop]
    exact decode_ignores_hold _ _ _ hne
  · rw [← decode_fieldsWord v, ← decode_fieldsWord w, hop, hhold]
  · have hw := eq_fieldsWord_of_canonical h
    rw [hw] at h ⊢
    exact encode_decode_fieldsWord _ _ h

/-- Settles O1: the table's words, evaluated. -/
theorem tableWordsDecode : Obligations.TableWordsDecode := by
  unfold Obligations.TableWordsDecode
  decide
end

section
/-! PROOF. The exchange of a SEARCH_NEXT that reaches the bus (30_encoding.md R103): the bus reset
(`busReset_then`), then 0xF0 and the pass (`searchExchange_then`), then a commit, which leaves the line and
the working buffer as they are (`Commits`). -/

namespace Sys2Proof.Machine

variable {β : Type} {s u v t : State} {k n : Nat} {full : Bool} {o : ResetOutcome} {id co : Nat → Bool}
variable {Q : β → State → Prop}

/-! ### A command's first cycle and its completion edge -/

/-- After the first cycle of a command one pseudocode may stand for another that does the same there. -/
theorem tick_imp {body body' : Run β} {R : State → Prop} (hb : s.status.busy = true)
    (himp : ∀ t, Ran 1 [] s t → body.Ends t Q R → body'.Ends t Q R)
    (h : Run.Ends (do tick; body) s Q R) : Run.Ends (do tick; body') s Q R := by
  rw [ends_bind] at h ⊢
  have htick := tick_ends hb
  unfold Run.Ends at h htick ⊢
  cases hm : tick s with
  | ok _ t =>
    rw [hm] at h htick
    exact himp t htick.1 h
  | error _ t =>
    rw [hm] at h
    exact h

/-- With no reset to come a command ends in a state its pseudocode completes in. -/
theorem exec_completes_in {body : Run ResultCode} {i : Instr} {P : State → Prop}
    (hi : exec i s = command body s) (hn : NoReset s)
    (h : Run.Ends (do tick; body) s (fun r t => P (t.complete r)) (CutShort s)) :
    ∃ t, exec i s = .next t ∧ P t := by
  obtain ⟨t, ht, hP⟩ := command_ends (P := fun t => NoReset s → P t)
    (h.mono (fun _ _ hP _ => hP) fun _ hcut hn => absurd hn hcut.asked)
  exact ⟨t, hi.trans ht, hP hn⟩

/-- A calibrated SEARCH_NEXT whose search is not exhausted goes to the bus (41_rom_search.md R140). -/
theorem searchNext_reaches_bus {P : State → Prop} (hb : s.status.busy = true) (hn : NoReset s)
    (hc : s.status.cal = true) (hterm : s.search.term = false)
    (h : Run.Ends (do tick; searchOnBus) s (fun r t => P (t.complete r)) (CutShort s)) :
    ∃ t, exec .searchNext s = .next t ∧ P t := by
  refine exec_completes_in rfl hn (gate_open hb hc (tick_imp hb (fun t ht hbus => ?_) h))
  rw [ends_bind, ends_state, ends_ite, ht.search, hterm]
  exact ⟨fun h => absurd h (by decide), fun _ => hbus⟩

/-! ### The bus reset that opens a command -/

/-- `t` comes right after the bus reset that opens the command accepted in `s`: the reset pulse after an
idle check of `k` µs, with the outcome `o` (40_bus_transactions.md R116). -/
structure BusReset (s : State) (k : Nat) (o : ResetOutcome) (t : State) : Prop where
  idled : k < 250
  ran : Ran (1 + (k + 960) * s.cyclesPerUs) (holdEndEvents s s.firstEdge
    ++ resetPulseEvents s.cyclesPerUs (s.firstEdge + k * s.cyclesPerUs)).reverse s t
  notStuck : o.stuck = false
  released : t.pads = Pads.released
  levels : s.env.passive = true →
    IdleAfter s t k ∧ o.presence = !t.lineLevel (s.presenceLevelEdge k)

theorem holdEndEvents_reverse (s : State) (t0 : Nat) :
    (holdEndEvents s t0).reverse = holdEndEvents s t0 := by
  unfold holdEndEvents
  split <;> rfl

/-- A command that begins with a bus reset: the line is stuck, or the reset pulse goes out. -/
theorem busReset_then {f : ResetOutcome → Run ResultCode} {Q : ResultCode → State → Prop}
    (hb : s.status.busy = true)
    (stuck : ∀ t, Ran (1 + 249 * s.cyclesPerUs) (holdEndEvents s s.firstEdge) s t →
      (f ⟨false, true⟩).Ends t Q (CutShort s))
    (reset : ∀ k o t, BusReset s k o t → (f o).Ends t Q (CutShort s)) :
    Run.Ends (do tick; beginLine; let o ← busReset; f o) s Q (CutShort s) := by
  refine line_then hb (fun _ h => h) fun u hu _ _ => ?_
  have hnow : u.now = s.firstEdge := hu.now
  have hcyc := hu.cyclesPerUs
  rw [ends_bind]
  refine (busReset_ends (hu.busy.trans hb)).mono (fun o t h => ?_) fun _ h => h.after hu
  rw [hnow, hcyc] at h
  obtain ⟨-, ⟨hstuck, hpads, k, hk, hran, hlevels⟩ | ⟨rfl, -, -, hran, -⟩⟩ := h
  · refine reset k o t ⟨hk, (hu.trans hran).of_eq rfl ?_, hstuck, hpads, fun hp => ?_⟩
    · rw [List.reverse_append, holdEndEvents_reverse]
    · obtain ⟨hhigh, hlow, hpresence⟩ := hlevels (by rw [hu.passive hp, hp])
      exact ⟨⟨hk, hhigh, hlow⟩, hpresence⟩
  · exact stuck t (hu.trans hran)

/-! ### The pass -/

theorem PassRan.lineLevel {m : Nat} {ev : List PadEvent} (h : PassRan m ev s t)
    (hp : s.env.passive = true) {e : Nat} (he : e ≤ s.now) : t.lineLevel e = s.lineLevel e :=
  Ran.lineLevel (s := s.withPass t.w) h hp he

theorem Ran.slotLevelEdge {m : Nat} {ev : List PadEvent} (h : Ran m ev s t) (e : Nat) :
    t.slotLevelEdge e = s.slotLevelEdge e := by
  rw [State.slotLevelEdge, h.w_tsample, h.cyclesPerUs, State.slotLevelEdge]

theorem passStart_eq (s : State) (k m : Nat) : s.passStart k m
    = s.firstEdge + (k + 960 + 488) * s.cyclesPerUs + 183 * s.cyclesPerUs * (m - 1) := by
  rw [State.passStart]
  ring

/-- The choices of a pass depend on the working copies it starts from only. -/
theorem Chosen.of_start {ld lo : Nat} (h : Chosen ld lo n id co s t) (hbuf : u.w.buf = s.w.buf)
    (hlast : u.w.lastZero = s.w.lastZero) (hfam : u.w.famZero = s.w.famZero) :
    Chosen ld lo n id co u t where
  notBoth := h.notBoth
  direction := by rw [hbuf]; exact h.direction
  rest := by rw [hbuf]; exact h.rest
  lastZero := by rw [hlast]; exact h.lastZero
  famZero := by rw [hfam]; exact h.famZero

/-- The read slots of the position that ends a pass early (41_rom_search.md R155). -/
def abortBits (full : Bool) : List Bool := if full then [] else [true, true]

/-- The pad events of the command accepted in `s` that sends a reset pulse after an idle check of `k` µs,
then the byte 0xF0, then `bits` (30_encoding.md R103). -/
def searchEvents (s : State) (k : Nat) (bits : List Bool) : List PadEvent :=
  holdEndEvents s s.firstEdge ++ resetPulseEvents s.cyclesPerUs (s.firstEdge + k * s.cyclesPerUs)
    ++ slotsEvents s.cyclesPerUs (s.firstEdge + (k + 960) * s.cyclesPerUs) (lineBits 0xF0#8 ++ bits)

theorem searchEvents_eq (s : State) (k : Nat) (bits : List Bool) : searchEvents s k bits
    = holdEndEvents s s.firstEdge ++ resetPulseEvents s.cyclesPerUs (s.firstEdge + k * s.cyclesPerUs)
      ++ slotsEvents s.cyclesPerUs (s.firstEdge + (k + 960) * s.cyclesPerUs)
        (lineBits Config.romCmdSearch)
      ++ slotsEvents s.cyclesPerUs (s.firstEdge + (k + 960 + 488) * s.cyclesPerUs) bits := by
  have hbyte : s.firstEdge + (k + 960) * s.cyclesPerUs + 61 * s.cyclesPerUs * (lineBits 0xF0#8).length
      = s.firstEdge + (k + 960 + 488) * s.cyclesPerUs := by
    rw [show (lineBits 0xF0#8).length = 8 from rfl]
    ring
  rw [searchEvents, slotsEvents_append, hbyte, ← List.append_assoc]

/-- `t` comes right after a search pass of the command accepted in `s`, whose bus reset idled for `k` µs:
it came through `n` positions and read there the bits `id` and `co`; it is `full`, or it read `(1,1)` at the
next position (41_rom_search.md R142 to R149, R155). -/
structure SearchExchange (s : State) (k n : Nat) (full : Bool) (id co : Nat → Bool) (t : State) :
    Prop where
  ran : PassRan (1 + (k + 960 + 488 + 183 * n + 61 * (abortBits full).length) * s.cyclesPerUs)
    (searchEvents s k (passBits t.w.buf 1 n ++ abortBits full)).reverse s t
  chosen : Chosen s.search.ld.toNat 1 n id co s.startPass t
  ends : full = true ∧ n = 64 ∨ full = false ∧ n < 64 ∧ id (n + 1) = true ∧ co (n + 1) = true
  read : s.env.passive = true → ∀ m, 1 ≤ m → (m ≤ n ∨ full = false ∧ m = n + 1) →
    s.bitsRead t k m = (id m, co m)

/-- What is left of a command when its bus reset has found a device: the search pass, then `f`. -/
theorem searchExchange_then {f : Bool → Run β} (hb : s.status.busy = true)
    (hts : s.w.tsample.toNat ≤ 60) (h : BusReset s k o u)
    (next : ∀ n full id co t m ev, PassRan m ev u t → SearchExchange s k n full id co t →
      (f full).Ends t Q (CutShort s)) :
    Run.Ends (do
      txByte Config.romCmdSearch
      Run.change State.startPass
      let ld := (← Run.state).search.ld.toNat
      let full ← searchPass ld searchPositions
      f full) u Q (CutShort s) := by
  have hreset := h.ran
  refine ends_then (txByte_ends (hreset.busy.trans hb) _) (fun _ h => h.after hreset)
    fun _ v htx _ => ?_
  have hv := hreset.trans htx
  have hstart := passRan_trans hv.pass (startPass_pass v)
  rw [ends_bind, ends_change, ends_bind, ends_state, ends_bind]
  have htsv : v.w.tsample.toNat ≤ 60 := by rw [hv.w_tsample]; exact hts
  refine (searchPass_ends _ 64 (s := v.startPass) 1 (hv.busy.trans hb) htsv (by decide)
    (by decide)).mono (fun full t hpass => ?_) fun _ h => h.afterPass hstart
  obtain ⟨-, -, n, id, co, hchosen, hread, hends⟩ := hpass
  have hcyc : v.startPass.cyclesPerUs = s.cyclesPerUs := hv.cyclesPerUs
  have hnow : v.startPass.now = s.firstEdge + (k + 960 + 488) * s.cyclesPerUs := by
    change v.now = _
    rw [hv.now, hreset.cyclesPerUs, State.firstEdge]
    ring
  rw [hcyc, hnow] at hread hends
  have hslots : PassRan ((183 * n + 61 * (abortBits full).length) * s.cyclesPerUs)
      (slotsEvents s.cyclesPerUs (s.firstEdge + (k + 960 + 488) * s.cyclesPerUs)
        (passBits t.w.buf 1 n ++ abortBits full)).reverse v.startPass t := by
    rcases hends with ⟨rfl, -, hran⟩ | ⟨rfl, -, -, -, hran⟩
    · exact Ran.of_eq hran (by rw [abortBits, if_pos rfl, List.length_nil]; ring)
        (by rw [abortBits, if_pos rfl, List.append_nil])
    · exact hran
  refine next n full id co t _ _ (passRan_trans htx.pass (passRan_trans (startPass_pass v) hslots))
    ⟨?ran, ?chosen, ?ends, fun hp m h1 hm => ?read⟩
  case ran =>
    refine Ran.of_eq (passRan_trans hstart hslots) ?_ ?_
    · rw [hreset.cyclesPerUs]; ring
    · have hfrom : s.now + (1 + (k + 960) * s.cyclesPerUs) = s.firstEdge + (k + 960) * s.cyclesPerUs :=
        (Nat.add_assoc _ _ _).symm
      rw [searchEvents_eq, hreset.cyclesPerUs, hreset.now, hfrom]
      simp only [List.reverse_append, List.nil_append, List.append_assoc]
  case chosen =>
    have hsearch : v.startPass.search = s.search := hv.search
    rw [hsearch] at hchosen
    exact hchosen.of_start (congrArg Search.buf hsearch.symm) rfl rfl
  case ends =>
    rcases hends with ⟨hf, hn, -⟩ | ⟨hf, hn, hid, hco, -⟩
    · exact .inl ⟨hf, hn⟩
    · exact .inr ⟨hf, hn, Nat.add_comm 1 n ▸ hid, Nat.add_comm 1 n ▸ hco⟩
  case read =>
    have hpassive : v.startPass.env.passive = true := (congrArg BusEnv.passive (hv.passive hp)).trans hp
    have hedge : ∀ e, v.startPass.slotLevelEdge e = s.slotLevelEdge e := hv.slotLevelEdge
    obtain ⟨hid, hco⟩ := hread hpassive m h1 (hm.imp (by omega) (And.imp_right (by omega)))
    rw [hedge, ← passStart_eq] at hid hco
    rw [State.bitsRead, hid, hco]

/-! ### The commit -/

/-- `t` is `u` after a commit that records the bus reset's outcome `o`: the line, its history and the
working buffer stay. -/
structure Commits (u : State) (o : ResetOutcome) (t : State) : Prop where
  wave : t.wave = u.wave
  level : t.lineLevel = u.lineLevel
  buf : t.w.buf = u.w.buf
  presence : t.status.presence = o.presence
  stuck : t.status.stuck = o.stuck

theorem clearSearch_commits (u : State) (o : ResetOutcome) (r : ResultCode) :
    Commits u o ((u.recordReset o).clearSearch.complete r) := ⟨rfl, rfl, rfl, rfl, rfl⟩

/-- What a search records of its bus reset, and the levels it has it from: the samples lie before the end of
the bus reset, so that what the pass and the commit add to the history does not change them. -/
theorem BusReset.recorded {m : Nat} {ev : List PadEvent} (h : BusReset s k o u) (hran : PassRan m ev u v)
    (ht : Commits v o t) : t.status.stuck = false ∧ (s.env.passive = true →
      IdleAfter s t k ∧ t.status.presence = !t.lineLevel (s.presenceLevelEdge k)) := by
  refine ⟨ht.stuck.trans h.notStuck, fun hp => ?_⟩
  have hreset := h.ran
  obtain ⟨⟨hk, hhigh, hlow⟩, hpresence⟩ := h.levels hp
  have same : ∀ j ≤ k + 550, t.lineLevel (s.firstEdge + j * s.cyclesPerUs - 2)
      = u.lineLevel (s.firstEdge + j * s.cyclesPerUs - 2) := by
    intro j hj
    rw [ht.level]
    refine hran.lineLevel (by rw [hreset.passive hp, hp]) ?_
    have hle : j * s.cyclesPerUs ≤ (k + 960) * s.cyclesPerUs := Nat.mul_le_mul_right _ (by omega)
    have hnow := hreset.now
    rw [State.firstEdge]
    omega
  refine ⟨⟨hk, (same k (by omega)).trans hhigh, fun j hj => (same j (by omega)).trans (hlow j hj)⟩,
    ?_⟩
  rw [ht.presence, hpresence]
  exact congrArg not (same (k + 550) le_rfl).symm

/-- `r` is the result of a full pass with the code `buf` in its working buffer, the family checked first
(41_rom_search.md R152, R153, R156). -/
structure PassResult (r : ResultCode) (buf : RomCode) : Prop where
  full : r ∈ [ResultCode.zeroFamily, .crcMismatch, .ok]
  zeroFamily : r = .zeroFamily ↔ romByte buf 0 = 0x00#8
  crcMismatch : r = .crcMismatch ↔ romByte buf 0 ≠ 0x00#8 ∧ validRom buf = false
  ok : r = .ok ↔ romByte buf 0 ≠ 0x00#8 ∧ validRom buf = true

theorem finishPass_commits (u : State) (o : ResetOutcome) {R : State → Prop} :
    finishPass.Ends (u.recordReset o)
      (fun r t => Commits u o (t.complete r) ∧ PassResult r u.w.buf
        ∧ (r = .ok → t.search.buf = u.w.buf)) R := by
  refine (finishPass_ends _).mono (fun r t h => ?_) fun _ h => h
  rw [State.recordReset_w] at h
  obtain ⟨rfl, hfam, rfl⟩ | ⟨rfl, hfam, hrom, rfl⟩ | ⟨rfl, hfam, hrom, rfl⟩ := h
  · exact ⟨⟨rfl, rfl, rfl, rfl, rfl⟩, by constructor <;> simp [hfam], nofun⟩
  · exact ⟨⟨rfl, rfl, rfl, rfl, rfl⟩, by constructor <;> simp [hfam, hrom], nofun⟩
  · exact ⟨⟨rfl, rfl, rfl, rfl, rfl⟩, by constructor <;> simp [hfam, hrom], fun _ => romOf_split _⟩

theorem SearchExchange.padTrace (h : SearchExchange s k n full id co u) (hu : Commits u o t) :
    PadTrace s t (searchEvents s k (passBits t.w.buf 1 n ++ abortBits full)) := by
  rw [PadTrace, hu.wave, hu.buf]
  exact h.ran.wave

theorem SearchExchange.padTrace_full (h : SearchExchange s k n true id co u) (hu : Commits u o t) :
    PadTrace s t (searchEvents s k (passBits t.w.buf 1 n)) := by
  have htrace := h.padTrace hu
  rwa [abortBits, if_pos rfl, List.append_nil] at htrace

theorem SearchExchange.bitsRead (h : SearchExchange s k n full id co u) (hu : Commits u o t)
    (hp : s.env.passive = true) {m : Nat} (h1 : 1 ≤ m) (hm : m ≤ n ∨ full = false ∧ m = n + 1) :
    s.bitsRead t k m = (id m, co m) := by
  rw [State.bitsRead, hu.level]
  exact h.read hp m h1 hm

/-- The direction of `searchDirection` is the one the rules give (41_rom_search.md R145 to R147). -/
theorem SearchExchange.tookDirection (h : SearchExchange s k n full id co u) (hu : Commits u o t)
    (hp : s.env.passive = true) {m : Nat} (h1 : 1 ≤ m) (hm : m ≤ n) : TookDirection s t k m := by
  have hboth := h.chosen.notBoth m h1 (by omega)
  have hdir : romBit u.w.buf m
      = searchDirection (id m) (co m) (romBit s.search.buf m) m s.search.ld.toNat :=
    h.chosen.direction m h1 (by omega)
  rw [TookDirection, h.bitsRead hu hp h1 (.inl hm), hu.buf, hdir]
  generalize id m = a, co m = b at hboth ⊢
  refine ⟨by simpa using hboth, ?_, ?_, ?_⟩
  · rintro ⟨⟩; rfl
  · rintro ⟨⟩; rfl
  · rintro ⟨⟩
    refine ⟨fun hlt => if_pos hlt, fun heq => ?_, fun hgt => ?_⟩
    · rw [searchDirection, if_neg (by decide), if_neg (by omega), if_pos heq]
    · rw [searchDirection, if_neg (by decide), if_neg (by omega), if_neg (by omega)]

end Sys2Proof.Machine

open Sys2Proof Sys2Proof.Machine

/-- Settles O53: the bus reset, the pass and the commit, one after the other. -/
theorem searchNextSendsTheSearchExchange : Obligations.SearchNextSendsTheSearchExchange := by
  intro s hb hn hcal hterm _ hts c hold
  refine searchNext_reaches_bus hb hn hcal hterm (busReset_then hb (fun t ht => ?stuck) fun k o t h => ?reset)
  case stuck =>
    refine .inl ⟨rfl, rfl, ?_⟩
    change t.wave = _
    rw [ht.wave, holdEndEvents_reverse]
  case reset =>
    rw [ends_ite]
    refine ⟨fun _ => searchExchange_then hb (by omega) h fun n full id co u m ev hrest hu => ?_,
      fun _ => ?_⟩
    · rw [ends_bind, ends_change, ends_ite]
      obtain ⟨rfl, rfl⟩ | ⟨rfl, hlt, hid, hco⟩ := hu.ends
      · refine ⟨fun _ => (finishPass_commits u o).mono (fun r t ⟨ht, hresult, hok⟩ => ?_) fun _ h => h,
          fun hf => absurd rfl hf⟩
        obtain ⟨hr, hfam, hcrc, hrom⟩ := ht.buf ▸ hresult
        obtain ⟨hstuck, hlevels⟩ := h.recorded hrest ht
        exact .inr ⟨k, h.idled, hstuck, hlevels, .inr (.inr ⟨hr, hu.padTrace_full ht,
          fun h => (hok h).trans ht.buf.symm, hfam, hcrc, hrom,
          fun hp m h1 hm => hu.tookDirection ht hp h1 hm⟩)⟩
      · refine ⟨fun hf => absurd hf (by decide), fun _ => ?_⟩
        have ht := clearSearch_commits u o .busCollisionAbort
        obtain ⟨hstuck, hlevels⟩ := h.recorded hrest ht
        refine .inr ⟨k, h.idled, hstuck, hlevels, .inr (.inl ⟨rfl, n + 1, by omega, by omega,
          hu.padTrace ht, fun hp => ⟨?_, fun m h1 hm => hu.tookDirection ht hp h1 (by omega)⟩⟩)⟩
        rw [hu.bitsRead ht hp (by omega) (.inr ⟨rfl, rfl⟩), hid, hco]
    · have ht := clearSearch_commits t o .noPresence
      obtain ⟨hstuck, hlevels⟩ := h.recorded (Ran.refl t).pass ht
      exact .inr ⟨k, h.idled, hstuck, hlevels, .inl ⟨rfl, h.ran.wave⟩⟩
end

section
/-! PROOF. The commands that send or read slots (40_bus_transactions.md §3 to §6): a refused one ends right
after its first cycle (`gated_refused`); one that goes to the bus ends the power hold and then sends its
slots (`Ran.afterHold`), whose lengths and pad events are those of Laws/Slots.lean. -/

namespace Sys2Proof.Machine

variable {s t u : State} {n : Nat}

/-! ### The gate -/

/-- Every gated command is the gate, then something (43_control.md R183). -/
theorem exec_gated {i : Instr} (hi : i ∈ gatedCommands) :
    ∃ body, ∀ s, exec i s = command (gated body) s := by
  simp only [gatedCommands, List.mem_cons, List.not_mem_nil, or_false] at hi
  obtain rfl | rfl | rfl | rfl | rfl | rfl | rfl | rfl | rfl := hi <;> exact ⟨_, fun _ => rfl⟩

/-- The gate of an uncalibrated block lets nothing through (43_control.md R183). -/
theorem gated_refused {body : Run ResultCode} {i : Instr} (hi : exec i s = command (gated body) s)
    (hb : s.status.busy = true) (hn : NoReset s) (hc : s.status.cal = false) :
    RefusedWith i s .notCalibrated := by
  refine completes_of hi hn (tick_then hb (fun _ h => h) fun t ht hpads henv => ends_gated.2
    ⟨fun hc' => ?_, fun _ => ⟨rfl, ht.now, ht.untouched _, hpads, ht.wave, henv⟩⟩)
  rw [ht.cal, hc] at hc'
  exact absurd hc' (by decide)

/-- A calibrated line command ends as its pseudocode does after the end of the power hold
(40_bus_transactions.md R111). -/
theorem gated_completes {body : Run ResultCode} {i : Instr} {r : ResultCode} {d : Nat}
    {Q : State → Prop} (hi : exec i s = command (gated (do beginLine; body)) s)
    (hb : s.status.busy = true) (hn : NoReset s) (hc : s.status.cal = true)
    (h : ∀ t, Ran 1 (holdEndEvents s s.firstEdge) s t →
      body.Ends t (fun x u => x = r ∧ u.now = s.now + d ∧ Q (u.complete x)) (CutShort s)) :
    CompletesWith i s r d Q :=
  completes_of hi hn (gate_open hb hc (line_then hb (fun _ h => h) fun t ht _ _ => h t ht))

/-! ### What follows the end of the hold -/

/-- `n` µs that begin where the power hold ended, at the first edge, with the pad events `ev` of the
cycles to the µs and the edge they begin at. -/
theorem Ran.afterHold {ev : Nat → Nat → List PadEvent} (h : Ran 1 (holdEndEvents s s.firstEdge) s t)
    (k : Ran (n * t.cyclesPerUs) (ev t.cyclesPerUs t.now).reverse t u) :
    Ran (1 + n * s.cyclesPerUs)
      (holdEndEvents s s.firstEdge ++ ev s.cyclesPerUs s.firstEdge).reverse s u := by
  refine (h.trans k).of_eq (by rw [h.cyclesPerUs]) ?_
  rw [List.reverse_append, holdEndEvents_reverse, h.cyclesPerUs, h.now, State.firstEdge]

/-- `Ran.afterHold` for slots. -/
theorem Ran.slotsAfterHold {bits : List Bool} (h : Ran 1 (holdEndEvents s s.firstEdge) s t)
    (k : Ran (n * t.cyclesPerUs) (slotsEvents t.cyclesPerUs t.now bits).reverse t u) :
    Ran (1 + n * s.cyclesPerUs)
      (holdEndEvents s s.firstEdge ++ slotsEvents s.cyclesPerUs s.firstEdge bits).reverse s u :=
  h.afterHold (ev := fun c t0 => slotsEvents c t0 bits) k

/-- `Ran.afterHold` for one slot. -/
theorem Ran.slotAfterHold {b : Bool} (h : Ran 1 (holdEndEvents s s.firstEdge) s t)
    (k : Ran (n * t.cyclesPerUs) (slotEvents t.cyclesPerUs t.now b).reverse t u) :
    Ran (1 + n * s.cyclesPerUs)
      (holdEndEvents s s.firstEdge ++ slotEvents s.cyclesPerUs s.firstEdge b).reverse s u :=
  h.afterHold (ev := fun c t0 => slotEvents c t0 b) k

/-- The eight slots of the byte `v` after the end of the hold, then `body` (40_bus_transactions.md R114). -/
theorem txByte_afterHold {v : Byte} {body : Run ResultCode} {Q : ResultCode → State → Prop}
    (hb : s.status.busy = true) (h : Ran 1 (holdEndEvents s s.firstEdge) s t)
    (next : ∀ u, Ran (1 + 488 * s.cyclesPerUs) (holdEndEvents s s.firstEdge
        ++ slotsEvents s.cyclesPerUs s.firstEdge (lineBits v)).reverse s u → u.pads = Pads.released →
      body.Ends u Q (CutShort s)) :
    (do txByte v; body : Run ResultCode).Ends t Q (CutShort s) :=
  ends_then (txByte_ends (h.busy.trans hb) v) (fun _ hcut => hcut.after h)
    fun _ u hu p => next u (h.slotsAfterHold hu) p.1

/-- A command that only sends leaves everything but the line as it was. -/
theorem Ran.sent {ev : List PadEvent} (h : Ran n ev.reverse s u) (hp : u.pads = Pads.released)
    (r : ResultCode) : u.now = s.now + n ∧ PadTrace s (u.complete r) ev
      ∧ (u.complete r).pads = Pads.released ∧ Untouched s (u.complete r) :=
  ⟨h.now, h.padTrace r, hp, h.untouched r⟩

/-! ### What a reading command returns -/

/-- READ_BIT and READ_BYTE write DATA alone (10_state.md R42). -/
theorem Ran.untouched_setData {ev : List PadEvent} (h : Ran n ev s u) (v : Byte) (r : ResultCode) :
    Untouched s { (u.setData v).complete r with data := s.data } := by
  obtain ⟨-, hrest⟩ := h.untouched r
  exact ⟨rfl, hrest⟩

theorem bitByte_getLsbD_zero (b : Bool) : (bitByte b).getLsbD 0 = b := by cases b <;> rfl

theorem bitByte_eq (b : Bool) : bitByte b = 0#8 ∨ bitByte b = 1#8 := by
  cases b
  · exact .inl rfl
  · exact .inr rfl

end Sys2Proof.Machine

open Sys2Proof Sys2Proof.Machine

/-- Settles O25: the gate of each of the nine commands is closed after the first cycle. -/
theorem gatedCommandsAreRefusedUncalibrated : Obligations.GatedCommandsAreRefusedUncalibrated := by
  intro i hi s hb hn hc
  obtain ⟨body, hbody⟩ := exec_gated hi
  exact gated_refused (hbody s) hb hn hc

/-- Settles O36: after the first cycle the hold ends if there is one, and if there is none nothing
happens. -/
theorem depowerEndsTheHold : Obligations.DepowerEndsTheHold := by
  intro s hb hn
  refine completes_of rfl hn (tick_then hb (fun _ h => h) fun t ht hpads henv => ?_)
  refine ends_then (beginLine_ends t) (fun _ h => h.after ht) fun _ u hu ⟨hpu, hlow, hquiet⟩ => ?_
  rw [hpads] at hlow hquiet
  have hran : Ran 1 (holdEndEvents s s.firstEdge).reverse s u := by
    refine (ht.trans hu).of_eq rfl ?_
    rw [holdEndEvents_reverse, List.append_nil, holdEndEvents, holdEndEvents, hpads, ht.now,
      State.firstEdge]
  refine ⟨rfl, hran.now, hpu, hran.padTrace _, fun hold => ?released, fun hold => ?quiet,
    hran.untouched _⟩
  case released =>
    rw [hold, Bool.not_true, Bool.and_false] at hlow
    exact congrArg₂ Pads.mk hlow hpu
  case quiet =>
    obtain rfl := hquiet hold
    exact ⟨hpads, ht.wave, henv⟩

/-- Settles O37. -/
theorem writeBitSendsOneSlot : Obligations.WriteBitSendsOneSlot := by
  intro s hb hn hc
  refine gated_completes rfl hb hn hc fun t ht => ?_
  rw [ends_bind, ends_state, ht.w_data]
  exact ends_then (writeSlot_ends (ht.busy.trans hb) _) (fun _ h => h.after ht)
    fun _ u hu p => ⟨rfl, (ht.slotAfterHold hu).sent p.1 _⟩

/-- Settles O38: with HOLD one pad event comes after the slots, at the completion edge. -/
theorem writeByteSendsEightSlots : Obligations.WriteByteSendsEightSlots := by
  intro s hb hn hc
  refine ⟨gated_completes rfl hb hn hc fun t ht => ?_, gated_completes rfl hb hn hc fun t ht => ?_⟩
  · rw [ends_bind, ends_state, ht.w_data]
    exact txByte_afterHold hb ht fun u hu p => ⟨rfl, hu.sent p _⟩
  · rw [ends_bind, ends_state, ht.w_data]
    refine txByte_afterHold hb ht fun u hu _ => ?_
    have hran := (hu.trans (drive_ran u Pads.high)).of_eq rfl List.reverse_concat.symm
    exact ⟨rfl, hran.now, hran.padTrace _, rfl, rfl, hran.untouched _⟩

/-- Settles O39: the frame of SELECT is the byte 0x55 and then the slots of the eight ROM bytes. -/
theorem selectAndSkipSendTheirFrames : Obligations.SelectAndSkipSendTheirFrames := by
  intro s hb hn hc
  refine ⟨gated_completes rfl hb hn hc fun t ht =>
    txByte_afterHold hb ht fun u hu p => ⟨rfl, hu.sent p _⟩,
    gated_completes rfl hb hn hc fun t ht => ?_⟩
  refine ends_then (txByte_ends (ht.busy.trans hb) Config.romCmdMatch) (fun _ h => h.after ht)
    fun _ u hu _ => ?_
  have htu := ht.trans hu
  rw [ends_bind, ends_state, htu.w_selrom]
  refine ends_then (txRomBytes_ends s.w.selrom _ (htu.busy.trans hb)) (fun _ h => h.after htu)
    fun _ v hv p => ?_
  have hframe : Ran (4392 * t.cyclesPerUs)
      (slotsEvents t.cyclesPerUs t.now (selectBits s.w.selrom)).reverse t v := by
    refine (hu.trans hv).of_eq ?_ ?_
    · rw [hu.cyclesPerUs]
      change 488 * t.cyclesPerUs + 488 * t.cyclesPerUs * 8 = _
      ring
    · have hbyte : 61 * t.cyclesPerUs * (lineBits 0x55#8).length = 488 * t.cyclesPerUs := by
        rw [show (lineBits 0x55#8).length = 8 from rfl]
        ring
      rw [selectBits, slotsEvents_append, hbyte, List.reverse_append, hu.cyclesPerUs, hu.now]
  exact ⟨rfl, (ht.slotsAfterHold hframe).sent (p (.inr (by simp))) _⟩

/-- Settles O40. -/
theorem readBitReturnsTheSampledLevel : Obligations.ReadBitReturnsTheSampledLevel := by
  intro s hb hn hc _ hts
  refine gated_completes rfl hb hn hc fun t ht => ?_
  refine ends_then (readSlot_ends (ht.busy.trans hb) (by rw [ht.w_tsample]; omega))
    (fun _ h => h.after ht) fun b u hu ⟨hpads, _, hlevel⟩ => ?_
  rw [ht.slotLevelEdge, ht.now] at hlevel
  have hran := ht.slotAfterHold hu
  exact ⟨rfl, hran.now, bitByte_eq b,
    fun hp => (bitByte_getLsbD_zero b).trans (hlevel (by rw [ht.passive hp, hp])),
    hran.padTrace .ok, hpads, hran.untouched_setData _ .ok⟩

/-- Settles O41. -/
theorem readByteReturnsTheSampledLevels : Obligations.ReadByteReturnsTheSampledLevels := by
  intro s hb hn hc _ hts
  refine gated_completes rfl hb hn hc fun t ht => ?_
  refine ends_then (rxByte_ends (ht.busy.trans hb) (by rw [ht.w_tsample]; omega))
    (fun _ h => h.after ht) fun v u hu ⟨hpads, hlevels⟩ => ?_
  have hran := ht.slotsAfterHold hu
  refine ⟨rfl, hran.now, fun hp i hi => ?_, hran.padTrace .ok, hpads, hran.untouched_setData _ .ok⟩
  have hlevel := hlevels (by rw [ht.passive hp, hp]) i hi
  rw [ht.slotLevelEdge, ht.now, ht.cyclesPerUs] at hlevel
  exact hlevel
end

section
/-! PROOF. OW_RESET (40_bus_transactions.md §2), on any bus from the two ends of a bus reset, and on the
reference devices (20_memory.md R86) from what they make of the reset pulse (`busReset_devices`). -/

namespace Sys2Proof.Machine

variable {β : Type} {s t u : State} {n : Nat} {d : Devices} {roms : List RomCode}
variable {Q : β → State → Prop}

/-! ### On any bus -/

/-- `t` comes right after a bus reset that found the line stuck low, the first thing the command accepted
in `s` did (40_bus_transactions.md R116). -/
structure LineStuck (s t : State) : Prop where
  ran : Ran (1 + 249 * s.cyclesPerUs) (holdEndEvents s s.firstEdge).reverse s t
  notHigh : t.pads.pu = false
  levels : s.env.passive = true → ∀ j < 250, t.lineLevel (s.idleLevelEdge j) = false

/-- The two ends of the bus reset that opens a command: `busReset_then` with the pad outputs and the levels
of a stuck line. -/
theorem busReset_branches {f : ResetOutcome → Run ResultCode} {Q : ResultCode → State → Prop}
    (hb : s.status.busy = true)
    (stuck : ∀ t, LineStuck s t → (f ⟨false, true⟩).Ends t Q (CutShort s))
    (reset : ∀ k o t, BusReset s k o t → (f o).Ends t Q (CutShort s)) :
    Run.Ends (do tick; beginLine; let o ← busReset; f o) s Q (CutShort s) := by
  refine line_then hb (fun _ h => h) fun u hu hpu _ => ?_
  have hnow : u.now = s.firstEdge := hu.now
  rw [ends_bind]
  refine (busReset_ends (hu.busy.trans hb)).mono (fun o t h => ?_) fun _ h => h.after hu
  rw [hnow, hu.cyclesPerUs] at h
  obtain ⟨-, ⟨hstuck, hpads, k, hk, hran, hlevels⟩ | ⟨rfl, hpads, -, hran, hlevels⟩⟩ := h
  · refine reset k o t ⟨hk, (hu.trans hran).of_eq rfl ?_, hstuck, hpads, fun hp => ?_⟩
    · rw [List.reverse_append, holdEndEvents_reverse]
    · obtain ⟨hhigh, hlow, hpresence⟩ := hlevels (by rw [hu.passive hp, hp])
      exact ⟨⟨hk, hhigh, hlow⟩, hpresence⟩
  · refine stuck t ⟨(hu.trans hran).of_eq rfl ?_, by rw [hpads, hpu], fun hp => ?_⟩
    · rw [List.nil_append, holdEndEvents_reverse]
    · exact hlevels (by rw [hu.passive hp, hp])

/-- OW_RESET writes PRESENCE and STUCK alone (10_state.md R36). -/
theorem Ran.untouched_recordReset {ev : List PadEvent} (h : Ran n ev s u) (o : ResetOutcome)
    (r : ResultCode) :
    let t := (u.recordReset o).complete r
    Untouched s { t with status :=
      { t.status with presence := s.status.presence, stuck := s.status.stuck } } := by
  obtain ⟨h1, h2, h3, h4, h5, h6, h7, h8, h9, -, h11, h12, h13, -, h15⟩ := h.untouched r
  exact ⟨h1, h2, h3, h4, h5, h6, h7, h8, h9, rfl, h11, h12, h13, rfl, h15⟩

/-! ### On the reference devices -/

theorem idleCheck_of_high {left : Nat} {Q : Bool → State → Prop} {R : State → Prop}
    (h : s.lineLevel (s.now - 2) = true) (hQ : Q true s.countStep) :
    (idleCheck (left + 1)).Ends s Q R := by
  rw [idleCheck, ends_bind, ends_sample, h, if_pos rfl]
  exact hQ

/-- A low pulse of `low` µs and the `rest` µs after it, then `f`: what the bus makes of the two pad
events, beside what `pulse_ends` says. -/
theorem pulse_then {f : Run β} {R : State → Prop} (hb : s.status.busy = true) (low rest : Nat)
    (hR : ∀ t, CutShort s t → R t)
    (next : ∀ t, Ran ((low + rest) * s.cyclesPerUs)
        [⟨s.now + low * s.cyclesPerUs, Pads.released⟩, ⟨s.now, Pads.low⟩] s t →
      t.pads = Pads.released →
      t.env = (s.env.onPads s.cyclesPerUs s.now Pads.low).onPads s.cyclesPerUs
        (s.now + low * s.cyclesPerUs) Pads.released → f.Ends t Q R) :
    (do driveLow; waitUs low; release; waitUs rest; f : Run β).Ends s Q R := by
  have hlow := drive_ran s Pads.low
  rw [ends_bind, driveLow, ends_drive]
  refine ends_then (waitUs_ends (hlow.busy.trans hb) low) (fun t h => hR t (h.after hlow))
    fun _ u hu ⟨_, henv, _⟩ => ?_
  have hfall := (hlow.trans hu).trans (drive_ran u Pads.released)
  rw [ends_bind, release, ends_drive]
  refine ends_then (waitUs_ends (hfall.busy.trans hb) rest) (fun t h => hR t (h.after hfall))
    fun _ t ht ⟨hpads, henv', _⟩ => ?_
  have hnow : u.now = s.now + low * s.cyclesPerUs := by
    rw [hu.now, hlow.cyclesPerUs, hlow.now, Nat.add_zero]
  have hcyc : u.cyclesPerUs = s.cyclesPerUs := (hlow.trans hu).cyclesPerUs
  refine next t ((hfall.trans ht).of_eq ?_ ?_) hpads ?_
  · rw [hfall.cyclesPerUs, hlow.cyclesPerUs]; ring
  · rw [hnow]; rfl
  · rw [henv', State.setPads_env, State.countStep_env, henv, State.setPads_env, State.countStep_env]
    rw [show u.countStep.cyclesPerUs = s.cyclesPerUs from hcyc, show u.countStep.now = _ from hnow]
    rfl

/-- The reference devices `d` after a reset pulse that ended at edge `r`, `c` cycles to the µs. -/
def Devices.afterPulse (d : Devices) (c r : Nat) : Devices :=
  { d.afterReset c r with lowSince := none, reading := false }

/-- The two pad events of a reset pulse (40_bus_transactions.md R116) are one to devices that see no low
pulse under way. -/
theorem onPads_resetPulse (h : d.lowSince = none) (c t0 : Nat) :
    ((BusEnv.devices d).onPads c t0 Pads.low).onPads c (t0 + 480 * c) Pads.released
      = .devices (d.afterPulse c (t0 + 480 * c)) := by
  simp only [BusEnv.onPads, Devices.onPads, h, Pads.low, Pads.released, Nat.add_sub_cancel_left,
    le_refl, if_true]
  rfl

/-- The level 70 µs after the release that ended a reset pulse, as the synchronizer samples it: low iff
there is a device (20_memory.md R86 (a)). -/
theorem lineLevel_afterPulse {c r : Nat} {wave : List PadEvent} (hc : 1 ≤ c)
    (hw : s.wave = ⟨r, Pads.released⟩ :: wave) (he : s.env = .devices (d.afterPulse c r)) :
    s.lineLevel (r + 70 * c - 2) = d.roms.isEmpty := by
  have hpast : r < r + 70 * c - 2 := by omega
  have hwindow : r + 60 * c ≤ r + 70 * c - 2 ∧ r + 70 * c - 2 < r + 240 * c := by omega
  rw [State.lineLevel, hw, padsBefore, if_pos hpast, he]
  cases hroms : d.roms with
  | nil => simp [BusEnv.level, Devices.afterPulse, Devices.afterReset, hroms, Pads.released]
  | cons rom roms =>
    simp [BusEnv.level, Devices.afterPulse, Devices.afterReset, hroms, Pads.released, hwindow]

/-- `bus_reset()` on the reference devices, of a line that the first sample finds high
(40_bus_transactions.md R116, 20_memory.md R86 (a)). -/
theorem busReset_devices (hb : s.status.busy = true) (hc : 1 ≤ s.cyclesPerUs)
    (he : s.env = .devices d) (hlow : d.lowSince = none) (hidle : s.lineLevel (s.now - 2) = true) :
    busReset.Ends s
      (fun o t => o = ⟨!d.roms.isEmpty, false⟩ ∧ t.pads = Pads.released
        ∧ Ran (960 * s.cyclesPerUs) (resetPulseEvents s.cyclesPerUs s.now).reverse s t
        ∧ t.env = .devices (d.afterPulse s.cyclesPerUs (s.now + 480 * s.cyclesPerUs))) (CutShort s) := by
  unfold busReset
  rw [ends_bind]
  refine idleCheck_of_high hidle ?_
  have h0 := countStep_ran s
  rw [if_pos rfl]
  refine pulse_then (h0.busy.trans hb) 480 70 (fun _ h => h.after h0) fun u hu hpads henv => ?_
  rw [State.countStep_env, he] at henv
  have henv' := henv.trans (onPads_resetPulse hlow s.cyclesPerUs s.now)
  have hnow : u.now = s.now + 480 * s.cyclesPerUs + 70 * s.cyclesPerUs := by
    rw [hu.now, h0.cyclesPerUs, h0.now]
    ring
  have hlevel : u.lineLevel (u.now - 2) = d.roms.isEmpty := by
    rw [hnow]
    exact lineLevel_afterPulse hc hu.wave henv'
  rw [ends_bind, ends_sample, hlevel]
  have h1 := (h0.trans hu).trans (countStep_ran u)
  refine ends_then (waitUs_ends (h1.busy.trans hb) 410) (fun _ h => h.after h1)
    fun _ t ht ⟨hpads', hsame, _⟩ => ?_
  refine ⟨rfl, hpads'.trans hpads, (h1.trans ht).of_eq ?_ rfl, hsame.trans henv'⟩
  rw [h1.cyclesPerUs, h0.cyclesPerUs]
  ring

/-! ### A command accepted by an idle block on the reference devices -/

/-- The step after the acceptance of a command runs it (20_memory.md R77). -/
theorem step_acceptNow (i : Instr) (hr : s.awaitingReset = false) :
    step (s.acceptNow (encode i)) = exec i (s.acceptNow (encode i)) := by
  rw [step_busy (s := s.acceptNow (encode i)) hr rfl]
  exact congrArg (exec · _) (decode_encode i)

theorem OnDevices.two_le_cyclesPerUs (h : OnDevices s roms) : 2 ≤ s.cyclesPerUs := by
  have hbuild := h.build
  simp only [Config.wf, Bool.and_eq_true, decide_eq_true_eq] at hbuild
  obtain ⟨⟨hclk, -⟩, -⟩ := hbuild
  exact hclk

theorem OnDevices.noReset (h : OnDevices s roms) (v : Word) : NoReset (s.acceptNow v) := by
  intro c hc
  have hport : (s.acceptNow v).port = [] := h.noHost
  rw [hport] at hc
  cases hc

/-- No device pulls the line low at the last edge, nor does the block. -/
theorem OnDevices.high (h : OnDevices s roms) (hw : t.wave = s.wave) (he : t.env = s.env) :
    t.lineLevel s.now = true := by
  obtain ⟨d, henv, -, -, hto⟩ := h.bus
  rw [State.lineLevel, hw, h.notPulled, he, henv]
  simp [BusEnv.level, Nat.not_lt.2 hto]

/-- A line command on a released line: one cycle, in which nothing happens, then `body`. -/
theorem line_then_released {body : Run ResultCode} {Q : ResultCode → State → Prop}
    (hb : s.status.busy = true) (hp : s.pads.pu = false)
    (next : ∀ t, Ran 1 [] s t → t.env = s.env → body.Ends t Q (CutShort s)) :
    Run.Ends (do tick; beginLine; body) s Q (CutShort s) := by
  refine tick_then hb (fun _ h => h) fun t ht hpads henv => ?_
  refine ends_then (beginLine_ends t) (fun _ h => h.after ht) fun _ u _ ⟨_, _, hquiet⟩ => ?_
  obtain rfl := hquiet (by rw [hpads, hp])
  exact next u ht henv

end Sys2Proof.Machine

open Sys2Proof Sys2Proof.Machine

/-- Settles O42: `busReset_branches`, then the commit of PRESENCE and STUCK. -/
theorem owResetReportsPresence : Obligations.OwResetReportsPresence := by
  intro s hb hn hc
  refine exec_completes_in rfl hn (gate_open hb hc (busReset_branches hb (fun t ht => ?stuck)
    fun k o t ht => ?reset))
  case stuck =>
    have hran := ht.ran
    exact ⟨rfl, rfl, rfl, ht.notHigh, hran.untouched_recordReset _ _,
      .inr ⟨hran.now.trans (Nat.add_assoc _ _ _).symm, rfl, rfl, hran.padTrace .noPresence, ht.levels⟩⟩
  case reset =>
    have hran := ht.ran
    exact ⟨rfl, rfl, rfl, congrArg Pads.pu ht.released, hran.untouched_recordReset _ _,
      .inl ⟨k, ht.idled, hran.now.trans (Nat.add_assoc _ _ _).symm, ht.notStuck, hran.padTrace .ok,
        ht.levels⟩⟩

/-- Settles O46: on such a line the first sample of the idle check reads high, and the presence sample is
that of `busReset_devices`. -/
theorem resetSeesWhetherADeviceIsThere : Obligations.ResetSeesWhetherADeviceIsThere := by
  intro s roms h
  obtain ⟨d, henv, rfl, hlow, -⟩ := h.bus
  rw [step_acceptNow .owReset h.wasReset]
  refine exec_completes_in rfl (h.noReset _) (gate_open rfl h.calibrated
    (line_then_released rfl (congrArg Pads.pu h.released) fun t ht henv' => ?_))
  have hcyc : t.cyclesPerUs = s.cyclesPerUs := ht.cyclesPerUs
  have hnow : t.now = s.now + 2 := ht.now
  have hclock := h.two_le_cyclesPerUs
  have hidle : t.lineLevel (t.now - 2) = true := by
    rw [hnow, Nat.add_sub_cancel]
    exact h.high ht.wave henv'
  refine (ends_bind _ _).2 ((busReset_devices (ht.busy.trans rfl) (by omega) (henv'.trans henv) hlow
    hidle).mono (fun o u hu => ?_) fun _ hcut => hcut.after ht)
  obtain ⟨rfl, -, hran, -⟩ := hu
  refine ⟨rfl, rfl, ?result, ?edge⟩
  case result => cases d.roms <;> rfl
  case edge =>
    change u.now = _
    rw [hran.now, hnow, hcyc]
end

section
/-! PROOF. The search commands that stay off the line (41_rom_search.md R141, R159, R160): one cycle, then
one change of the search state or of FOUND (`Ran.untouched_search`). -/

namespace Sys2Proof.Machine

variable {s u : State} {n : Nat}

/-- A command that lets one cycle pass and then makes one change completes one cycle after acceptance. -/
theorem change_completes {f : State → State} {i : Instr} {r : ResultCode} {Q : State → Prop}
    (hi : exec i s = command (do Run.change f; return r) s) (hb : s.status.busy = true)
    (hn : NoReset s) (hnow : ∀ t, (f t).now = t.now)
    (h : ∀ t, Ran 1 [] s t → LineQuiet s t → Q ((f t).complete r)) : CompletesWith i s r 1 Q := by
  refine completes_of hi hn (tick_then hb (fun _ h => h) fun t ht hpads henv => ?_)
  rw [ends_bind, ends_change]
  exact ⟨rfl, (hnow t).trans ht.now, h t ht ⟨hpads, ht.wave, henv⟩⟩

/-- A command that writes the search state and FOUND leaves everything else as it was. -/
theorem Ran.untouched_search {ev : List PadEvent} (h : Ran n ev s u) (q : Search) (found : Bool)
    (r : ResultCode) :
    let v := { u with search := q, status := { u.status with found := found } }
    Untouched s { v.complete r with
      search := s.search, status := { (v.complete r).status with found := s.status.found } } := by
  obtain ⟨h1, h2, h3, h4, h5, -, h7, h8, h9, h10, -, h12⟩ := h.untouched r
  exact ⟨h1, h2, h3, h4, h5, rfl, h7, h8, h9, h10, rfl, h12⟩

/-- A command that clears FOUND alone leaves everything else as it was. -/
theorem Ran.untouched_dropFound {ev : List PadEvent} (h : Ran n ev s u) (r : ResultCode) :
    let t := u.dropFound.complete r
    Untouched s { t with status := { t.status with found := s.status.found } } := by
  obtain ⟨h1, h2, h3, h4, h5, h6, h7, h8, h9, h10, -, h12⟩ := h.untouched r
  exact ⟨h1, h2, h3, h4, h5, h6, h7, h8, h9, h10, rfl, h12⟩

/-- An open gate, and a search that is exhausted: FOUND is cleared and nothing is driven
(41_rom_search.md R141). -/
theorem searchNext_exhausted (hb : s.status.busy = true) (hn : NoReset s) (hc : s.status.cal = true)
    (hterm : s.search.term = true) : CompletesWith .searchNext s .exhausted 1 fun t =>
      t.status.found = false
        ∧ Untouched s { t with status := { t.status with found := s.status.found } }
        ∧ LineQuiet s t := by
  refine completes_of rfl hn (gate_open hb hc (tick_then hb (fun _ h => h) fun t ht hpads henv => ?_))
  rw [ends_bind, ends_state, ht.search, hterm, if_pos rfl, ends_bind, ends_change, ends_pure]
  exact ⟨rfl, ht.now, rfl, ht.untouched_dropFound _, hpads, ht.wave, henv⟩

end Sys2Proof.Machine

open Sys2Proof Sys2Proof.Machine

/-- Settles O29. -/
theorem searchResetClearsTheSearchState : Obligations.SearchResetClearsTheSearchState := by
  intro s hb hn
  exact change_completes rfl hb hn (fun _ => rfl) fun t ht hquiet =>
    ⟨rfl, rfl, rfl, rfl, rfl, rfl, ht.untouched_search .cleared false .ok, hquiet⟩

/-- Settles O30: the byte that seeds the buffer is the one latched at acceptance. -/
theorem targetSearchSeedsTheSearchState : Obligations.TargetSearchSeedsTheSearchState := by
  intro s hb hn
  exact change_completes rfl hb hn (fun _ => rfl) fun t ht hquiet =>
    ⟨congrArg (BitVec.setWidth 32) ht.w_data, rfl, rfl, rfl, rfl, rfl,
      ht.untouched_search (.target t.w.data) false .ok, hquiet⟩

/-- Settles O27: the gate is asked before TERM. -/
theorem exhaustedSearchDrivesNothing : Obligations.ExhaustedSearchDrivesNothing := by
  intro s hb hn hterm
  exact ⟨gated_refused rfl hb hn, fun hc => searchNext_exhausted hb hn hc hterm⟩
end

section
/-! PROOF. How a SEARCH_NEXT that reaches the bus ends (41_rom_search.md R142 to R157): its edges and the
directions of its pass from what was sent (`SearchEnd`), what it leaves from its commit
(`Effect.searchTable`). -/

namespace Sys2Proof.Machine

variable {s t u v : State} {r : ResultCode} {k n : Nat} {id co id' co' : Nat → Bool}

/-! ### The ends of a search -/

/-- How the pseudocode of a SEARCH_NEXT accepted in `s` ends on the bus: its result, and the state it leaves
to the completion edge (41_rom_search.md R142, R145, R152 to R154). -/
inductive SearchEnd (s : State) : ResultCode → State → Prop
  | stuck (u : State) : Ran (1 + 249 * s.cyclesPerUs) (holdEndEvents s s.firstEdge) s u →
      SearchEnd s .noPresence (u.recordReset ⟨false, true⟩).clearSearch
  | absent (k : Nat) (o : ResetOutcome) (u : State) : BusReset s k o u →
      SearchEnd s .noPresence (u.recordReset o).clearSearch
  | collision (k n : Nat) (id co : Nat → Bool) (o : ResetOutcome) (u : State) : k < 250 →
      SearchExchange s k n false id co u →
      SearchEnd s .busCollisionAbort (u.recordReset o).clearSearch
  | rejected (k : Nat) (id co : Nat → Bool) (r : ResultCode) (u v : State) : k < 250 →
      SearchExchange s k 64 true id co u → r ∈ [ResultCode.zeroFamily, .crcMismatch] →
      v.now = u.now → SearchEnd s r v
  | found (k : Nat) (id co : Nat → Bool) (o : ResetOutcome) (u : State) : k < 250 →
      SearchExchange s k 64 true id co u →
      SearchEnd s .ok (u.recordReset o).checkCrc.commitPass

/-- What follows a search pass that came through `n` positions. -/
theorem SearchExchange.searchEnd {full : Bool} {o : ResetOutcome} (hk : k < 250)
    (h : SearchExchange s k n full id co u) :
    Run.Ends (do
      Run.change fun s => s.recordReset o
      if full then finishPass
      else
        Run.change State.clearSearch
        return .busCollisionAbort) u (SearchEnd s) (CutShort s) := by
  rw [ends_bind, ends_change, ends_ite]
  obtain ⟨rfl, rfl⟩ | ⟨rfl, -⟩ := h.ends
  · refine ⟨fun _ => (finishPass_ends _).mono (fun r v hr => ?_) fun _ h => h, fun hf => absurd rfl hf⟩
    obtain ⟨rfl, -, rfl⟩ | ⟨rfl, -, -, rfl⟩ | ⟨rfl, -, -, rfl⟩ := hr
    · exact .rejected k id co _ u _ hk h (by decide) rfl
    · exact .rejected k id co _ u _ hk h (by decide) rfl
    · exact .found k id co o u hk h
  · exact ⟨fun hf => absurd hf (by decide), fun _ => .collision k n id co o u hk h⟩

/-- A calibrated SEARCH_NEXT whose search is not exhausted ends in one of these ways. -/
theorem searchNext_end (hb : s.status.busy = true) (hn : NoReset s) (hc : s.status.cal = true)
    (hterm : s.search.term = false) (hts : s.w.tsample.toNat ≤ 60) :
    ∃ t, exec .searchNext s = .next t ∧ ∃ r v, t = v.complete r ∧ SearchEnd s r v := by
  refine searchNext_reaches_bus hb hn hc hterm (Run.Ends.mono (Q := SearchEnd s) ?_
    (fun r v h => ⟨r, v, rfl, h⟩) fun _ h => h)
  refine busReset_then hb (fun u hu => .stuck u hu) fun k o u hu => (ends_ite _ _ _).2
    ⟨fun _ => searchExchange_then hb hts hu fun n full id co v _ _ _ hv => hv.searchEnd hu.idled,
      fun _ => .absent k o u hu⟩

/-! ### How long a search takes -/

/-- The edge at which a pass over `n` positions ends (41_rom_search.md R157). -/
theorem SearchExchange.now {full : Bool} (h : SearchExchange s k n full id co u) : u.now
    = s.now + 1 + (k + 960 + 488 + 183 * n + 61 * (abortBits full).length) * s.cyclesPerUs :=
  (Ran.now (s := s.withPass u.w) h.ran).trans (Nat.add_assoc _ _ _).symm

theorem SearchExchange.now_full (h : SearchExchange s k 64 true id co u) :
    u.now = s.now + 1 + (k + 13160) * s.cyclesPerUs := by
  have hnow := h.now
  rw [show (abortBits true).length = 0 from rfl] at hnow
  exact hnow.trans (by ring)

theorem SearchExchange.now_abort (h : SearchExchange s k n false id co u) :
    u.now = s.now + 1 + (k + 960 + 488 + 183 * n + 122) * s.cyclesPerUs := by
  rw [h.now, abortBits, if_neg (by decide), show 61 * [true, true].length = 122 from rfl]

/-- The completion edge of a SEARCH_NEXT accepted in `s` that completes in `t` with result `r`
(41_rom_search.md R157). -/
inductive SearchLasts (s : State) : ResultCode → State → Prop
  | stuck (t : State) : t.status.stuck = true → t.now = s.now + 1 + 249 * s.cyclesPerUs →
      SearchLasts s .noPresence t
  | absent (t : State) (k : Nat) : k < 250 → t.status.stuck = false →
      t.now = s.now + 1 + (k + 960) * s.cyclesPerUs → SearchLasts s .noPresence t
  | collision (t : State) (k n : Nat) : k < 250 → 1 ≤ n → n ≤ 64 →
      t.now = s.now + 1 + (k + 960 + 488 + 183 * (n - 1) + 122) * s.cyclesPerUs →
      SearchLasts s .busCollisionAbort t
  | full (t : State) (r : ResultCode) (k : Nat) : k < 250 →
      r ∈ [ResultCode.zeroFamily, .crcMismatch, .ok] →
      t.now = s.now + 1 + (k + 13160) * s.cyclesPerUs → SearchLasts s r t

theorem SearchEnd.lasts (h : SearchEnd s r v) : SearchLasts s r (v.complete r) := by
  cases h with
  | stuck u hu => exact .stuck _ rfl (hu.now.trans (Nat.add_assoc _ _ _).symm)
  | absent k o u hu =>
    exact .absent _ k hu.idled hu.notStuck (hu.ran.now.trans (Nat.add_assoc _ _ _).symm)
  | collision k n id co o u hk hu =>
    obtain ⟨hf, -⟩ | ⟨-, hlt, -⟩ := hu.ends
    · exact absurd hf (by decide)
    · exact .collision _ k (n + 1) hk (by omega) (by omega) hu.now_abort
  | rejected k id co r u v hk hu hr hv =>
    exact .full _ r k hk (List.mem_append.2 (Or.inl hr : _ ∨ r ∈ [.ok])) (hv.trans hu.now_full)
  | found k id co o u hk hu => exact .full _ .ok k hk (by decide) hu.now_full

/-! ### The directions of a full pass -/

/-- `HighestFrom` over all positions up to `top`, from the candidate 0. -/
theorem HighestFrom.orZero {p p' : Nat → Prop} {top : Nat} (h : HighestFrom p 1 64 0 k) (htop : top ≤ 64)
    (hp : ∀ n, 1 ≤ n → n ≤ 64 → (p n ↔ n ≤ top ∧ p' n)) : HighestOrZero p' top k := by
  obtain ⟨rfl, hnone⟩ | ⟨h1, h64, hk, hnone⟩ := h
  · exact ⟨.inl rfl, fun n h1 hn hn' => hnone n h1 (by omega) ((hp n h1 (by omega)).2 ⟨hn, hn'⟩)⟩
  · obtain ⟨hle, hk'⟩ := (hp k h1 (by omega)).1 hk
    exact ⟨.inr ⟨h1, hle, hk'⟩, fun n hlt hn hn' =>
      hnone n hlt (by omega) ((hp n (by omega) (by omega)).2 ⟨hn, hn'⟩)⟩

/-- What 41_rom_search.md R145 to R149 say of the direction `d` at position `n`, from the bits read there,
the last discrepancy `ld` and the bit `old` of the buffer before the pass. -/
structure DirectionRule (id co old d : Bool) (n ld : Nat) : Prop where
  notBoth : ¬(id = true ∧ co = true)
  forced : id ≠ co → d = id
  below : id = false ∧ co = false → n < ld → d = old
  here : id = false ∧ co = false → n = ld → d = true
  above : id = false ∧ co = false → ld < n → d = false

theorem searchDirection_of_discrepancy (old : Bool) (n ld : Nat) : searchDirection false false old n ld
    = if n < ld then old else if n = ld then true else false := rfl

theorem searchDirection_rule {id co : Bool} (h : ¬(id = true ∧ co = true)) (old : Bool) (n ld : Nat) :
    DirectionRule id co old (searchDirection id co old n ld) n ld where
  notBoth := h
  forced := fun hne => if_pos (bne_iff_ne.2 hne)
  below := by
    rintro ⟨rfl, rfl⟩ hlt
    rw [searchDirection_of_discrepancy, if_pos hlt]
  here := by
    rintro ⟨rfl, rfl⟩ heq
    rw [searchDirection_of_discrepancy, if_neg (by omega), if_pos heq]
  above := by
    rintro ⟨rfl, rfl⟩ hgt
    rw [searchDirection_of_discrepancy, if_neg (by omega), if_neg (by omega)]

/-- The directions and the last-zero candidates of a full pass from its start, by the bits it read
(41_rom_search.md R144 to R151). -/
structure FullPass (q : Search) (id co : Nat → Bool) (w : Working) : Prop where
  rule : ∀ n, 1 ≤ n → n ≤ 64 →
    DirectionRule (id n) (co n) (romBit q.buf n) (romBit w.buf n) n q.ld.toNat
  last : HighestOrZero (fun n => (id n = false ∧ co n = false) ∧ romBit w.buf n = false) 64
    w.lastZero.toNat
  family : HighestOrZero (fun n => (id n = false ∧ co n = false) ∧ romBit w.buf n = false) 8
    w.famZero.toNat

theorem Chosen.fullPass (h : Chosen s.search.ld.toNat 1 64 id co s.startPass u) :
    FullPass s.search id co u.w := by
  have hzero : ∀ n, 1 ≤ n → n ≤ 64 → (id n = co n ↔ id n = false ∧ co n = false) := by
    intro n h1 hn
    have hboth := h.notBoth n h1 (by omega)
    generalize id n = a, co n = b at hboth ⊢
    revert a b
    decide
  refine ⟨fun n h1 hn => ?_, h.lastZero.orZero le_rfl fun n h1 hn => ?_,
    h.famZero.orZero (by decide) fun n h1 hn => ?_⟩
  · rw [h.direction n h1 (by omega)]
    exact searchDirection_rule (h.notBoth n h1 (by omega)) _ _ _
  · simp only [hzero n h1 hn, hn, true_and]
  · simp only [hzero n h1 hn]

theorem HighestOrZero.congr {p p' : Nat → Prop} {top : Nat} (h : HighestOrZero p top k)
    (hp : ∀ n, 1 ≤ n → n ≤ top → (p n ↔ p' n)) : HighestOrZero p' top k := by
  obtain ⟨hk, hnone⟩ := h
  refine ⟨hk.imp_right fun ⟨h1, hle, hpk⟩ => ⟨h1, hle, (hp k h1 hle).1 hpk⟩, fun n hlt hle hpn => ?_⟩
  exact hnone n hlt hle ((hp n (by omega) hle).2 hpn)

/-- Only the bits at the 64 positions count. -/
theorem FullPass.congr {q : Search} {w : Working} (h : FullPass q id co w)
    (hbits : ∀ n, 1 ≤ n → n ≤ 64 → id n = id' n ∧ co n = co' n) : FullPass q id' co' w := by
  obtain ⟨hrule, hlast, hfamily⟩ := h
  refine ⟨fun n h1 hn => ?_, hlast.congr fun n h1 hn => ?_, hfamily.congr fun n h1 hn => ?_⟩
  · rw [← (hbits n h1 hn).1, ← (hbits n h1 hn).2]
    exact hrule n h1 hn
  · rw [(hbits n h1 hn).1, (hbits n h1 hn).2]
  · rw [(hbits n h1 (by omega)).1, (hbits n h1 (by omega)).2]

/-- Counted back from the end of a full pass, a position starts where it does counted from its start
(41_rom_search.md R157). -/
theorem positionStart_eq (hnow : t.now = s.now + 1 + (k + 13160) * s.cyclesPerUs) (h1 : 1 ≤ n)
    (hn : n ≤ 64) : s.positionStart t n = s.passStart k n := by
  have hsplit : k + 13160 = k + 960 + 488 + 183 * (n - 1) + (65 - n) * 183 := by omega
  rw [State.positionStart, State.passStart, State.firstEdge, hnow, hsplit, Nat.add_mul _ _ s.cyclesPerUs,
    ← Nat.add_assoc, Nat.add_sub_cancel]

/-- On a passive bus the bits a full pass read are the levels at the sample points counted back from its
end. -/
theorem SearchExchange.bits (h : SearchExchange s k 64 true id co u) (hp : s.env.passive = true)
    (hlevel : t.lineLevel = u.lineLevel) (hnow : t.now = u.now) (h1 : 1 ≤ n) (hn : n ≤ 64) :
    id n = s.idBitOf t n ∧ co n = s.complementBitOf t n := by
  have hread := h.read hp n h1 (.inl hn)
  rw [State.idBitOf, State.complementBitOf, positionStart_eq (hnow.trans h.now_full) h1 hn, hlevel]
  exact ⟨(congrArg Prod.fst hread).symm, (congrArg Prod.snd hread).symm⟩

/-! ### What a search commits -/

/-- SEARCH_NEXT writes the search state, PRESENCE, STUCK and FOUND alone (10_state.md R36, R38, R51). -/
theorem Effect.untouched_searchNext (h : Effect s u .searchNext r v) (hd : Did s u) :
    let t := v.complete r
    Untouched s { t with search := s.search, status := { t.status with
      presence := s.status.presence, stuck := s.status.stuck, found := s.status.found } } := by
  obtain ⟨hdata, hts, hlat, hlo, hhi, hcrc8, hcrc16, -⟩ := hd.regs
  obtain ⟨-, -, -, -, -, hcfg, hcal, hcalerr⟩ := hd.stays
  obtain ⟨hts', hlo', hhi', hcfg', -, -, -, -, hie', -, -, hovr'⟩ := h.stays
  obtain ⟨hcal', hcalerr', hlat'⟩ := h.calibration.resolve_right fun h => absurd h.1 (by decide)
  refine ⟨(h.keeps_data (by decide)).trans hdata, hts'.trans hts, hlat'.trans hlat, hlo'.trans hlo,
    hhi'.trans hhi, rfl, (h.keeps_crc8 (by decide)).trans hcrc8,
    (h.keeps_crc16 (by decide)).trans hcrc16, hcfg'.trans hcfg, rfl, rfl, hcal'.trans hcal,
    hcalerr'.trans hcalerr, rfl, fun hw => ?_⟩
  obtain ⟨_, _, hran⟩ := hd
  obtain ⟨-, hie, hovr⟩ := hran.noWrites hw
  exact ⟨hie'.trans hie, hovr'.trans hovr⟩

/-- What a SEARCH_NEXT that reaches the bus leaves in `t`, where it completes with result `r`: the table of
41_rom_search.md R155. -/
inductive SearchTable : ResultCode → State → Prop
  | noPresence (t : State) : t.search = .cleared → t.status.found = false →
      t.status.presence = false → SearchTable .noPresence t
  | dropped (r : ResultCode) (t : State) :
      r ∈ [ResultCode.busCollisionAbort, .zeroFamily, .crcMismatch] → t.search = .cleared →
      t.status.found = false → t.status.presence = true → t.status.stuck = false → SearchTable r t
  | found (t : State) : t.status.found = true → t.status.presence = true → t.status.stuck = false →
      validRom t.search.buf = true → romByte t.search.buf 0 ≠ 0x00#8 → t.search.inRange →
      (t.search.term = true ↔ t.search.ld = 0#7) → SearchTable .ok t

theorem Effect.searchTable (h : Effect s u .searchNext r v) (hc : s.status.cal = true)
    (hterm : s.search.term = false) : SearchTable r (v.complete r) ∧ v.pads.pu = false := by
  cases h with
  | gateClosed _ _ hc' => exact absurd hc (ne_true_of_eq_false hc')
  | exhausted _ hterm' => exact absurd hterm' (ne_true_of_eq_false hterm)
  | illegal _ hi => simp at hi
  | sent _ hi => exact absurd hi (by decide)
  | received _ _ hi => exact absurd hi (by decide)
  | noDevice o _ _ ho hf => exact ⟨.noPresence _ rfl rfl ho, hf.1⟩
  | dropped r v _ _ hp hv =>
    obtain ⟨w, rfl⟩ := before_dropped hv
    refine ⟨.dropped r _ ?_ rfl rfl rfl rfl, congrArg Pads.pu hp⟩
    obtain ⟨rfl, -⟩ | ⟨rfl, -⟩ | ⟨rfl, -⟩ := hv <;> decide
  | found _ _ hp hfam hrom hz =>
    have hbuf : (u.recordReset ⟨true, false⟩).checkCrc.commitPass.search.buf = u.w.buf :=
      romOf_split u.w.buf
    exact ⟨.found _ rfl rfl rfl (hbuf ▸ hrom) (hbuf ▸ hfam)
      (inRange_commitPass (u := (u.recordReset _).checkCrc) hz) (decide_eq_true_iff ..),
      congrArg Pads.pu hp⟩

end Sys2Proof.Machine

open Sys2Proof Sys2Proof.Machine

/-- Settles O44: the edge by what was sent, the registers by what was committed; the result ties the two. -/
theorem searchNextLeavesTheTableOfResults : Obligations.SearchNextLeavesTheTableOfResults := by
  intro s hb hn hc hterm _ hts
  obtain ⟨t, hexec, r, v, rfl, hend⟩ := searchNext_end hb hn hc hterm (by omega)
  obtain ⟨u, v', r', ⟨hd, -⟩, heffect, heq⟩ := exec_completes hb hn hexec
  obtain ⟨htable, hpu⟩ := heffect.searchTable hc hterm
  have huntouched := heffect.untouched_searchNext hd
  have hpu' : (v.complete r).pads.pu = false := by rw [heq]; exact hpu
  obtain rfl : r = r' := congrArg (fun t => t.status.result) heq
  rw [← heq] at htable huntouched
  refine ⟨_, hexec, rfl, rfl, hpu', huntouched, ?_⟩
  have hlasts := hend.lasts
  generalize hcompleted : v.complete r = t at *
  have hr : t.status.result = r := by rw [← hcompleted]; rfl
  cases htable with
  | noPresence _ hsearch hfound hpresence =>
    refine .inl ⟨hr, hsearch, hfound, hpresence, ?_⟩
    cases hlasts with
    | stuck _ hstuck hnow => exact .inl ⟨hstuck, hnow⟩
    | absent _ k hk hstuck hnow => exact .inr ⟨hstuck, k, hk, hnow⟩
    | full _ _ _ _ hmem => exact absurd hmem (by decide)
  | dropped _ _ hmem hsearch hfound hpresence hstuck =>
    cases hlasts with
    | stuck | absent => exact absurd hmem (by decide)
    | collision _ k n hk h1 hn hnow =>
      exact .inr (.inl ⟨hr, hsearch, hfound, hpresence, hstuck, k, hk, n, h1, hn, hnow⟩)
    | full _ _ k hk hfull hnow =>
      refine .inr (.inr (.inl ⟨?_, hsearch, hfound, hpresence, hstuck, k, hk, hnow⟩))
      rw [hr]
      simp only [List.mem_cons, List.not_mem_nil, or_false] at hmem hfull
      obtain rfl | h := hmem
      · simp at hfull
      · exact h
  | found _ hfound hpresence hstuck hrom hfam hrange hterm' =>
    cases hlasts with
    | full _ _ k hk _ hnow =>
      exact .inr (.inr (.inr ⟨hr, hfound, hpresence, hstuck, hrom, hfam, hrange, hterm', k, hk, hnow⟩))

/-- Settles O45: the bits of the exchange are the levels the statement names, and the directions follow them
(`Chosen.fullPass`). -/
theorem searchPassFollowsTheDirections : Obligations.SearchPassFollowsTheDirections := by
  intro s t hb hn hc hterm _ hts hp hexec hr
  obtain ⟨t', hexec', r, v, rfl, hend⟩ := searchNext_end hb hn hc hterm (by omega)
  cases hexec.symm.trans hexec'
  obtain rfl : r = .ok := hr
  cases hend with
  | rejected _ _ _ _ _ _ _ _ hmem => exact absurd hmem (by decide)
  | found k id co o u hk h =>
    obtain ⟨hrule, hlast, hfamily⟩ := h.chosen.fullPass.congr fun n h1 hn =>
      h.bits (t := ((u.recordReset o).checkCrc.commitPass).complete .ok) hp rfl rfl h1 hn
    have hbuf : (u.recordReset o).checkCrc.commitPass.search.buf = u.w.buf := romOf_split u.w.buf
    rw [State.complete_search, hbuf]
    refine ⟨fun n h1 hn => ?_, hlast, hfamily, decide_eq_true_iff⟩
    obtain ⟨hboth, hforced, hbelow, hhere, habove⟩ := hrule n h1 hn
    exact ⟨hboth, hforced, fun hdis => ⟨hbelow hdis, hhere hdis, habove hdis⟩⟩
end

section
/-! PROOF. A search pass on the reference devices (20_memory.md R86, 41_rom_search.md R158): what a slot is to
devices that stand between two slots (`writeSlot_between`, `readSlot_between`), what one position leaves
(`Position`), and that the devices that take part are always those the buffer agrees with. -/

namespace Sys2Proof.Machine

variable {β : Type} {s t u : State} {d : Devices} {roms alive alive' : List RomCode}
variable {phase phase' : DevicePhase} {b level : Bool} {c t0 r k n ld count : Nat} {byte : Byte}

theorem Did.busy (h : Did s t) (hb : s.status.busy = true) : t.status.busy = true := h.stays.1.trans hb

/-! ### What a slot is to the devices -/

/-- The devices `roms`, of which `alive` take part, stand at `phase`, and no low pulse is under way. -/
structure Devices.At (d : Devices) (roms alive : List RomCode) (phase : DevicePhase) : Prop where
  roms : d.roms = roms
  alive : d.alive = alive
  phase : d.phase = phase
  lowSince : d.lowSince = none

/-- In a slot whose low time ran from `t0` to `r` the devices give `level`: they pull the line low to 60 µs
after `t0`, or not at all. -/
def Devices.Answers (d : Devices) (c t0 r : Nat) (level : Bool) : Prop :=
  d.holdFrom = (if level then 0 else r) ∧ d.holdTo = if level then 0 else t0 + 60 * c

theorem Devices.Answers.holdTo_le (h : d.Answers c t0 r level) : d.holdTo ≤ t0 + 60 * c := by
  rw [h.2]
  cases level
  · exact le_rfl
  · exact Nat.zero_le _

theorem answer_answers (d : Devices) (c t0 r : Nat) (level : Bool) :
    (d.answer c t0 r level).Answers c t0 r level := by
  cases level <;> exact ⟨rfl, rfl⟩

theorem Devices.At.answer (h : d.At roms alive phase) (c t0 r : Nat) (level : Bool) :
    (d.answer c t0 r level).At roms alive phase := by
  obtain ⟨h1, h2, h3, h4⟩ := h
  cases level <;> exact ⟨h1, h2, h3, h4⟩

/-- A write slot that no search answers (20_memory.md R86 (d)). -/
theorem otherSlot_of_write (hr : d.reading = false) (c t0 r : Nat) :
    d.otherSlot c t0 r = d.answer c t0 r true := by
  rw [Devices.otherSlot, hr]
  exact if_neg (by decide)

/-- Where the devices stand after bit `count` of the ROM command, `byte` having been received. -/
def commandPhase (count : Nat) (byte : Byte) : DevicePhase :=
  if count < 7 then .command (count + 1) byte
  else if byte = Config.romCmdSearch then .searchId 1
  else .data

/-- Where the devices stand before search position `n`, or after the last. -/
def positionPhase (n : Nat) : DevicePhase := if n ≤ 64 then .searchId n else .data

theorem afterSlot_command (h : d.At roms alive (.command count byte)) (hr : d.reading = false)
    (c t0 r : Nat) (b : Bool) :
    (d.afterSlot c t0 r b).At roms alive (commandPhase count (setByteBit byte count b))
      ∧ (d.afterSlot c t0 r b).Answers c t0 r true := by
  obtain ⟨hroms, halive, -, hlow⟩ := h.answer c t0 r true
  have hhold := answer_answers d c t0 r true
  simp only [Devices.afterSlot, h.phase, otherSlot_of_write hr, commandPhase]
  split
  · exact ⟨⟨hroms, halive, rfl, hlow⟩, hhold⟩
  · split
    · exact ⟨⟨hroms, halive, rfl, hlow⟩, hhold⟩
    · exact ⟨⟨hroms, halive, rfl, hlow⟩, hhold⟩

theorem afterSlot_searchId (h : d.At roms alive (.searchId k)) (c t0 r : Nat) (b : Bool) :
    (d.afterSlot c t0 r b).At roms alive (.searchComplement k)
      ∧ (d.afterSlot c t0 r b).Answers c t0 r (Devices.wiredAnd alive (romBit · k)) := by
  obtain ⟨hroms, halive, -, hlow⟩ := h.answer c t0 r (Devices.wiredAnd d.alive (romBit · k))
  have hhold := answer_answers d c t0 r (Devices.wiredAnd d.alive (romBit · k))
  simp only [Devices.afterSlot, h.phase]
  exact ⟨⟨hroms, halive, rfl, hlow⟩, h.alive ▸ hhold⟩

theorem afterSlot_searchComplement (h : d.At roms alive (.searchComplement k)) (c t0 r : Nat) (b : Bool) :
    (d.afterSlot c t0 r b).At roms alive (.searchDirection k)
      ∧ (d.afterSlot c t0 r b).Answers c t0 r (Devices.wiredAnd alive (!romBit · k)) := by
  obtain ⟨hroms, halive, -, hlow⟩ := h.answer c t0 r (Devices.wiredAnd d.alive (!romBit · k))
  have hhold := answer_answers d c t0 r (Devices.wiredAnd d.alive (!romBit · k))
  simp only [Devices.afterSlot, h.phase]
  exact ⟨⟨hroms, halive, rfl, hlow⟩, h.alive ▸ hhold⟩

theorem afterSlot_searchDirection (h : d.At roms alive (.searchDirection k)) (hr : d.reading = false)
    (c t0 r : Nat) (b : Bool) :
    (d.afterSlot c t0 r b).At roms (alive.filter (romBit · k == b)) (positionPhase (k + 1))
      ∧ (d.afterSlot c t0 r b).Answers c t0 r true := by
  obtain ⟨hroms, halive, -, hlow⟩ := h.answer c t0 r true
  have hhold := answer_answers d c t0 r true
  simp only [Devices.afterSlot, h.phase, otherSlot_of_write hr]
  exact ⟨⟨hroms, congrArg (List.filter _) halive, rfl, hlow⟩, hhold⟩

/-- The two pad events of a slot are one to devices that see no low pulse under way. -/
theorem onPads_slot (hlow : d.lowSince = none) (hc : 1 ≤ c) (t0 : Nat) (b : Bool) :
    ((BusEnv.devices d).onPads c t0 Pads.low).onPads c (t0 + (if b then 1 else 60) * c) Pads.released
      = .devices { d.afterSlot c t0 (t0 + (if b then 1 else 60) * c) b with reading := false } := by
  have hidle : { d with lowSince := none } = d := by rw [← hlow]
  have hshort : ¬480 * c ≤ (if b then 1 else 60) * c := by
    split <;> omega
  have hbit : decide ((if b then 1 else 60) * c < 60 * c) = b := by
    cases b
    · simp
    · simp only [if_true, decide_eq_true_eq]
      omega
  simp only [BusEnv.onPads, Devices.onPads, hlow, Pads.low, Pads.released, Nat.add_sub_cancel_left,
    hshort, hbit, if_false, hidle]

/-! ### Slots between which the line is released -/

/-- In `s` the line is released and nobody pulls it low at the last edge; the reference devices `roms`, of
which `alive` take part, stand at `phase`. -/
structure BetweenSlots (s : State) (roms alive : List RomCode) (phase : DevicePhase) : Prop where
  released : s.pads = Pads.released
  notPulled : (padsBefore s.wave s.now).oeLow = false
  bus : ∃ d, s.env = .devices d ∧ d.At roms alive phase ∧ d.reading = false ∧ d.holdTo ≤ s.now

/-- The sample point of a read slot lies after the release, the synchronizer's delay counted, and before the
end of the devices' answer: what a passed calibration says of TSAMPLE (43_control.md R181, R182 (d)). -/
structure SamplesInSlot (s : State) : Prop where
  afterRelease : Config.syncStages < s.w.tsample.toNat * s.cyclesPerUs
  beforeEnd : s.w.tsample.toNat ≤ 59

theorem SamplesInSlot.one_le_cyclesPerUs (h : SamplesInSlot s) : 1 ≤ s.cyclesPerUs :=
  Nat.pos_of_ne_zero fun hzero => absurd h.afterRelease (by simp [hzero])

theorem SamplesInSlot.of_did (h : SamplesInSlot s) (hd : Did s t) : SamplesInSlot t := by
  obtain ⟨-, -, hts, -, -, hcfg, -⟩ := hd.stays
  obtain ⟨hafter, hbefore⟩ := h
  rw [← hts] at hafter hbefore
  rw [State.cyclesPerUs, ← hcfg] at hafter
  exact ⟨hafter, hbefore⟩

/-- The pad events of a slot lie before its end. -/
theorem padsBefore_slot {wave : List PadEvent} (hc : 1 ≤ c) (t0 : Nat) (b : Bool) :
    padsBefore ((slotEvents c t0 b).reverse ++ wave) (t0 + 61 * c) = Pads.released := by
  have hlast : t0 + (if b then 1 else 60) * c < t0 + 61 * c := by
    split <;> omega
  exact if_pos hlast

/-- What a slot of 61 µs leaves, from what the devices make of it. -/
theorem BetweenSlots.of_slot {d' : Devices} (hc : 1 ≤ s.cyclesPerUs)
    (hran : Ran (61 * s.cyclesPerUs) (slotEvents s.cyclesPerUs s.now b).reverse s t)
    (hpads : t.pads = Pads.released) (henv : t.env = .devices { d' with reading := false })
    (hat : d'.At roms alive phase) (hanswers : d'.Answers s.cyclesPerUs s.now r level) :
    BetweenSlots t roms alive phase where
  released := hpads
  notPulled := by
    rw [hran.wave, hran.now, padsBefore_slot hc]
    rfl
  bus := ⟨_, henv, ⟨hat.roms, hat.alive, hat.phase, hat.lowSince⟩, rfl, by
    have hto := hanswers.holdTo_le
    have hnow := hran.now
    change d'.holdTo ≤ _
    omega⟩

/-- A slot for the bit `b` that begins at edge `t0` takes the devices from `alive` and `phase` to `alive'`
and `phase'`, and they give `level` in it. -/
def SlotTakes (roms alive alive' : List RomCode) (phase phase' : DevicePhase) (c t0 : Nat) (b level : Bool)
    (d : Devices) : Prop :=
  d.At roms alive phase → ∀ r, (d.afterSlot c t0 r b).At roms alive' phase'
    ∧ (d.afterSlot c t0 r b).Answers c t0 r level

/-- `t` comes right after a low pulse of `low` µs and `rest` µs of a released line. -/
structure Pulsed (s : State) (low rest : Nat) (t : State) : Prop where
  ran : Ran ((low + rest) * s.cyclesPerUs)
    [⟨s.now + low * s.cyclesPerUs, Pads.released⟩, ⟨s.now, Pads.low⟩] s t
  released : t.pads = Pads.released
  env : t.env = (s.env.onPads s.cyclesPerUs s.now Pads.low).onPads s.cyclesPerUs
    (s.now + low * s.cyclesPerUs) Pads.released

/-- `pulse_then` with nothing after the pulse. -/
theorem pulse_pulsed (hb : s.status.busy = true) (low rest : Nat) :
    (do driveLow; waitUs low; release; waitUs rest : Run Unit).Ends s
      (fun _ t => Pulsed s low rest t) (CutShort s) := by
  have hpulse := pulse_then (f := (pure () : Run Unit)) (Q := fun _ t => Pulsed s low rest t) hb low rest
    (fun _ h => h) fun t hran hpads henv => ⟨hran, hpads, henv⟩
  simpa only [ends_bind, ends_pure] using hpulse

/-- `writeSlot_ends`, and what the bus makes of the two pad events. -/
theorem writeSlot_env (hb : s.status.busy = true) (b : Bool) :
    (writeSlot b).Ends s
      (fun _ t => Ran (61 * s.cyclesPerUs) (slotEvents s.cyclesPerUs s.now b).reverse s t
        ∧ t.pads = Pads.released
        ∧ t.env = (s.env.onPads s.cyclesPerUs s.now Pads.low).onPads s.cyclesPerUs
          (s.now + (if b then 1 else 60) * s.cyclesPerUs) Pads.released) (CutShort s) := by
  cases b with
  | true => exact (pulse_pulsed hb 1 60).mono (fun _ _ h => ⟨h.ran, h.released, h.env⟩) fun _ h => h
  | false => exact (pulse_pulsed hb 60 1).mono (fun _ _ h => ⟨h.ran, h.released, h.env⟩) fun _ h => h

theorem writeSlot_between (hb : s.status.busy = true) (hc : 1 ≤ s.cyclesPerUs)
    (h : BetweenSlots s roms alive phase)
    (hslot : ∀ d : Devices, d.reading = false →
      SlotTakes roms alive alive' phase phase' s.cyclesPerUs s.now b level d) :
    (writeSlot b).Ends s
      (fun _ t => Ran (61 * s.cyclesPerUs) (slotEvents s.cyclesPerUs s.now b).reverse s t
        ∧ BetweenSlots t roms alive' phase') (CutShort s) := by
  obtain ⟨d, henv, hat, hread, -⟩ := h.bus
  refine (writeSlot_env hb b).mono (fun _ t ⟨hran, hpads, henv'⟩ => ?_) fun _ h => h
  rw [henv, onPads_slot hat.lowSince hc] at henv'
  obtain ⟨hat', hanswers⟩ := hslot d hread hat (s.now + (if b then 1 else 60) * s.cyclesPerUs)
  exact ⟨hran, .of_slot hc hran hpads henv' hat' hanswers⟩

/-- The level at the sample point of a read slot the devices answer. -/
theorem lineLevel_answer {wave : List PadEvent} {c t0 ts : Nat} (hafter : 2 < ts * c) (hbefore : ts ≤ 59)
    (hw : s.wave = ⟨t0 + 1 * c, Pads.released⟩ :: wave)
    (he : s.env = .devices d) (hd : d.Answers c t0 (t0 + 1 * c) level) :
    s.lineLevel (t0 + (1 + ts) * c - 2) = level := by
  have hmul : (1 + ts) * c = c + ts * c := by ring
  have hle : ts * c ≤ 59 * c := Nat.mul_le_mul_right c hbefore
  have hpast : t0 + 1 * c < t0 + (1 + ts) * c - 2 := by omega
  have hend : t0 + (1 + ts) * c - 2 < t0 + 60 * c := by omega
  obtain ⟨hfrom, hto⟩ := hd
  rw [State.lineLevel, hw, padsBefore, if_pos hpast, he, BusEnv.level, hfrom, hto]
  cases level with
  | true => simp [Pads.released]
  | false =>
    have hin : decide (t0 + 1 * c ≤ t0 + (1 + ts) * c - 2) = true := decide_eq_true hpast.le
    rw [if_neg Bool.false_ne_true, if_neg Bool.false_ne_true, hin, decide_eq_true hend]
    rfl

theorem readSlot_between (hb : s.status.busy = true) (hs : SamplesInSlot s)
    (h : BetweenSlots s roms alive phase)
    (hslot : ∀ d : Devices,
      SlotTakes roms alive alive' phase phase' s.cyclesPerUs s.now true level d) :
    readSlot.Ends s
      (fun b t => Ran (61 * s.cyclesPerUs) (slotEvents s.cyclesPerUs s.now true).reverse s t
        ∧ b = level ∧ BetweenSlots t roms alive' phase') (CutShort s) := by
  have hc := hs.one_le_cyclesPerUs
  obtain ⟨hafter, hbefore⟩ := hs
  obtain ⟨d, henv, ⟨hroms, halive, hphase, hlow⟩, -, -⟩ := h.bus
  have hreading : s.announceRead.env = .devices { d with reading := true } := by
    rw [State.announceRead_env, henv]
    rfl
  have h0 : Ran 0 [] s s.announceRead := (announceRead_ends s).1
  rw [readSlot, ends_bind, ends_state, ends_bind, ends_change]
  refine pulse_then (h0.busy.trans hb) 1 s.w.tsample.toNat (fun _ h => h.after h0)
    fun u hu hpads henv' => ?_
  obtain ⟨hat', hanswers⟩ := hslot { d with reading := true } ⟨hroms, halive, hphase, hlow⟩
    (s.now + 1 * s.cyclesPerUs)
  rw [hreading] at henv'
  replace henv' := henv'.trans (onPads_slot (d := { d with reading := true }) hlow hc s.now true)
  have hnow : u.now = s.now + (1 + s.w.tsample.toNat) * s.cyclesPerUs := hu.now
  have hlevel : u.lineLevel (u.now - 2) = level := by
    rw [hnow]
    exact lineLevel_answer hafter hbefore hu.wave henv' hanswers
  have h1 := (h0.trans hu).trans (countStep_ran u)
  rw [ends_bind, ends_sample, hlevel]
  refine ends_then (waitUs_ends (h1.busy.trans hb) (61 - 1 - s.w.tsample.toNat)) (fun _ h => h.after h1)
    fun _ t ht ⟨hpads', hsame, _⟩ => ?_
  have hran : Ran (61 * s.cyclesPerUs) (slotEvents s.cyclesPerUs s.now true).reverse s t := by
    refine (h1.trans ht).of_eq ?_ rfl
    have hslot : 1 + s.w.tsample.toNat + (61 - 1 - s.w.tsample.toNat) = 61 := by omega
    rw [h1.cyclesPerUs, h0.cyclesPerUs]
    refine Eq.trans ?_ (congrArg (· * s.cyclesPerUs) hslot)
    ring
  exact ⟨hran, rfl, .of_slot hc hran (hpads'.trans hpads) (hsame.trans henv') hat' hanswers⟩

/-! ### The command byte -/

/-- The last of the bits a ROM command begins with completes the byte. -/
theorem setByteBit_eq {v byte : Byte} (h : ∀ j < 7, byte.getLsbD j = v.getLsbD j) :
    setByteBit byte 7 (v.getLsbD 7) = v := by
  apply BitVec.eq_of_getLsbD_eq
  intro j hj
  rw [setByteBit_getLsbD _ _ _ _ (by decide)]
  split
  · next h7 => rw [h7]
  · exact h j (by omega)

/-- The bits of the ROM command `v` from bit `i` on, the devices having received those below
(20_memory.md R86 (a)). -/
theorem txBits_between (v : Byte) (k : Nat) : ∀ {s : State} (i : Nat) (byte : Byte),
    s.status.busy = true → 1 ≤ s.cyclesPerUs → i + (k + 1) = 8 →
    (∀ j < i, byte.getLsbD j = v.getLsbD j) → BetweenSlots s roms alive (.command i byte) →
    (txBits v (List.range' i (k + 1))).Ends s
      (fun _ t => Did s t ∧ BetweenSlots t roms alive (commandPhase 7 v)) (CutShort s) := by
  induction k with
  | zero =>
    intro s i byte hb hc hi hbyte h
    obtain rfl : i = 7 := by omega
    refine ends_then (writeSlot_between hb hc h fun d hr hat r =>
      afterSlot_command hat hr _ _ _ _) (fun _ h => h) fun _ t hran ht => ?_
    rw [setByteBit_eq hbyte] at ht
    exact ⟨hran.did, ht⟩
  | succ k ih =>
    intro s i byte hb hc hi hbyte h
    rw [List.range'_succ, txBits]
    refine ends_then (writeSlot_between hb hc h fun d hr hat r =>
      afterSlot_command hat hr _ _ _ _) (fun _ h => h) fun _ t hran ht => ?_
    rw [commandPhase, if_pos (by omega)] at ht
    refine (ih (i + 1) _ (hran.busy.trans hb) (by rw [hran.cyclesPerUs]; exact hc) (by omega)
      (fun j hj => ?_) ht).mono (fun _ u ⟨hd, hu⟩ => ⟨hran.did.trans hd, hu⟩) fun _ h => h.after hran
    rw [setByteBit_getLsbD _ _ _ _ (by omega)]
    split
    · next hji => rw [hji]
    · exact hbyte j (by omega)

theorem txByte_between (v : Byte) (hb : s.status.busy = true) (hc : 1 ≤ s.cyclesPerUs)
    (h : BetweenSlots s roms alive (.command 0 0#8)) : (txByte v).Ends s
      (fun _ t => Did s t ∧ BetweenSlots t roms alive (commandPhase 7 v)) (CutShort s) := by
  rw [txByte, ends_bind, ends_change]
  have hd := setShift_did s v
  exact (txBits_between v 7 (s := s.setShift v) 0 0#8 hb hc rfl (fun j hj => absurd hj (by omega))
    ⟨h.released, h.notPulled, h.bus⟩).mono (fun _ t ⟨hdt, ht⟩ => ⟨hd.trans hdt, ht⟩)
    fun _ h => h.afterDid hd

/-! ### The devices that take part -/

/-- Two ROM codes have the same bits below position `n`. -/
def AgreeBelow (a b : RomCode) (n : Nat) : Prop := ∀ m, 1 ≤ m → m < n → romBit a m = romBit b m

/-- The devices that take part at position `n` of a pass with the directions `buf`: those that agree with it
below `n` (20_memory.md R86 (c)). -/
def participating (roms : List RomCode) (buf : RomCode) (n : Nat) : List RomCode :=
  roms.filter fun rom => (List.range' 1 (n - 1)).all fun m => romBit rom m == romBit buf m

theorem mem_participating {buf rom : RomCode} :
    rom ∈ participating roms buf n ↔ rom ∈ roms ∧ AgreeBelow rom buf n := by
  rw [participating, List.mem_filter, List.all_eq_true]
  refine and_congr_right fun _ => ⟨fun h m h1 hm => ?_, fun h m hm => ?_⟩
  · exact beq_iff_eq.1 (h m (List.mem_range'_1.2 ⟨h1, by omega⟩))
  · obtain ⟨h1, hlt⟩ := List.mem_range'_1.1 hm
    exact beq_iff_eq.2 (h m h1 (by omega))

theorem participating_one (roms : List RomCode) (buf : RomCode) : participating roms buf 1 = roms :=
  List.filter_eq_self.2 fun _ _ => rfl

theorem participating_succ (roms : List RomCode) (buf : RomCode) (h1 : 1 ≤ n) :
    participating roms buf (n + 1)
      = (participating roms buf n).filter (romBit · n == romBit buf n) := by
  obtain ⟨m, rfl⟩ := Nat.exists_eq_add_of_le' h1
  rw [participating, participating, List.filter_filter]
  refine List.filter_congr fun rom _ => ?_
  rw [Nat.add_sub_cancel, Nat.add_sub_cancel, List.range'_concat, List.all_append, Bool.and_comm]
  simp [Nat.add_comm]

theorem participating_congr {a b : RomCode} (h : AgreeBelow a b n) :
    participating roms a n = participating roms b n := by
  refine List.filter_congr fun rom _ => ?_
  rw [Bool.eq_iff_iff, List.all_eq_true, List.all_eq_true]
  refine forall₂_congr fun m hm => ?_
  obtain ⟨h1, hlt⟩ := List.mem_range'_1.1 hm
  rw [h m h1 (by omega)]

/-- The bits the devices give at position `n` of a pass with the directions `buf`, as one Boolean each
(20_memory.md R86 (b)). -/
def idBit (roms : List RomCode) (buf : RomCode) (n : Nat) : Bool :=
  Devices.wiredAnd (participating roms buf n) (romBit · n)

/-- The complement read after it. -/
def complementBit (roms : List RomCode) (buf : RomCode) (n : Nat) : Bool :=
  Devices.wiredAnd (participating roms buf n) (!romBit · n)

/-- With a device taking part the two bits are not both 1 (41_rom_search.md R158). -/
theorem idBit_complementBit_not_both {buf : RomCode} (h : participating roms buf n ≠ []) :
    ¬(idBit roms buf n = true ∧ complementBit roms buf n = true) := by
  rintro ⟨hid, hco⟩
  obtain ⟨rom, hrom⟩ := List.exists_mem_of_ne_nil _ h
  have h1 := List.all_eq_true.1 hid rom hrom
  have h0 := List.all_eq_true.1 hco rom hrom
  simp [h1] at h0

/-- Whatever the direction, some device goes on: at a discrepancy there is one for either
(41_rom_search.md R158). -/
theorem participating_succ_ne_nil {buf : RomCode} (h : participating roms buf n ≠ []) (h1 : 1 ≤ n)
    (hd : idBit roms buf n ≠ complementBit roms buf n → romBit buf n = idBit roms buf n) :
    participating roms buf (n + 1) ≠ [] := by
  rw [participating_succ _ _ h1]
  intro hnil
  have hflip : ∀ rom ∈ participating roms buf n, romBit rom n = !romBit buf n := fun rom hrom =>
    Bool.eq_not_of_ne (by simpa using List.filter_eq_nil_iff.1 hnil rom hrom)
  have hboth := idBit_complementBit_not_both h
  cases hbuf : romBit buf n with
  | false =>
    have hid : idBit roms buf n = true :=
      List.all_eq_true.2 fun rom hrom => by rw [hflip rom hrom, hbuf]; rfl
    have hco : complementBit roms buf n = false := by simpa [hid] using hboth
    rw [hid, hco, hbuf] at hd
    exact absurd (hd (by decide)) (by decide)
  | true =>
    have hco : complementBit roms buf n = true :=
      List.all_eq_true.2 fun rom hrom => by rw [hflip rom hrom, hbuf]; rfl
    have hid : idBit roms buf n = false := by simpa [hco] using hboth
    rw [hid, hco, hbuf] at hd
    exact absurd (hd (by decide)) (by decide)

/-- A direction changes nothing below its position. -/
theorem agreeBelow_setRomBit (buf : RomCode) (b : Bool) (h1 : 1 ≤ n) (hn : n ≤ 64) :
    AgreeBelow (setRomBit buf n b) buf n := fun m hm1 hm => by
  rw [romBit_setRomBit buf b h1 hn hm1 (by omega), if_neg (by omega)]

/-- The devices that go on after the direction `b` (20_memory.md R86 (c)). -/
theorem participating_setRomBit (roms : List RomCode) (buf : RomCode) (b : Bool) (h1 : 1 ≤ n)
    (hn : n ≤ 64) : participating roms (setRomBit buf n b) (n + 1)
      = (participating roms buf n).filter (romBit · n == b) := by
  rw [participating_succ _ _ h1, participating_congr (agreeBelow_setRomBit buf b h1 hn),
    romBit_setRomBit buf b h1 hn h1 hn, if_pos rfl]

/-! ### One position -/

/-- The working registers of a pass in `s` with the direction taken at position `n`, the devices `roms` being
on the bus (41_rom_search.md R146 to R149). -/
def State.directed (s : State) (ld : Nat) (roms : List RomCode) (n : Nat) : State :=
  s.noteDirection n (idBit roms s.w.buf n == complementBit roms s.w.buf n)
    (searchDirection (idBit roms s.w.buf n) (complementBit roms s.w.buf n) (romBit s.w.buf n) n ld)

/-- From `s` to `t` a pass came through position `n` on the devices `roms`. -/
structure Position (ld : Nat) (roms : List RomCode) (n : Nat) (s t : State) : Prop where
  did : Did s t
  bus : BetweenSlots t roms (participating roms t.w.buf (n + 1)) (positionPhase (n + 1))
  buf : t.w.buf = (s.directed ld roms n).w.buf
  lastZero : t.w.lastZero = (s.directed ld roms n).w.lastZero
  famZero : t.w.famZero = (s.directed ld roms n).w.famZero

/-- One position of a pass on the devices `roms`, of which one or more take part, then `rest`
(41_rom_search.md R144 to R149, R158). -/
theorem position_then {rest : Run Bool} {Q : Bool → State → Prop} (hb : s.status.busy = true)
    (hs : SamplesInSlot s) (h1 : 1 ≤ n) (hn : n ≤ 64)
    (h : BetweenSlots s roms (participating roms s.w.buf n) (.searchId n))
    (hsome : participating roms s.w.buf n ≠ [])
    (next : ∀ t, Position ld roms n s t → rest.Ends t Q (CutShort s)) :
    Run.Ends (do
      Run.change fun s => s.setPosition n
      let id ← readSlot
      let complement ← readSlot
      if id && complement then return false
      else
        let d := searchDirection id complement (romBit (← Run.state).w.buf n) n ld
        Run.change fun s => s.noteDirection n (id == complement) d
        writeSlot d
        rest) s Q (CutShort s) := by
  have h0 := setPosition_did s n
  rw [ends_bind, ends_change]
  refine ends_then (readSlot_between (s := s.setPosition n) hb (hs.of_did h0)
    ⟨h.released, h.notPulled, h.bus⟩ fun d hat r => afterSlot_searchId hat _ _ _ _)
    (fun _ h => h.afterDid h0) fun id t r1 ⟨hid, ht⟩ => ?_
  have h01 := h0.trans r1.did
  refine ends_then (readSlot_between (r1.busy.trans hb) (hs.of_did h01) ht
    fun d hat r => afterSlot_searchComplement hat _ _ _ _) (fun _ h => h.afterDid h01)
    fun co u r2 ⟨hco, hu⟩ => ?_
  have h02 := h01.trans r2.did
  obtain rfl : id = idBit roms s.w.buf n := hid
  obtain rfl : co = complementBit roms s.w.buf n := hco
  have hbuf : u.w.buf = s.w.buf := r2.w_buf.trans r1.w_buf
  have hnote := noteDirection_did u n (idBit roms s.w.buf n == complementBit roms s.w.buf n)
    (searchDirection (idBit roms s.w.buf n) (complementBit roms s.w.buf n) (romBit s.w.buf n) n ld)
  have h03 := h02.trans hnote
  rw [if_neg (by simpa using idBit_complementBit_not_both hsome), ends_bind, ends_state, hbuf,
    ends_bind, ends_change]
  refine ends_then (writeSlot_between (h03.busy hb) (hs.of_did h03).one_le_cyclesPerUs
    ⟨hu.released, hu.notPulled, hu.bus⟩ fun d hr hat r => afterSlot_searchDirection hat hr _ _ _ _)
    (fun _ h => h.afterDid h03) fun _ v r3 hv => ?_
  have hbuf' : v.w.buf = (s.directed ld roms n).w.buf := by
    rw [r3.w_buf, State.noteDirection_w, Working.noteDirection, hbuf]
    rfl
  refine next v ⟨h03.trans r3.did, ?bus, hbuf', ?last, ?fam⟩
  case bus =>
    rw [hbuf']
    exact (participating_setRomBit roms s.w.buf _ h1 hn).symm ▸ hv
  case last =>
    rw [r3.w_lastZero, State.noteDirection_w, Working.noteDirection, r2.w_lastZero, r1.w_lastZero]
    rfl
  case fam =>
    rw [r3.w_famZero, State.noteDirection_w, Working.noteDirection, r2.w_famZero, r1.w_famZero]
    rfl

/-! ### The positions of a pass -/

/-- The last-zero candidate after a direction (41_rom_search.md R148). -/
theorem noteDirection_lastZero (w : Working) (z b : Bool) (hn : n ≤ 64) :
    (z && !b) = true ∧ (w.noteDirection n z b).lastZero.toNat = n
      ∨ (z && !b) = false ∧ (w.noteDirection n z b).lastZero.toNat = w.lastZero.toNat := by
  rw [Working.noteDirection]
  cases z && !b with
  | false => exact .inr ⟨rfl, rfl⟩
  | true => exact .inl ⟨rfl, Nat.mod_eq_of_lt (by omega)⟩

/-- The same for the last-zero candidate of the family code (41_rom_search.md R148). -/
theorem noteDirection_famZero (w : Working) (z b : Bool) :
    (n ≤ 8 ∧ (z && !b) = true) ∧ (w.noteDirection n z b).famZero.toNat = n
      ∨ ¬(n ≤ 8 ∧ (z && !b) = true)
        ∧ (w.noteDirection n z b).famZero.toNat = w.famZero.toNat := by
  rw [Working.noteDirection]
  by_cases h : n ≤ 8 ∧ (z && !b) = true
  · refine .inl ⟨h, ?_⟩
    rw [h.2, decide_eq_true h.1]
    exact Nat.mod_eq_of_lt (by omega)
  · refine .inr ⟨h, ?_⟩
    have hno : ¬((z && !b) && decide (n ≤ 8)) = true := by
      rw [Bool.and_eq_true, decide_eq_true_iff]
      exact fun h' => h h'.symm
    exact congrArg BitVec.toNat (if_neg hno)

/-- The choices of a pass from those at its first position and those at the others. -/
theorem Chosen.cons {id co : Nat → Bool} (h1 : 1 ≤ n) (hn : n + k ≤ 64)
    (hboth : ¬(id n = true ∧ co n = true))
    (h : Chosen ld (n + 1) k id co (s.noteDirection n (id n == co n)
      (searchDirection (id n) (co n) (romBit s.w.buf n) n ld)) t) :
    Chosen ld n (k + 1) id co s t := by
  generalize hdir : searchDirection (id n) (co n) (romBit s.w.buf n) n ld = b at h
  have hset : ∀ m, 1 ≤ m → m ≤ 64 →
      romBit (s.noteDirection n (id n == co n) b).w.buf m = if m = n then b else romBit s.w.buf m :=
    fun m hm1 hm => romBit_setRomBit _ _ h1 (by omega) hm1 hm
  have hbit : romBit t.w.buf n = b := by
    rw [h.rest n h1 (by omega) (by omega), hset n h1 (by omega), if_pos rfl]
  have hzero : ((id n == co n) && !b) = true ↔ id n = co n ∧ romBit t.w.buf n = false := by
    rw [hbit, Bool.and_eq_true, beq_iff_eq, Bool.not_eq_true']
  refine ⟨fun m hm1 hm => ?_, fun m hm1 hm => ?_, fun m hm1 hm hout => ?_, ?_, ?_⟩
  · obtain rfl | hne := Nat.eq_or_lt_of_le hm1
    · exact hboth
    · exact h.notBoth m hne (by omega)
  · obtain rfl | hne := Nat.eq_or_lt_of_le hm1
    · rw [hbit, hdir]
    · rw [h.direction m hne (by omega), hset m (by omega) (by omega), if_neg (by omega)]
  · rw [h.rest m hm1 hm (by omega), hset m hm1 hm, if_neg (by omega)]
  · refine HighestFrom.cons ?_ h.lastZero
    obtain ⟨hz, hlast⟩ | ⟨hz, hlast⟩ := noteDirection_lastZero s.w (id n == co n) b (n := n) (by omega)
    · exact .inr ⟨hzero.1 hz, hlast⟩
    · exact .inl ⟨fun hp => ne_true_of_eq_false hz (hzero.2 hp), hlast⟩
  · refine HighestFrom.cons ?_ h.famZero
    obtain ⟨⟨h8, hz⟩, hlast⟩ | ⟨hz, hlast⟩ := noteDirection_famZero s.w (id n == co n) b (n := n)
    · exact .inr ⟨⟨h8, hzero.1 hz⟩, hlast⟩
    · exact .inl ⟨fun hp => hz ⟨hp.1, hzero.2 hp.2⟩, hlast⟩

/-- A position leaves the directions below it. -/
theorem Position.agreeBelow (h : Position ld roms n s t) (h1 : 1 ≤ n) (hn : n ≤ 64) :
    AgreeBelow t.w.buf s.w.buf n := by
  rw [h.buf]
  exact agreeBelow_setRomBit _ _ h1 hn

/-- Some device has the direction taken (41_rom_search.md R158). -/
theorem Position.some_participates (h : Position ld roms n s t) (h1 : 1 ≤ n) (hn : n ≤ 64)
    (hsome : participating roms s.w.buf n ≠ []) : participating roms t.w.buf (n + 1) ≠ [] := by
  have hsame := participating_congr (roms := roms) (h.agreeBelow h1 hn)
  have hbit : romBit t.w.buf n = searchDirection (idBit roms s.w.buf n) (complementBit roms s.w.buf n)
      (romBit s.w.buf n) n ld := by
    rw [h.buf]
    exact (romBit_setRomBit _ _ h1 hn h1 hn).trans (if_pos rfl)
  refine participating_succ_ne_nil (hsame ▸ hsome) h1 ?_
  rw [hbit, idBit, complementBit, hsame]
  exact fun hne => if_pos (bne_iff_ne.2 hne)

/-- A pass on the reference devices, from position `n` to the last: it is full, and some device has every
direction it took (41_rom_search.md R158 (d)). -/
theorem searchPass_devices (ld k : Nat) : ∀ {s : State} (n : Nat), s.status.busy = true →
    SamplesInSlot s → 1 ≤ n → n + k = 65 →
    BetweenSlots s roms (participating roms s.w.buf n) (positionPhase n) →
    participating roms s.w.buf n ≠ [] →
    (searchPass ld (List.range' n k)).Ends s
      (fun full t => Did s t ∧ full = true
        ∧ BetweenSlots t roms (participating roms t.w.buf 65) (positionPhase 65)
        ∧ participating roms t.w.buf 65 ≠ []
        ∧ Chosen ld n k (idBit roms t.w.buf) (complementBit roms t.w.buf) s t) (CutShort s) := by
  induction k with
  | zero =>
    intro s n _ _ _ hn h hsome
    obtain rfl : n = 65 := hn
    exact ⟨(Ran.refl s).did, rfl, h, hsome, chosen_none rfl rfl rfl⟩
  | succ k ih =>
    intro s n hb hs h1 hn h hsome
    rw [List.range'_succ, searchPass]
    rw [positionPhase, if_pos (by omega)] at h
    refine position_then hb hs h1 (by omega) h hsome fun t ht => ?_
    have hd := ht.did
    refine (ih (n + 1) (hd.busy hb) (hs.of_did hd) (by omega) (by omega) ht.bus
      (ht.some_participates h1 (by omega) hsome)).mono (fun full u hu => ?_) fun _ h => h.afterDid hd
    obtain ⟨hdu, hfull, hbus, hsome', hchosen⟩ := hu
    have hagree : AgreeBelow u.w.buf s.w.buf n := fun m hm1 hm =>
      (hchosen.rest m hm1 (by omega) (by omega)).trans (ht.agreeBelow h1 (by omega) m hm1 hm)
    have hsame := participating_congr (roms := roms) hagree
    have hid : idBit roms u.w.buf n = idBit roms s.w.buf n := by rw [idBit, hsame, idBit]
    have hco : complementBit roms u.w.buf n = complementBit roms s.w.buf n := by
      rw [complementBit, hsame, complementBit]
    refine ⟨hd.trans hdu, hfull, hbus, hsome', .cons h1 (by omega) ?_ ?_⟩
    · rw [hid, hco]
      exact idBit_complementBit_not_both hsome
    · rw [hid, hco]
      exact hchosen.of_start ht.buf.symm ht.lastZero.symm ht.famZero.symm

end Sys2Proof.Machine
end

section
/-! PROOF. SEARCH_NEXT on the reference devices (41_rom_search.md R158): the bus reset, the command byte and
the pass, one after the other, from a state of which `OnDevices` holds to another. -/

namespace Sys2Proof.Machine

variable {s t u : State} {roms alive : List RomCode} {phase : DevicePhase} {d : Devices} {c r : Nat}

/-! ### From acceptance to the command byte -/

/-- What the reset pulse leaves of the devices: all take part (20_memory.md R86 (a)). -/
theorem afterPulse_at (d : Devices) (c r : Nat) :
    (d.afterPulse c r).At d.roms d.roms (.command 0 0#8) := ⟨rfl, rfl, rfl, rfl⟩

theorem afterPulse_holdTo_le (d : Devices) (c r : Nat) : (d.afterPulse c r).holdTo ≤ r + 240 * c := by
  change (if d.roms.isEmpty then 0 else r + 240 * c) ≤ _
  split <;> omega

/-- What a passed calibration says of the latched TSAMPLE (43_control.md R181, R182 (d)). -/
theorem OnDevices.samplesInSlot (h : OnDevices s roms) (v : Word) : SamplesInSlot (s.acceptNow v) where
  afterRelease := h.passed.1.trans h.passed.2
  beforeEnd := h.offset.2

/-- The bus reset of a command accepted on the devices `roms` ends between two slots, all of them taking
part. -/
theorem OnDevices.busReset_then {f : ResetOutcome → Run ResultCode} {Q : ResultCode → State → Prop}
    (h : OnDevices s roms) (v : Word)
    (next : ∀ t, Did (s.acceptNow v) t → BetweenSlots t roms roms (.command 0 0#8) →
      (f ⟨!roms.isEmpty, false⟩).Ends t Q (CutShort (s.acceptNow v))) :
    Run.Ends (do tick; beginLine; let o ← busReset; f o) (s.acceptNow v) Q
      (CutShort (s.acceptNow v)) := by
  obtain ⟨d, henv, rfl, hlow, -⟩ := h.bus
  refine line_then_released rfl (congrArg Pads.pu h.released) fun u hu henv' => ?_
  have hc : 1 ≤ u.cyclesPerUs := ((h.samplesInSlot v).of_did hu.did).one_le_cyclesPerUs
  have hnow : u.now = s.now + 2 := hu.now
  have hidle : u.lineLevel (u.now - 2) = true := by
    rw [hnow, Nat.add_sub_cancel]
    exact h.high hu.wave henv'
  refine (ends_bind _ _).2 ((busReset_devices (hu.busy.trans rfl) hc (henv'.trans henv) hlow
    hidle).mono (fun o t ⟨ho, hpads, hran, henv''⟩ => ?_) fun _ hcut => hcut.after hu)
  subst ho
  have hto := afterPulse_holdTo_le d u.cyclesPerUs (u.now + 480 * u.cyclesPerUs)
  have hlast : u.now + 480 * u.cyclesPerUs < t.now := by
    rw [hran.now]
    omega
  refine next t (hu.did.trans hran.did) ⟨hpads, ?_, _, henv'', afterPulse_at d _ _, rfl, ?_⟩
  · rw [hran.wave]
    exact congrArg Pads.oeLow (if_pos hlast)
  · rw [hran.now]
    omega

/-! ### The state after a search -/

/-- After a command on the devices, its commit and its completion edge, `OnDevices` holds again. -/
theorem OnDevices.of_did {v : Word} (h : OnDevices s roms) (hd : Did (s.acceptNow v) u)
    (hu : BetweenSlots u roms alive phase) (q : Search) (w : Working) {st : Status}
    (hbusy : st.busy = false) (hcal : st.cal = u.status.cal) :
    OnDevices { u with search := q, w := w, status := st } roms := by
  obtain ⟨-, hts, hlat, -⟩ := hd.regs
  obtain ⟨-, -, -, -, -, hcfg, hcal', -⟩ := hd.stays
  have hcyc : u.cyclesPerUs = s.cyclesPerUs := congrArg (fun c : Config => c.clkPerUs.toNat) hcfg
  obtain ⟨d, henv, hat, -, hto⟩ := hu.bus
  have hreset := hd.awaitingReset
  obtain ⟨n, ev, hran⟩ := hd
  exact {
    wasReset := hreset.trans h.wasReset
    build := (congrArg Config.wf hcfg).trans h.build
    idle := hbusy
    calibrated := hcal.trans (hcal'.trans h.calibrated)
    offset := hts ▸ h.offset
    passed := by
      change _ < u.latency.toNat ∧ u.latency.toNat < u.tsample.toNat * u.cyclesPerUs
      rw [hlat, hts, hcyc]
      exact h.passed
    noHost := by
      change u.port = []
      rw [hran.port]
      exact congrArg (restCycles · n) h.noHost
    released := hu.released
    history := fun e he => by
      change e.edge ≤ u.now
      change e ∈ u.wave at he
      rw [hran.wave] at he
      obtain he | he := List.mem_append.1 he
      · exact (hran.edges e he).2
      · have hle := h.history e he
        have hnow : u.now = s.now + 1 + n := hran.now
        omega
    notPulled := hu.notPulled
    bus := ⟨d, henv, hat.roms, hat.lowSince, hto⟩ }

/-! ### The search -/

/-- What a SEARCH_NEXT on the devices `roms` makes of the search state `q`: the code of a device, by the
directions its answers give, and the candidates for the next pass (41_rom_search.md R144 to R151, R154). -/
structure SearchMoves (roms : List RomCode) (q q' : Search) : Prop where
  mem : q'.buf ∈ roms
  rule : ∀ n, 1 ≤ n → n ≤ 64 → DirectionRule (idBit roms q'.buf n) (complementBit roms q'.buf n)
    (romBit q.buf n) (romBit q'.buf n) n q.ld.toNat
  last : HighestOrZero (fun n => (idBit roms q'.buf n = false ∧ complementBit roms q'.buf n = false)
    ∧ romBit q'.buf n = false) 64 q'.ld.toNat
  term : q'.term = true ↔ q'.ld = 0#7

/-- The devices that take part to the end of a pass have the code it took (20_memory.md R86 (c)). -/
theorem mem_of_participating {buf : RomCode} (h : participating roms buf 65 ≠ []) : buf ∈ roms := by
  obtain ⟨rom, hrom⟩ := List.exists_mem_of_ne_nil _ h
  obtain ⟨hmem, hagree⟩ := mem_participating.1 hrom
  rwa [← rom_ext fun n h1 hn => hagree n h1 (by omega)]

/-- A commit after a full pass on the devices. -/
theorem searchMoves_commitPass {q : Search} (hmem : u.w.buf ∈ roms)
    (h : FullPass q (idBit roms u.w.buf) (complementBit roms u.w.buf) u.w) :
    SearchMoves roms q u.commitPass.search := by
  have hbuf : u.commitPass.search.buf = u.w.buf := romOf_split u.w.buf
  constructor
  · rwa [hbuf]
  · rw [hbuf]
    exact h.rule
  · rw [hbuf]
    exact h.last
  · exact decide_eq_true_iff

/-- Where `t` is after a SEARCH_NEXT accepted by the idle block `s` on the devices `roms`: it has found the
code of one of them, and is ready for the next command. -/
structure FoundDevice (s : State) (roms : List RomCode) (t : State) : Prop where
  result : t.status.result = .ok
  found : t.status.found = true
  moves : SearchMoves roms s.search t.search
  devices : OnDevices t roms

/-- The commit of a pass that ended on the code of a device, which passes the family and the CRC check
(41_rom_search.md R152 to R154). -/
theorem finishPass_devices {v : Word} {o : ResetOutcome} (h : OnDevices s roms) (hgood : GoodRoms roms)
    (hd : Did (s.acceptNow v) u) (hu : BetweenSlots u roms alive phase) (hmem : u.w.buf ∈ roms)
    (hpass : FullPass s.search (idBit roms u.w.buf) (complementBit roms u.w.buf) u.w)
    {R : State → Prop} :
    finishPass.Ends (u.recordReset o) (fun r t => FoundDevice s roms (t.complete r)) R := by
  refine (finishPass_ends _).mono (fun r t ht => ?_) fun _ h => h
  obtain ⟨-, hfam, -⟩ | ⟨-, -, hrom, -⟩ | ⟨rfl, -, -, rfl⟩ := ht
  · exact absurd hfam (hgood.family _ hmem)
  · exact absurd (hgood.valid _ hmem) (ne_true_of_eq_false hrom)
  · exact ⟨rfl, rfl, searchMoves_commitPass (u := (u.recordReset o).checkCrc) hmem
      ⟨hpass.rule, hpass.last, hpass.family⟩, h.of_did hd hu _ _ rfl rfl⟩

/-- SEARCH_NEXT on the devices `roms`, whatever the search state with TERM = 0. -/
theorem searchNext_devices (h : OnDevices s roms) (hsome : roms ≠ []) (hgood : GoodRoms roms)
    (hterm : s.search.term = false) :
    ∃ t, step (s.acceptNow (encode .searchNext)) = .next t ∧ FoundDevice s roms t := by
  rw [step_acceptNow .searchNext h.wasReset]
  have hs := h.samplesInSlot (encode .searchNext)
  refine searchNext_reaches_bus rfl (h.noReset _) h.calibrated hterm
    (h.busReset_then _ fun u hu hbus => ?_)
  have hpresence : (!roms.isEmpty) = true := by simpa using hsome
  rw [if_pos hpresence]
  refine did_then (txByte_between _ (hu.busy rfl) (hs.of_did hu).one_le_cyclesPerUs hbus)
    (fun _ h => h.afterDid hu) fun _ v hv hbusv => ?_
  have hstart := (hu.trans hv).trans (startPass_did v)
  obtain ⟨-, -, -, -, hsearch, -⟩ := (hu.trans hv).stays
  have hall := participating_one roms v.startPass.w.buf
  rw [ends_bind, ends_change, ends_bind, ends_state]
  refine did_then (searchPass_devices _ 64 (s := v.startPass) 1 (hstart.busy rfl)
    (hs.of_did hstart) le_rfl rfl ⟨hbusv.released, hbusv.notPulled, hall.symm ▸ hbusv.bus⟩
    (hall.symm ▸ hsome)) (fun _ h => h.afterDid hstart) fun full t ht hpass => ?_
  obtain ⟨rfl, hbust, hleft, hchosen⟩ := hpass
  rw [ends_bind, ends_change, if_pos rfl]
  refine finishPass_devices h hgood (hstart.trans ht) hbust (mem_of_participating hleft) ?_
  have hfull := hchosen.of_start (u := v.startPass) rfl rfl rfl
  exact hsearch ▸ hfull.fullPass (s := v)

end Sys2Proof.Machine

open Sys2Proof Sys2Proof.Machine

/-- Settles O47. -/
theorem searchFindsADeviceOfTheBus : Obligations.SearchFindsADeviceOfTheBus := by
  intro s roms h hsome hgood hterm
  obtain ⟨t, hstep, hfound⟩ := searchNext_devices h hsome hgood hterm
  exact ⟨t, hstep, hfound.result, hfound.moves.mem, hfound.devices⟩
end

section
/-! PROOF. The enumeration (41_rom_search.md R161, R162): a pass ends on the least code that comes after the
one the last pass found (`CodesLeft.least`), so that each takes the first of the codes that are left
(`CodesLeft.next`). -/

namespace Sys2Proof.Machine

variable {s t : State} {roms left : List RomCode} {a b buf rom : RomCode} {q q' : Search} {n v : Nat}

/-! ### The order of the codes -/

theorem AgreeBelow.symm (h : AgreeBelow a b n) : AgreeBelow b a n := fun m h1 hm => (h m h1 hm).symm

theorem AgreeBelow.trans {c : RomCode} (h : AgreeBelow a b n) (k : AgreeBelow b c n) :
    AgreeBelow a c n := fun m h1 hm => (h m h1 hm).trans (k m h1 hm)

theorem AgreeBelow.mono {m : Nat} (h : AgreeBelow a b n) (hm : m ≤ n) : AgreeBelow a b m :=
  fun i h1 hi => h i h1 (by omega)

theorem romBefore.trans {c : RomCode} (h : romBefore a b) (k : romBefore b c) : romBefore a c := by
  obtain ⟨n, h1, hn, han, hbn, hab⟩ := h
  obtain ⟨m, k1, km, hbm, hcm, hbc⟩ := k
  obtain hlt | rfl | hgt := Nat.lt_trichotomy n m
  · exact ⟨n, h1, hn, han, (hbc n h1 hlt) ▸ hbn, AgreeBelow.trans hab (AgreeBelow.mono hbc hlt.le)⟩
  · exact absurd hbn (ne_true_of_eq_false hbm)
  · exact ⟨m, k1, km, (hab m k1 hgt).trans hbm, hcm, AgreeBelow.trans (AgreeBelow.mono hab hgt.le) hbc⟩

theorem romBefore.ne (h : romBefore a b) : b ≠ a := by
  rintro rfl
  obtain ⟨n, -, -, h0, h1, -⟩ := h
  exact absurd h1 (ne_true_of_eq_false h0)

/-- Two codes that are not the same differ at a first position. -/
theorem exists_first_difference (h : a ≠ b) :
    ∃ n, 1 ≤ n ∧ n ≤ 64 ∧ AgreeBelow a b n ∧ romBit a n ≠ romBit b n := by
  have hex : ∃ n, 1 ≤ n ∧ n ≤ 64 ∧ romBit a n ≠ romBit b n := by
    by_contra hno
    exact h (rom_ext fun n h1 hn => by_contra fun hne => hno ⟨n, h1, hn, hne⟩)
  obtain ⟨h1, hn, hne⟩ := Nat.find_spec hex
  refine ⟨Nat.find hex, h1, hn, fun m hm1 hm => ?_, hne⟩
  exact by_contra fun hne' => Nat.find_min hex hm ⟨hm1, by omega, hne'⟩

/-! ### Discrepancies -/

/-- The devices that take part at position `n` of a pass with the directions `buf` differ there, so that it
reads back as `(0,0)` (41_rom_search.md R144). -/
def Discrepancy (roms : List RomCode) (buf : RomCode) (n : Nat) : Prop :=
  idBit roms buf n = false ∧ complementBit roms buf n = false

theorem discrepancy_of_bits (ha : a ∈ participating roms buf n) (hb : b ∈ participating roms buf n)
    (h0 : romBit a n = false) (h1 : romBit b n = true) : Discrepancy roms buf n :=
  ⟨List.all_eq_false.2 ⟨a, ha, by simp [h0]⟩, List.all_eq_false.2 ⟨b, hb, by simp [h1]⟩⟩

theorem discrepancy_of_ne (ha : a ∈ roms) (hb : b ∈ roms) (hagree : AgreeBelow a buf n)
    (hagree' : AgreeBelow b buf n) (hne : romBit a n ≠ romBit b n) : Discrepancy roms buf n := by
  have ha' := mem_participating.2 ⟨ha, hagree⟩
  have hb' := mem_participating.2 ⟨hb, hagree'⟩
  cases hbit : romBit a n with
  | false => exact discrepancy_of_bits ha' hb' hbit (by simpa [hbit] using hne)
  | true => exact discrepancy_of_bits hb' ha' (by simpa [hbit] using hne) hbit

/-- At a discrepancy some device that takes part has a 1. -/
theorem Discrepancy.exists_one (h : Discrepancy roms buf n) :
    ∃ rom ∈ roms, AgreeBelow rom buf n ∧ romBit rom n = true := by
  obtain ⟨rom, hrom, hbit⟩ := List.all_eq_false.1 h.2
  obtain ⟨hmem, hagree⟩ := mem_participating.1 hrom
  exact ⟨rom, hmem, hagree, by simpa using hbit⟩

/-- A code of the bus that comes after another differs from it at a discrepancy where that has 0. -/
theorem romBefore.discrepancy (h : romBefore buf rom) (hbuf : buf ∈ roms) (hrom : rom ∈ roms) :
    ∃ n, 1 ≤ n ∧ n ≤ 64 ∧ AgreeBelow rom buf n ∧ romBit rom n = true
      ∧ Discrepancy roms buf n ∧ romBit buf n = false := by
  obtain ⟨n, h1, hn, h0, hone, hagree⟩ := h
  exact ⟨n, h1, hn, AgreeBelow.symm hagree, hone, discrepancy_of_ne hbuf hrom (fun _ _ _ => rfl)
    (AgreeBelow.symm hagree) (by rw [h0, hone]; decide), h0⟩

/-! ### The candidate for the next pass -/

/-- `v` is the last discrepancy at which a pass that ended on `buf` chose 0 (41_rom_search.md R148, R150). -/
def LastZeroOf (roms : List RomCode) (buf : RomCode) (v : Nat) : Prop :=
  HighestOrZero (fun n => Discrepancy roms buf n ∧ romBit buf n = false) 64 v

/-- The last zero is 0 iff no code of the bus comes after `buf` (41_rom_search.md R151). -/
theorem LastZeroOf.eq_zero_iff (h : LastZeroOf roms buf v) (hbuf : buf ∈ roms) :
    v = 0 ↔ ∀ rom ∈ roms, ¬romBefore buf rom := by
  obtain ⟨hv, hnone⟩ := h
  refine ⟨fun hzero rom hrom hbefore => ?_, fun hlast => hv.resolve_right fun ⟨h1, hn, hdis, h0⟩ => ?_⟩
  · obtain ⟨n, h1, hn, -, -, hdis, h0⟩ := hbefore.discrepancy hbuf hrom
    exact hnone n (by omega) hn ⟨hdis, h0⟩
  · obtain ⟨rom, hrom, hagree, hone⟩ := hdis.exists_one
    exact hlast rom hrom ⟨v, h1, hn, h0, hone, hagree.symm⟩

/-- A pass that agrees with `rom` up to the last discrepancy of the pass before comes out before `rom`: above
it every discrepancy gets a 0 (41_rom_search.md R147). -/
theorem SearchMoves.before_of_agree (h : SearchMoves roms q q') (hrom : rom ∈ roms)
    (hne : rom ≠ q'.buf) (hagree : AgreeBelow rom q'.buf (q.ld.toNat + 1)) : romBefore q'.buf rom := by
  obtain ⟨n, h1, hn, hbelow, hdiff⟩ := exists_first_difference hne
  have habove : q.ld.toNat < n := by
    by_contra hle
    exact hdiff (hagree n h1 (by omega))
  have hdis := discrepancy_of_ne hrom h.mem hbelow (fun _ _ _ => rfl) hdiff
  have h0 : romBit q'.buf n = false := (h.rule n h1 hn).above hdis habove
  rw [h0] at hdiff
  exact ⟨n, h1, hn, h0, by simpa using hdiff, hbelow.symm⟩

/-- Below the last discrepancy a pass follows the one before (41_rom_search.md R147). -/
theorem SearchMoves.agreeBelow (h : SearchMoves roms q q') (hbuf : q.buf ∈ roms)
    (hld : q.ld.toNat ≤ 64) : AgreeBelow q.buf q'.buf q.ld.toNat := by
  intro m
  induction m using Nat.strong_induction_on with
  | _ m ih =>
    intro h1 hm
    by_contra hne
    have hdis := discrepancy_of_ne hbuf h.mem (fun i hi1 hi => ih i hi hi1 (by omega))
      (fun _ _ _ => rfl) hne
    exact hne ((h.rule m h1 (by omega)).below hdis hm).symm

/-- A pass after one that left a code: it takes the 1 at the last discrepancy, and comes out after the code
the pass before found, and before every other that does. -/
theorem SearchMoves.successor (h : SearchMoves roms q q') (hbuf : q.buf ∈ roms)
    (hlast : LastZeroOf roms q.buf q.ld.toNat) (hpos : q.ld.toNat ≠ 0) :
    romBefore q.buf q'.buf
      ∧ ∀ rom ∈ roms, romBefore q.buf rom → rom ≠ q'.buf → romBefore q'.buf rom := by
  obtain ⟨hld, hnone⟩ := hlast
  obtain ⟨h1, hle, hdis, h0⟩ := hld.resolve_left hpos
  have hbelow := h.agreeBelow hbuf hle
  have hone : romBit q'.buf q.ld.toNat = true := by
    obtain ⟨rom, hrom, hagree, hbit⟩ := hdis.exists_one
    have hdis' := discrepancy_of_ne hbuf hrom hbelow (hagree.trans hbelow) (by rw [h0, hbit]; decide)
    exact (h.rule _ h1 hle).here hdis' rfl
  refine ⟨⟨_, h1, hle, h0, hone, hbelow⟩, fun rom hrom hbefore hne => ?_⟩
  obtain ⟨m, hm1, hm, hagree, hbit, hdism, h0m⟩ := hbefore.discrepancy hbuf hrom
  have hmle : m ≤ q.ld.toNat := not_lt.1 fun hlt => hnone m hlt hm ⟨hdism, h0m⟩
  obtain hlt | heq := Nat.lt_or_eq_of_le hmle
  · exact ⟨m, hm1, hm, (hbelow m hm1 hlt) ▸ h0m, hbit, (hagree.trans (hbelow.mono hmle)).symm⟩
  · refine h.before_of_agree hrom hne fun i hi1 hi => ?_
    obtain hi' | rfl := Nat.lt_or_eq_of_le (Nat.le_of_lt_succ hi)
    · exact (hagree.trans (hbelow.mono hmle)) i hi1 (heq ▸ hi')
    · rw [hone, ← heq, hbit]

/-! ### The codes that are left -/

/-- With the search state `q` on the devices `roms` the codes `left` are still to be found: all of them from
the cleared state, else those after the code of the buffer (41_rom_search.md R161). -/
structure CodesLeft (roms : List RomCode) (q : Search) (left : List RomCode) : Prop where
  term : q.term = true ↔ left = []
  codes : (q = .cleared ∧ ∀ rom, rom ∈ left ↔ rom ∈ roms)
    ∨ (q.buf ∈ roms ∧ LastZeroOf roms q.buf q.ld.toNat
      ∧ ∀ rom, rom ∈ left ↔ rom ∈ roms ∧ romBefore q.buf rom)

/-- A pass ends on the first of the codes that are left. -/
theorem CodesLeft.least (h : CodesLeft roms q left) (hsome : left ≠ []) (hmoves : SearchMoves roms q q') :
    q'.buf ∈ left ∧ ∀ rom ∈ left, rom ≠ q'.buf → romBefore q'.buf rom := by
  obtain ⟨rfl, hleft⟩ | ⟨hbuf, hlast, hleft⟩ := h.codes
  · refine ⟨(hleft _).2 hmoves.mem, fun rom hrom hne =>
      hmoves.before_of_agree ((hleft rom).1 hrom) hne fun m h1 hm => ?_⟩
    exact absurd h1 (Nat.not_le.2 hm)
  · have hpos : q.ld.toNat ≠ 0 := fun hzero => by
      obtain ⟨rom, hrom⟩ := List.exists_mem_of_ne_nil _ hsome
      obtain ⟨hmem, hbefore⟩ := (hleft rom).1 hrom
      exact (hlast.eq_zero_iff hbuf).1 hzero rom hmem hbefore
    obtain ⟨hafter, hleast⟩ := hmoves.successor hbuf hlast hpos
    exact ⟨(hleft _).2 ⟨hmoves.mem, hafter⟩, fun rom hrom =>
      hleast rom ((hleft rom).1 hrom).1 ((hleft rom).1 hrom).2⟩

/-- Every code of the bus after one that was left was left too. -/
theorem CodesLeft.mem_of_before (h : CodesLeft roms q left) (ha : a ∈ left) (hb : b ∈ roms)
    (hab : romBefore a b) : b ∈ left := by
  obtain ⟨-, hleft⟩ | ⟨-, -, hleft⟩ := h.codes
  · exact (hleft b).2 hb
  · exact (hleft b).2 ⟨hb, ((hleft a).1 ha).2.trans hab⟩

theorem CodesLeft.subset (h : CodesLeft roms q left) (ha : a ∈ left) : a ∈ roms := by
  obtain ⟨-, hleft⟩ | ⟨-, -, hleft⟩ := h.codes
  · exact (hleft a).1 ha
  · exact ((hleft a).1 ha).1

/-- After a pass the codes that are left are those that were, without the one it found. -/
theorem CodesLeft.next (h : CodesLeft roms q left) (hsome : left ≠ []) (hdistinct : left.Nodup)
    (hmoves : SearchMoves roms q q') : CodesLeft roms q' (left.erase q'.buf) := by
  obtain ⟨hmem, hleast⟩ := h.least hsome hmoves
  have hleft : ∀ rom, rom ∈ left.erase q'.buf ↔ rom ∈ roms ∧ romBefore q'.buf rom := by
    intro rom
    rw [hdistinct.mem_erase_iff]
    exact ⟨fun ⟨hne, hrom⟩ => ⟨h.subset hrom, hleast rom hrom hne⟩,
      fun ⟨hrom, hbefore⟩ => ⟨hbefore.ne, h.mem_of_before hmem hrom hbefore⟩⟩
  have hlast : LastZeroOf roms q'.buf q'.ld.toNat := hmoves.last
  refine ⟨?_, .inr ⟨hmoves.mem, hlast, hleft⟩⟩
  rw [hmoves.term, ← BitVec.toNat_inj, BitVec.toNat_ofNat, Nat.zero_mod,
    hlast.eq_zero_iff hmoves.mem, List.eq_nil_iff_forall_not_mem]
  exact forall_congr' fun rom => by rw [hleft rom, not_and]

/-! ### The enumeration -/

theorem enumerate_succ (hstep : step (s.acceptNow (encode .searchNext)) = .next t)
    (hfound : t.status.found = true) :
    enumerate (n + 1) s = (t.search.buf :: (enumerate n t).1, (enumerate n t).2) := by
  rw [enumerate, hstep]
  simp only [hfound, if_true]

/-- As many passes as codes are left find just these, in ascending order (41_rom_search.md R161, R162). -/
theorem enumerate_codesLeft (hsome : roms ≠ []) (hgood : GoodRoms roms) (n : Nat) :
    ∀ {s : State} {left : List RomCode}, OnDevices s roms → left.length = n → left.Nodup →
      CodesLeft roms s.search left →
      (enumerate n s).1.Perm left ∧ (enumerate n s).1.Pairwise romBefore
        ∧ (enumerate n s).2.search.term = true ∧ OnDevices (enumerate n s).2 roms := by
  induction n with
  | zero =>
    intro s left h hlen _ hleft
    obtain rfl := List.eq_nil_of_length_eq_zero hlen
    exact ⟨.nil, .nil, hleft.term.2 rfl, h⟩
  | succ n ih =>
    intro s left h hlen hdistinct hleft
    have hne : left ≠ [] := List.ne_nil_of_length_eq_add_one hlen
    obtain ⟨t, hstep, ht⟩ := searchNext_devices h hsome hgood
      (Bool.eq_false_iff.2 fun hterm => hne (hleft.term.1 hterm))
    obtain ⟨hmem, hleast⟩ := hleft.least hne ht.moves
    obtain ⟨hperm, hsorted, hterm, hdevices⟩ := ih ht.devices
      (by rw [List.length_erase_of_mem hmem, hlen, Nat.add_sub_cancel])
      (hdistinct.erase _) (hleft.next hne hdistinct ht.moves)
    rw [enumerate_succ hstep ht.found]
    refine ⟨(hperm.cons _).trans (List.perm_cons_erase hmem).symm,
      List.pairwise_cons.2 ⟨fun rom hrom => ?_, hsorted⟩, hterm, hdevices⟩
    obtain ⟨hne', hrom'⟩ := hdistinct.mem_erase_iff.1 (hperm.mem_iff.1 hrom)
    exact hleast rom hrom' hne'

end Sys2Proof.Machine

open Sys2Proof Sys2Proof.Machine

/-- Settles O48: all codes are left in the cleared state, and none after as many passes. -/
theorem enumerationIsComplete : Obligations.EnumerationIsComplete := by
  intro s roms h hsome hgood hcleared
  have hleft : CodesLeft roms s.search roms :=
    ⟨by simp [hcleared, Search.cleared, hsome], .inl ⟨hcleared, fun _ => Iff.rfl⟩⟩
  obtain ⟨hperm, hsorted, hterm, hdevices⟩ :=
    enumerate_codesLeft hsome hgood roms.length h rfl hgood.distinct hleft
  refine ⟨hperm, hsorted, hterm, ?_⟩
  rw [step_acceptNow .searchNext hdevices.wasReset]
  obtain ⟨t, hexec, hresult, -⟩ := searchNext_exhausted rfl (hdevices.noReset _) hdevices.calibrated hterm
  exact ⟨t, hexec, hresult⟩
end

section
/-! PROOF. The CRC as a linear map (42_crc.md R165 to R173): the step with input 0 is linear (`crcStep_xor`),
a byte is XORed in and followed by eight such steps (`crcByte_eq_iterate`), and under 0x8C the step is
injective (`crcStep_injective`), so that no byte that differs is lost. -/

namespace Sys2Proof.Machine

variable {w : Nat} {poly : BitVec w}

/-! ### The bit step -/

/-- The bit step of a CRC register of any width (42_crc.md R165, R173). -/
def crcBit (poly crc : BitVec w) (b : Bool) : BitVec w :=
  if crc.getLsbD 0 ^^ b then (crc >>> 1) ^^^ poly else crc >>> 1

theorem crc8Bit_eq (crc : Byte) (b : Bool) : crc8Bit crc b = crcBit 0x8C#8 crc b := rfl

theorem crc16Bit_eq (poly crc : BitVec 16) (b : Bool) : crc16Bit poly crc b = crcBit poly crc b := rfl

/-- The bit that decides whether the polynomial comes in, as 42_crc.md R165 masks it out. -/
theorem mix_eq_one_iff (hw : 0 < w) (crc : BitVec w) (b : Bool) :
    (crc ^^^ (BitVec.ofBool b).setWidth w) &&& 1#w = 1#w ↔ (crc.getLsbD 0 ^^ b) = true := by
  have hbit : (crc ^^^ (BitVec.ofBool b).setWidth w).getLsbD 0 = (crc.getLsbD 0 ^^ b) := by
    simp [hw]
  rw [BitVec.and_one_eq_setWidth_ofBool_getLsbD, hbit]
  cases crc.getLsbD 0 ^^ b with
  | false => simpa using hw.ne'
  | true => simpa using BitVec.setWidth_ofNat_one_eq_ofNat_one_of_lt Nat.one_pos

/-- The bit step as 42_crc.md R165 and R173 write it. -/
theorem crcBit_eq_mix (hw : 0 < w) (crc : BitVec w) (b : Bool) : crcBit poly crc b =
    let mix := (crc ^^^ (BitVec.ofBool b).setWidth w) &&& 1#w
    if mix = 1#w then (crc >>> 1) ^^^ poly else crc >>> 1 := by
  simp only [crcBit, mix_eq_one_iff hw]

/-- The bit step is linear in the register and the input together. -/
theorem crcBit_xor (a c : BitVec w) (i j : Bool) :
    crcBit poly (a ^^^ c) (i ^^ j) = crcBit poly a i ^^^ crcBit poly c j := by
  have hbit : ((a ^^^ c).getLsbD 0 ^^ (i ^^ j)) = ((a.getLsbD 0 ^^ i) ^^ (c.getLsbD 0 ^^ j)) := by
    simp only [BitVec.getLsbD_xor, Bool.xor_assoc, Bool.xor_left_comm]
  simp only [crcBit, hbit, BitVec.ushiftRight_xor_distrib]
  have hcomm := BitVec.xor_comm poly (c >>> 1)
  cases a.getLsbD 0 ^^ i <;> cases c.getLsbD 0 ^^ j <;> simp [BitVec.xor_assoc, hcomm]

/-- A register whose lowest bit is the input is shifted, and nothing else. -/
theorem crcBit_self (x : BitVec w) : crcBit poly x (x.getLsbD 0) = x >>> 1 := by
  simp [crcBit]

/-! ### The step with input 0 -/

/-- The bit step with input 0. -/
abbrev crcStep (poly crc : BitVec w) : BitVec w := crcBit poly crc false

theorem crcStep_xor (a c : BitVec w) : crcStep poly (a ^^^ c) = crcStep poly a ^^^ crcStep poly c :=
  crcBit_xor a c false false

theorem crcStep_zero : crcStep poly 0#w = 0#w := by simp [crcBit]

theorem crcStep_iterate_zero (n : Nat) : (crcStep poly)^[n] 0#w = 0#w :=
  Function.iterate_fixed crcStep_zero n

theorem crcStep_iterate_xor (n : Nat) (a c : BitVec w) :
    (crcStep poly)^[n] (a ^^^ c) = (crcStep poly)^[n] a ^^^ (crcStep poly)^[n] c := by
  induction n generalizing a c with
  | zero => rfl
  | succ n ih => simp only [Function.iterate_succ_apply, crcStep_xor, ih]

/-- Under a polynomial with its highest bit set only 0 gives 0: that bit shows whether the polynomial came
in. -/
theorem eq_zero_of_crcStep (hpoly : poly.msb = true) {crc : BitVec w} (h : crcStep poly crc = 0#w) :
    crc = 0#w := by
  simp only [crcBit, Bool.xor_false] at h
  split at h
  · have hmsb := congrArg BitVec.msb h
    simp [hpoly] at hmsb
  · next hbit =>
    apply BitVec.eq_of_getLsbD_eq
    rintro (_ | i) _
    · simpa using hbit
    · simpa [Nat.add_comm] using congrArg (BitVec.getLsbD · i) h

theorem crcStep_injective (hpoly : poly.msb = true) : Function.Injective (crcStep poly) := by
  intro a c h
  refine BitVec.xor_eq_zero_iff.1 (eq_zero_of_crcStep hpoly ?_)
  rw [crcStep_xor, h, BitVec.xor_self]

/-! ### The byte step -/

/-- The byte step of a CRC register of any width (42_crc.md R166, R173). -/
def crcByte (poly crc : BitVec w) (v : Byte) : BitVec w :=
  byteBits.foldl (fun c i => crcBit poly c (v.getLsbD i)) crc

theorem crc8Byte_eq (crc v : Byte) : crc8Byte crc v = crcByte 0x8C#8 crc v := rfl

theorem crc16Byte_eq (poly crc : BitVec 16) (v : Byte) : crc16Byte poly crc v = crcByte poly crc v := rfl

/-- The bits of `x` one by one, or `x` at once: after `n` bits the two differ in the bits of `x` that are
still to come. -/
theorem foldl_crcBit_range (crc x : BitVec w) (n : Nat) :
    (List.range n).foldl (fun c i => crcBit poly c (x.getLsbD i)) crc
      = (crcStep poly)^[n] (crc ^^^ x) ^^^ (x >>> n) := by
  induction n with
  | zero => simp
  | succ n ih =>
    have hbit : x.getLsbD n = (false ^^ (x >>> n).getLsbD 0) := by simp
    rw [List.range_succ, List.foldl_append, ih, List.foldl_cons, List.foldl_nil, hbit, crcBit_xor,
      crcBit_self, Function.iterate_succ_apply', BitVec.shiftRight_add]

/-- The byte step is the byte XORed in, and eight steps with input 0 (42_crc.md R166, R173). -/
theorem crcByte_eq_iterate (hw : 8 ≤ w) (crc : BitVec w) (v : Byte) :
    crcByte poly crc v = (crcStep poly)^[8] (crc ^^^ v.setWidth w) := by
  have hbits : crcByte poly crc v
      = (List.range 8).foldl (fun c i => crcBit poly c ((v.setWidth w).getLsbD i)) crc := by
    have hbit : ∀ i < 8, (v.setWidth w).getLsbD i = v.getLsbD i := fun i hi => by
      simp [hi.trans_le hw]
    refine List.foldl_ext _ _ _ fun c i hi => ?_
    rw [hbit i (List.mem_range.1 hi)]
  rw [hbits, foldl_crcBit_range, setWidth_ushiftRight_self, BitVec.xor_zero]

/-! ### The 8-bit CRC -/

theorem crc8Byte_eq_iterate (crc v : Byte) :
    crc8Byte crc v = (crcStep 0x8C#8)^[8] (crc ^^^ v) := by
  rw [crc8Byte_eq, crcByte_eq_iterate le_rfl, BitVec.setWidth_eq]

theorem crc8Byte_xor (a c u v : Byte) :
    crc8Byte (a ^^^ c) (u ^^^ v) = crc8Byte a u ^^^ crc8Byte c v := by
  have hmix : (a ^^^ c) ^^^ (u ^^^ v) = (a ^^^ u) ^^^ (c ^^^ v) := by ac_rfl
  rw [crc8Byte_eq_iterate, hmix, crcStep_iterate_xor, ← crc8Byte_eq_iterate, ← crc8Byte_eq_iterate]

theorem crc8Step_injective : Function.Injective (crcStep 0x8C#8)^[8] :=
  (crcStep_injective (by decide)).iterate 8

/-- A byte fed into a CRC gives 0 iff the CRC is equal to it (42_crc.md R169). -/
theorem crc8Byte_eq_zero_iff (c v : Byte) : crc8Byte c v = 0#8 ↔ c = v := by
  rw [crc8Byte_eq_iterate, ← crcStep_iterate_zero (poly := 0x8C#8) 8, crc8Step_injective.eq_iff,
    BitVec.xor_eq_zero_iff]

theorem crc8Byte_inj_left {a c : Byte} (v : Byte) : crc8Byte a v = crc8Byte c v ↔ a = c := by
  rw [crc8Byte_eq_iterate, crc8Byte_eq_iterate, crc8Step_injective.eq_iff, BitVec.xor_left_inj]

theorem crc8Byte_inj_right (c : Byte) {u v : Byte} : crc8Byte c u = crc8Byte c v ↔ u = v := by
  rw [crc8Byte_eq_iterate, crc8Byte_eq_iterate, crc8Step_injective.eq_iff, BitVec.xor_right_inj]

/-- With one byte more a CRC is 0 iff that byte is the CRC so far (42_crc.md R169). -/
theorem crc8_append_eq_zero_iff (bs : List Byte) (v : Byte) : crc8 (bs ++ [v]) = 0#8 ↔ crc8 bs = v := by
  rw [crc8, List.foldl_append, List.foldl_cons, List.foldl_nil, crc8Byte_eq_zero_iff, crc8]

/-- `crc8` from any two seeds is linear (42_crc.md R170). -/
theorem foldl_crc8Byte_xor {as bs : List Byte} (h : as.length = bs.length) (a b : Byte) :
    (List.zipWith (· ^^^ ·) as bs).foldl crc8Byte (a ^^^ b)
      = as.foldl crc8Byte a ^^^ bs.foldl crc8Byte b := by
  induction as generalizing bs a b with
  | nil => rw [List.eq_nil_of_length_eq_zero h.symm]; rfl
  | cons x as ih =>
    obtain ⟨y, bs, rfl⟩ := List.exists_cons_of_length_eq_add_one h.symm
    rw [List.zipWith_cons_cons, List.foldl_cons, crc8Byte_xor, ih (Nat.succ.inj h), List.foldl_cons,
      List.foldl_cons]

/-- 42_crc.md R170. -/
theorem crc8_xor {as bs : List Byte} (h : as.length = bs.length) :
    crc8 (List.zipWith (· ^^^ ·) as bs) = crc8 as ^^^ crc8 bs := by
  simpa only [crc8, BitVec.xor_self] using foldl_crc8Byte_xor h 0#8 0#8

theorem foldl_crc8Byte_injective (bs : List Byte) :
    Function.Injective fun c => bs.foldl crc8Byte c := by
  induction bs with
  | nil => exact Function.injective_id
  | cons v bs ih => exact fun a c h => (crc8Byte_inj_left v).1 (ih h)

/-- Two inputs that differ in one byte have different CRCs. -/
theorem crc8_one_byte_inj (as bs : List Byte) {u v : Byte} :
    crc8 (as ++ u :: bs) = crc8 (as ++ v :: bs) ↔ u = v := by
  refine ⟨fun h => ?_, fun h => by rw [h]⟩
  simp only [crc8, List.foldl_append, List.foldl_cons] at h
  exact (crc8Byte_inj_right _).1 (foldl_crc8Byte_injective bs h)

theorem crc8_replicate_zero (n : Nat) : crc8 (List.replicate n 0#8) = 0#8 := by
  induction n with
  | zero => rfl
  | succ n ih => rw [List.replicate_succ', crc8_append_eq_zero_iff, ih]

theorem xor_bit_ne {i : Nat} (hi : i < 8) (b : Byte) : b ^^^ 1#8 <<< i ≠ b := by
  intro h
  have hset := congrArg (BitVec.getLsbD · i) h
  simp [hi] at hset

/-- Flipping one bit of the input changes the CRC (42_crc.md R170). -/
theorem crc8_flip_ne (as bs : List Byte) (b : Byte) {i : Nat} (hi : i < 8) :
    crc8 (as ++ (b ^^^ 1#8 <<< i) :: bs) ≠ crc8 (as ++ b :: bs) :=
  (crc8_one_byte_inj as bs).not.2 (xor_bit_ne hi b)

theorem crc8_modify_ne {bs : List Byte} {k i : Nat} (hk : k < bs.length) (hi : i < 8) :
    crc8 (bs.modify k (· ^^^ 1#8 <<< i)) ≠ crc8 bs := by
  have hflip := crc8_flip_ne (bs.take k) (bs.drop (k + 1)) bs[k] hi
  rwa [List.getElem_cons_drop, List.take_append_drop,
    ← List.modify_eq_take_cons_drop (f := (· ^^^ 1#8 <<< i)) hk] at hflip

end Sys2Proof.Machine

open Sys2Proof Sys2Proof.Machine

/-- Settles O33: the eighth byte gives 0 iff it is the CRC of the seven before it. -/
theorem validIffResidueZero : Obligations.ValidIffResidueZero := by
  have hvalid : ∀ r : RomCode, validRom r = true ↔ crc8 (romSerial r) = romByte r 7 := fun _ =>
    decide_eq_true_iff
  refine ⟨hvalid, fun r => ?_, fun c => (crc8Byte_eq_zero_iff c c).2 rfl⟩
  have hbytes : [0, 1, 2, 3, 4, 5, 6, 7].map (romByte r) = romSerial r ++ [romByte r 7] := rfl
  rw [hbytes, crc8_append_eq_zero_iff]
  exact hvalid r

/-- Settles O34: a list with one bit set is a list of zeros with one bit flipped. -/
theorem crcIsLinearAndSeesOneBit : Obligations.CrcIsLinearAndSeesOneBit := by
  refine ⟨fun _ _ h => crc8_xor h, fun m n i hi => ?_,
    fun as bs b i hi => crc8_flip_ne as bs b hi⟩
  have hflip := crc8_flip_ne (List.replicate m 0#8) (List.replicate n 0#8) 0#8 hi
  rwa [BitVec.zero_xor, ← List.replicate_succ, ← List.replicate_add, crc8_replicate_zero] at hflip

/-- Settles O52: each CRC is the one of any width, at its own. -/
theorem crcStepsFollowTheirRecurrences : Obligations.CrcStepsFollowTheirRecurrences := by
  refine ⟨fun crc b => ?bit8, fun crc v => ⟨rfl, crc8Byte_eq_iterate crc v⟩, fun poly crc b => ?bit16,
    fun poly crc v => ⟨rfl, ?byte16⟩, rfl, ?check⟩
  case bit8 => exact (crc8Bit_eq crc b).trans (crcBit_eq_mix (by decide) crc b)
  case bit16 => exact (crc16Bit_eq poly crc b).trans (crcBit_eq_mix (by decide) crc b)
  case byte16 => exact (crc16Byte_eq poly crc v).trans (crcByte_eq_iterate (by decide) crc v)
  case check => decide +kernel

/-- Settles O35: the value is evaluated, and the flips are those of `crc8_flip_ne`. -/
theorem theFixedValueX : Obligations.TheFixedValueX := by
  have hX : crc8 [0x10#8, 0#8, 0#8, 0#8, 0#8, 0#8, 0#8] = 0xFB#8 := by decide +kernel
  exact ⟨hX, fun k hk i hi => hX ▸ crc8_modify_ne hk hi⟩
end

section
/-! PROOF. The CRC commands (42_crc.md R168, R172): one cycle, then the accumulator advances by the byte
latched at acceptance. -/

namespace Sys2Proof.Machine

variable {s u : State} {n : Nat}

/-- A command that writes the CRC8 register leaves everything else as it was. -/
theorem Ran.untouched_advanceCrc8 {ev : List PadEvent} (h : Ran n ev s u) (r : ResultCode) :
    Untouched s { u.advanceCrc8.complete r with crc8 := s.crc8 } := by
  obtain ⟨h1, h2, h3, h4, h5, h6, -, hrest⟩ := h.untouched r
  exact ⟨h1, h2, h3, h4, h5, h6, rfl, hrest⟩

/-- A command that writes the CRC16 register leaves everything else as it was. -/
theorem Ran.untouched_advanceCrc16 {ev : List PadEvent} (h : Ran n ev s u) (r : ResultCode) :
    Untouched s { u.advanceCrc16.complete r with crc16 := s.crc16 } := by
  obtain ⟨h1, h2, h3, h4, h5, h6, h7, -, hrest⟩ := h.untouched r
  exact ⟨h1, h2, h3, h4, h5, h6, h7, rfl, hrest⟩

end Sys2Proof.Machine

open Sys2Proof Sys2Proof.Machine

/-- Settles O31. -/
theorem crc8AdvancesByOneByte : Obligations.Crc8AdvancesByOneByte := by
  intro s hb hn
  exact change_completes rfl hb hn (fun _ => rfl) fun t ht hquiet =>
    ⟨congrArg₂ crc8Byte ht.crc8 ht.w_data, ht.untouched_advanceCrc8 .ok, hquiet⟩

/-- Settles O32: the build is asked after the first cycle, which leaves it. -/
theorem crc16AdvancesByOneByte : Obligations.Crc16AdvancesByOneByte := by
  intro s hb hn hhas
  refine completes_of rfl hn (tick_then hb (fun _ h => h) fun t ht hpads henv => ?_)
  rw [ends_bind, ends_state, ht.cfg, hhas, if_pos rfl, ends_bind, ends_change, ends_pure]
  refine ⟨rfl, ht.now, ?_, ht.untouched_advanceCrc16 .ok, hpads, ht.wave, henv⟩
  change crc16Byte t.cfg.crc16Poly t.crc16 t.w.data = _
  rw [ht.cfg, ht.crc16, ht.w_data]
end

section
/-! PROOF. NOP, the refused commands and CALIBRATE (43_control.md): a command that answers at once changes
nothing (`quiet_completes`); the first CALIBRATE sends its pulse (`calibrationPulse_then`), measures
(`measure_then`) and commits. -/

namespace Sys2Proof.Machine

variable {α β : Type} {s t u : State} {n : Nat}

/-! ### Commands that do nothing -/

/-- A command whose pseudocode answers at the first edge, with no change, completes there and leaves
everything as it was (43_control.md R177, R186). -/
theorem quiet_completes {body : Run ResultCode} {i : Instr} {r : ResultCode}
    (hi : exec i s = command body s) (hb : s.status.busy = true) (hn : NoReset s)
    (h : ∀ t, Ran 1 [] s t → body.Ends t (fun x u => x = r ∧ u = t) (CutShort s)) :
    CompletesWith i s r 1 fun t => Untouched s t ∧ LineQuiet s t := by
  refine completes_of hi hn (tick_then hb (fun _ h => h) fun t ht hpads henv =>
    (h t ht).mono (fun x u hu => ?_) fun _ h => h)
  obtain ⟨rfl, rfl⟩ := hu
  exact ⟨rfl, ht.now, ht.untouched _, hpads, ht.wave, henv⟩

/-! ### The pulse of CALIBRATE -/

/-- The edge at which the pulse of a CALIBRATE accepted in `s` ends (43_control.md R178). -/
def State.releaseEdge (s : State) : Nat := s.firstEdge + s.cyclesPerUs

/-- The pad events of a CALIBRATE accepted in `s`: the end of a power hold, and a pulse of 1 µs
(43_control.md R178). -/
def State.calibrationEvents (s : State) : List PadEvent :=
  holdEndEvents s s.firstEdge ++ [⟨s.firstEdge, Pads.low⟩, ⟨s.releaseEdge, Pads.released⟩]

/-- `t` is right after the pulse of the CALIBRATE accepted in `s`, the counter empty. -/
structure WindowOpen (s t : State) : Prop where
  ran : CounterRan (1 + s.cyclesPerUs) s.calibrationEvents.reverse s t
  released : t.pads = Pads.released
  empty : t.w.cal = noLatency

/-- The end of the hold and the pulse, then `f` (43_control.md R178). -/
theorem calibrationPulse_then {f : Run β} {Q : β → State → Prop} (hb : s.status.busy = true)
    (h : Ran 1 [] s t) (hp : t.pads = s.pads)
    (next : ∀ u, WindowOpen s u → f.Ends u Q (CutShort s)) :
    (do beginLine; driveLow; waitUs Config.tW1l; release
        Run.change fun s => s.setCounter noLatency
        f : Run β).Ends t Q (CutShort s) := by
  refine ends_then (beginLine_ends t) (fun _ hcut => hcut.after h) fun _ a ha _ => ?_
  have hlow := (h.trans ha).trans (drive_ran a Pads.low)
  rw [ends_bind, driveLow, ends_drive]
  refine ends_then (waitUs_ends (hlow.busy.trans hb) Config.tW1l) (fun _ hcut => hcut.after hlow)
    fun _ b hpulse _ => ?_
  have hran := (hlow.trans hpulse).trans (drive_ran b Pads.released)
  rw [ends_bind, release, ends_drive, ends_bind, ends_change]
  have hfall : a.now = s.firstEdge := (h.trans ha).now
  have hrise : b.now = s.releaseEdge := by
    rw [(hlow.trans hpulse).now, hlow.cyclesPerUs, State.releaseEdge, State.firstEdge, Nat.one_mul,
      Nat.add_zero, Nat.add_zero, Nat.add_assoc]
  have hhold : holdEndEvents t t.now = holdEndEvents s s.firstEdge := by
    rw [holdEndEvents, holdEndEvents, hp, h.now, State.firstEdge]
  refine next _ ⟨(Ran.setCounter hran noLatency).of_eq ?cycles ?events, rfl, rfl⟩
  case cycles =>
    rw [hlow.cyclesPerUs, Nat.one_mul]
    rfl
  case events =>
    rw [hfall, hrise, hhold, State.calibrationEvents, List.reverse_append, holdEndEvents_reverse,
      List.append_nil]
    rfl

/-! ### The measurement of CALIBRATE -/

/-- `u` is right after the measurement of the CALIBRATE accepted in `s`, its outcome in the counter
(43_control.md R180, R182). -/
structure Measured (s u : State) : Prop where
  ran : CounterRan (1 + 61 * s.cyclesPerUs) s.calibrationEvents.reverse s u
  released : u.pads = Pads.released
  counter : u.w.cal = noLatency ∨ (1 ≤ u.w.cal.toNat ∧ u.w.cal.toNat ≤ 60 * s.cyclesPerUs)
  synced : s.cfg.wf = true → 3 ≤ u.w.cal.toNat
  /-- On a passive bus it is the first sample that reads high. -/
  first : s.env.passive = true →
    (u.w.cal ≠ noLatency → u.lineLevel (s.releaseEdge + u.w.cal.toNat - 2) = true)
    ∧ ∀ j, 1 ≤ j → j ≤ 60 * s.cyclesPerUs → j < u.w.cal.toNat →
      u.lineLevel (s.releaseEdge + j - 2) = false

/-- What two lemmas say of one piece of a command holds together. -/
theorem Run.Ends.and {m : Run α} {Q Q' : α → State → Prop} {R : State → Prop} (h : m.Ends s Q R)
    (h' : m.Ends s Q' R) : m.Ends s (fun a t => Q a t ∧ Q' a t) R := by
  unfold Run.Ends at *
  cases hm : m s with
  | ok a t => rw [hm] at h h'; exact ⟨h, h'⟩
  | error e t => rw [hm] at h; exact h

/-- The measurement window of CALIBRATE, then `f`. -/
theorem measure_then {f : Run β} {Q : β → State → Prop} (hb : s.status.busy = true)
    (h : WindowOpen s t) (next : ∀ u, Measured s u → f.Ends u Q (CutShort s)) :
    (do measure (60 * s.cyclesPerUs) 1; f : Run β).Ends t Q (CutShort s) := by
  obtain ⟨hran, hpads, hempty⟩ := h
  have hbt : t.status.busy = true := hran.busy.trans hb
  have hnow : t.now = s.releaseEdge := hran.now.trans (Nat.add_assoc _ _ _).symm
  have hclock : s.cyclesPerUs < 256 := s.cfg.clkPerUs.isLt
  have hlast : 1 + 60 * s.cyclesPerUs ≤ 0xFFFF := by omega
  have hwave : t.wave = ⟨t.now, Pads.released⟩ :: ⟨s.firstEdge, Pads.low⟩
      :: ((holdEndEvents s s.firstEdge).reverse ++ s.wave) := by
    rw [hran.wave, hnow, State.calibrationEvents, List.reverse_append]
    rfl
  refine (ends_bind _ _).2 (((measure_ends _ 1 hbt le_rfl hlast).and
    (measure_did hbt hempty hlast hnow hwave)).mono (fun _ u hu => next u ?_)
    fun _ hcut => hcut.afterCounter hran)
  obtain ⟨⟨hpads', hran', -, hmeasured⟩, -, -, hsynced⟩ := hu
  obtain ⟨hcounter, hfirst⟩ := hmeasured hempty
  rw [hnow] at hfirst
  refine ⟨(counterRan_trans hran hran').of_eq (by ring) rfl, hpads'.trans hpads, ?counter, ?synced,
    fun hpassive => ?first⟩
  case counter => exact hcounter.imp_right fun ⟨hlow, hhigh, _⟩ => ⟨hlow, by omega⟩
  case synced =>
    intro hwf
    simp only [Config.wf, Bool.and_eq_true, decide_eq_true_eq] at hwf
    obtain ⟨⟨hclk, -⟩, -⟩ := hwf
    exact hsynced hclk
  case first =>
    obtain ⟨hrose, hbefore⟩ := hfirst ((congrArg BusEnv.passive (hran.passive hpassive)).trans hpassive)
    have hedge : ∀ j, 1 ≤ j → s.releaseEdge + j - 2 = s.releaseEdge + 1 + (j - 1) - 2 := by omega
    refine ⟨fun hne => ?_, fun j hj hj' hlt => ?_⟩
    · obtain ⟨hpos, -⟩ := hcounter.resolve_left hne
      rw [hedge _ hpos]
      exact hrose hne
    · rw [hedge j hj]
      exact hbefore j hj (by omega) hlt

/-- CALIBRATE writes LATENCY, CAL and CALERR alone (10_state.md R39, R46). -/
theorem Ran.untouched_commitCalibration {ev : List PadEvent} (h : CounterRan n ev s u)
    (hcal : s.status.cal = false) (hcalerr : s.status.calerr = false) (pass : Bool) (r : ResultCode) :
    let t := (u.commitCalibration pass).complete r
    Untouched s { t with
      latency := s.latency, status := { t.status with cal := false, calerr := false } } := by
  obtain ⟨h1, h2, -, h4, h5, h6, h7, h8, h9, h10, h11, -, -, h14, h15⟩ := Ran.untouched h r
  cases pass <;>
    exact ⟨h1, h2, rfl, h4, h5, h6, h7, h8, h9, h10, h11, hcal.symm, hcalerr.symm, h14, h15⟩

end Sys2Proof.Machine

open Sys2Proof Sys2Proof.Machine

/-- Settles O43: `calibrationPulse_then`, `measure_then`, and the commit of LATENCY, CAL and CALERR. -/
theorem calibrateMeasuresTheLatency : Obligations.CalibrateMeasuresTheLatency := by
  intro s hb hn hcal hcalerr
  refine exec_completes_in rfl hn (tick_then hb (fun _ h => h) fun t ht hpads _ => ?_)
  rw [ends_bind, ends_state, ht.cal, ht.calerr, ht.cyclesPerUs, hcal, hcalerr, if_neg (by decide)]
  refine calibrationPulse_then hb ht hpads fun v hv => measure_then hb hv fun u hu => ?_
  rw [ends_bind, ends_state, ends_bind, ends_change, ends_pure]
  obtain ⟨hran, hreleased, hcounter, hsynced, hfirst⟩ := hu
  refine ⟨rfl, rfl, hran.now.trans (Nat.add_assoc _ _ _).symm, hreleased, hran.wave, ?_,
    hcounter, hsynced, hfirst, hran.untouched_commitCalibration hcal hcalerr _ _⟩
  rw [show u.w.tsample = s.w.tsample from hran.w_tsample,
    show u.cyclesPerUs = s.cyclesPerUs from hran.cyclesPerUs]
  by_cases hpass : u.w.cal.toNat < s.w.tsample.toNat * s.cyclesPerUs
  · rw [decide_eq_true hpass]
    exact (if_pos hpass).mpr ⟨rfl, rfl, hran.calerr.trans hcalerr⟩
  · rw [decide_eq_false hpass]
    exact (if_neg hpass).mpr ⟨rfl, hran.cal.trans hcal, rfl⟩

/-- Settles O26: what the block asks, its build or its calibration, is as it was at acceptance. -/
theorem illegalCommandsDoNothing : Obligations.IllegalCommandsDoNothing := by
  intro s hb hn
  refine ⟨quiet_completes (body := return .illegalCmd) rfl hb hn fun _ _ => ⟨rfl, rfl⟩,
    fun hno => quiet_completes rfl hb hn fun t ht => ?crc16,
    fun hrun => quiet_completes rfl hb hn fun t ht => ?calibrate⟩
  case crc16 =>
    rw [ends_bind, ends_state, ht.cfg, hno, if_neg Bool.false_ne_true]
    exact ⟨rfl, rfl⟩
  case calibrate =>
    rw [ends_bind, ends_state, ht.cal, ht.calerr, if_pos (Bool.or_eq_true_iff.2 hrun)]
    exact ⟨rfl, rfl⟩

/-- Settles O28: the pseudocode of NOP is its answer. -/
theorem nopCompletesAndChangesNothing : Obligations.NopCompletesAndChangesNothing := by
  intro s hb hn
  exact quiet_completes (body := return .ok) rfl hb hn fun _ _ => ⟨rfl, rfl⟩
end

section
/-! PROOF. Nothing stops the machine (60_exceptions.md §1): every way a step can end takes time and leaves
the build, and a command ends at its completion edge or at the reset edge that cuts it short. -/

namespace Sys2Proof.Machine

variable {i : Instr} {s t : State}

/-- `t` lies at a later clock edge than `s`, in a block of the same build. -/
structure Advances (s t : State) : Prop where
  later : s.now < t.now
  cfg : t.cfg = s.cfg

/-! ### A command -/

theorem CutShort.advances (h : CutShort s t) : Advances s t where
  later := h.later
  cfg := (congrArg State.cfg h.frame :)

/-- The commit and the completion edge leave the clock and the build as the run has left them. -/
theorem Effect.complete_advances {u v : State} {r : ResultCode} (hu : Began s u)
    (he : Effect s u i r v) : Advances s (v.complete r) := by
  obtain ⟨hdid, hlater⟩ := hu
  obtain ⟨-, -, -, -, -, hcfg, -⟩ := hdid.stays
  obtain ⟨-, -, -, hcfg', -, -, hnow, -⟩ := he.stays
  exact ⟨hnow ▸ hlater, hcfg'.trans hcfg⟩

/-- Every command answers, and later (60_exceptions.md R188). -/
theorem exec_advances (i : Instr) (hb : s.status.busy = true) :
    ∃ t, exec i s = .next t ∧ Advances s t := by
  obtain ⟨t, ht, hcut | ⟨u, v, r, hu, he, rfl⟩⟩ := exec_effect i hb
  · exact ⟨t, ht, hcut.advances⟩
  · exact ⟨_, ht, he.complete_advances hu⟩

/-- No pad event is forgotten by the time a command completes. -/
theorem Effect.complete_wave {u v : State} {r : ResultCode} (hu : Began s u)
    (he : Effect s u i r v) : s.wave <:+ (v.complete r).wave := by
  obtain ⟨-, -, -, -, -, -, -, -, -, -, hgrown, -⟩ := hu.1.regs
  obtain ⟨-, -, -, -, -, hwave, -⟩ := he.stays
  exact hwave ▸ hgrown

/-- At a completion edge only IE decides on `irq` (10_state.md R64, 20_memory.md R78). -/
theorem complete_irq (s : State) (r : ResultCode) : (s.complete r).irq = (s.complete r).ie :=
  Bool.true_and _

/-- A command cut short leaves the reset values, whatever is asked of the working registers. -/
theorem CutShort.frame_but_working (h : CutShort s t) : t = { State.resetFor s.cfg with
    w := t.w, now := t.now, wave := t.wave, port := t.port, reads := t.reads, env := t.env } := by
  have hw : t.w = (State.resetFor s.cfg).w := (congrArg State.w h.frame :)
  rw [hw]
  exact h.frame

/-! ### A block no command runs in -/

theorem UnresetEffect.advances (h : UnresetEffect s t) : Advances s t := by
  cases h with
  | unspecified u hcfg hnow _ | reset u hcfg hnow _ => exact ⟨hnow ▸ Nat.lt_succ_self _, hcfg⟩

theorem IdleEffect.advances (h : IdleEffect s t) : Advances s t := by
  cases h with
  | quiet n port hn _ | reset n port reads hn _ => exact ⟨Nat.lt_add_of_pos_right hn, rfl⟩
  | access n port a hn _ =>
    obtain ⟨hcfg, hnow, -⟩ := hostAccess_keeps (s.after n port) a
    exact ⟨hnow ▸ Nat.lt_add_of_pos_right hn, hcfg⟩

theorem step_unreset (hr : s.awaitingReset = true) : step s = .next s.unresetEdge :=
  if_pos hr

/-- Each of the three branches of `step` answers, and later. -/
theorem step_advances (s : State) : ∃ t, step s = .next t ∧ Advances s t := by
  cases hr : s.awaitingReset with
  | true => exact ⟨_, step_unreset hr, (unreset_effect s).advances⟩
  | false =>
    cases hb : s.status.busy with
    | true => rw [step_busy hr hb]; exact exec_advances s.fetch hb
    | false => exact ⟨_, step_idle hr hb, (idle_effect s).advances⟩

end Sys2Proof.Machine

open Sys2Proof Sys2Proof.Machine

/-- Settles O14. -/
theorem everyStepAnswersANextState : Obligations.EveryStepAnswersANextState := by
  intro s
  obtain ⟨t, ht, hlater, hcfg⟩ := step_advances s
  exact ⟨t, ht, hlater, hcfg⟩

/-- Settles O15: the two ends of a command that `exec_effect` names. -/
theorem everyCommandCompletesOrIsResetAway : Obligations.EveryCommandCompletesOrIsResetAway := by
  intro i s hb
  obtain ⟨t, ht, hadv⟩ := exec_advances i hb
  refine ⟨t, ht, hadv.later, ?ends⟩
  rcases exec_ends hb ht with hcut | ⟨u, v, r, hu, he, rfl⟩
  · exact .inr ⟨hcut.asked, hcut.frame_but_working, hcut.released⟩
  · exact .inl ⟨rfl, rfl, complete_irq v r, he.complete_wave hu⟩
end

section
/-! PROOF. Reset (70_reset_and_hazards.md §1) and the block at rest (§4): a command is held against itself
without the first reset edge (`Piece.cuttable`), and the edges before and at the first reset edge after
power-up are `State.unspecified` and `State.portEdge`. -/

namespace Sys2Proof.Machine

variable {s t : State}

/-! ### A command and the first reset edge -/

/-- A command that reaches its completion edge in `u` without the first reset reaches it in `t` with it,
before that reset edge. -/
structure CompletesFirst (s u t : State) : Prop where
  earlier : ∀ e access rest, firstReset s.port s.now = some (e, access, rest) → u.now < e
  eq : t = { u with port := restCycles s.port (u.now - s.now) }

/-- A command that reaches its completion edge in `u` without the first reset ends in `t` at that reset
edge, which carries `access` (70_reset_and_hazards.md R207, R208). -/
structure ResetFirst (s u t : State) (access : Option Access) : Prop where
  first : firstReset s.port s.now = some (t.now, access, t.port)
  notLater : t.now ≤ u.now
  frame : t = { State.resetFor s.cfg with
    w := t.w, now := t.now, wave := t.wave, port := t.port, reads := t.reads, env := t.env }
  wave : ∃ before later, t.wave = ⟨t.now, Pads.released⟩ :: (before ++ s.wave)
    ∧ u.wave = later ++ (before ++ s.wave)
    ∧ (∀ x ∈ before, x.edge < t.now) ∧ ∀ x ∈ later, t.now ≤ x.edge
  reads : ∃ last, t.reads = last ++ u.reads ∧ last.map ReadAnswer.asked = askedAt access t.now

theorem command_of_ok {body : Run ResultCode} {r : ResultCode}
    (h : (do tick; body : Run ResultCode) s = .ok r t) : command body s = .next (t.complete r) := by
  rw [command, runCommand, h]

theorem command_of_error {body : Run ResultCode} {x : Aborted}
    (h : (do tick; body : Run ResultCode) s = .error x t) : command body s = .next t := by
  rw [command, runCommand, h]

/-- Only a completion edge sets DONE: a command that ends with DONE clear has been cut short. -/
theorem exec_cutShort {i : Instr} (hb : s.status.busy = true) (h : exec i s = .next t)
    (hdone : t.status.done = false) : CutShort s t := by
  rcases exec_ends hb h with hcut | ⟨u, v, r, -, -, rfl⟩
  · exact hcut
  · cases hdone

/-- Without the first reset edge a command completes; with it, it completes earlier, or ends there. -/
theorem exec_completes_or_reset_first (i : Instr) (hb : s.status.busy = true) :
    ∃ u t, exec i s.untilReset = .next u ∧ u.status.busy = false ∧ u.status.done = true
      ∧ exec i s = .next t ∧ (CompletesFirst s u t ∨ ∃ access, ResetFirst s u t access) := by
  obtain ⟨body, hbody, hexec⟩ := exec_piece i
  rcases (Piece.bind piece_tick fun _ => hbody).cuttable s hb with hfinishes | hcut
  · obtain ⟨r, t, n, -, hrun, hrun', -, hnow, hport, hfirst, -⟩ := hfinishes
    have hrest : restCycles s.port (t.now - s.now) = t.port := by
      rw [hport, hnow, Nat.add_sub_cancel_left]
    exact ⟨t.untilReset.complete r, t.complete r, (hexec _).trans (command_of_ok hrun'), rfl, rfl,
      (hexec _).trans (command_of_ok hrun), .inl
        { earlier := fun _ _ _ he => firstReset_later (hfirst.symm.trans he)
          eq := congrArg (fun port => { t.complete r with port := port }) hrest.symm }⟩
  · obtain ⟨_, t, r, u, access, before, later, hrun, hrun', -, -, hfirst, hle, hwave, hwave', hbefore,
      hlater, last, hreads, hasked, hdone⟩ := hcut
    have ht : exec i s = .next t := (hexec _).trans (command_of_error hrun)
    exact ⟨u.complete r, t, (hexec _).trans (command_of_ok hrun'), rfl, rfl, ht, .inr ⟨access,
      { first := hfirst
        notLater := hle
        frame := (exec_cutShort hb ht hdone).frame_but_working
        wave := ⟨before, later, hwave, hwave', hbefore, hlater⟩
        reads := ⟨last, hreads, hasked⟩ }⟩⟩

/-! ### Port cycles and the clock edges of a block that awaits its first reset edge -/

theorem AccessEffect.wave (h : AccessEffect s t) : t.wave = s.wave := by
  cases h <;> rfl

/-- A host access makes no pad event, busy or not. -/
theorem hostAccess_wave (s : State) (a : Access) : (s.hostAccess a).wave = s.wave := by
  cases hb : s.status.busy with
  | true => exact (congrArg State.wave (hostAccess_busy hb a).1 :)
  | false => exact (access_effect hb a).wave

/-- A reset edge leaves the clock and the port cycles to come. -/
theorem portEdge_reset_keeps {c : PortCycle} (s : State) (hc : c.rst = true) :
    (s.portEdge c).now = s.now ∧ (s.portEdge c).port = s.port := by
  rw [State.portEdge, if_pos hc]
  rcases c.access with _ | ⟨_ | _⟩ <;> exact ⟨rfl, rfl⟩

/-- `t` lies at the clock edge after `s`, in a block of the same build that has seen neither a pad event
nor a reset edge since. -/
structure NextEdge (s t : State) : Prop where
  now : t.now = s.now + 1
  cfg : t.cfg = s.cfg
  wave : t.wave = s.wave
  awaitingReset : t.awaitingReset = s.awaitingReset

/-- What the host does in a cycle with `rst_n` high. -/
theorem NextEdge.portEdge {c : PortCycle} (h : NextEdge s t) (hc : c.rst = false) :
    NextEdge s (t.portEdge c) := by
  cases ha : c.access with
  | none => rwa [portEdge_of_none t hc ha]
  | some a =>
    obtain ⟨hcfg, hnow, hawaiting⟩ := hostAccess_keeps t a
    rw [portEdge_of_access t hc ha]
    exact ⟨hnow.trans h.now, hcfg.trans h.cfg, (hostAccess_wave t a).trans h.wave,
      hawaiting.trans h.awaitingReset⟩

/-- 70_reset_and_hazards.md R207. -/
theorem unresetEdge_reset {c : PortCycle} {rest : List PortCycle} (hp : s.port = c :: rest)
    (hgap : c.gap = 0) (hc : c.rst = true) :
    s.unresetEdge = (s.after 1 rest).portEdge c := by
  simp only [State.unresetEdge, hp, hgap, hc, if_true]
  rfl

/-- 70_reset_and_hazards.md R210. -/
theorem unresetEdge_unspecified
    (h : ∀ c rest, s.port = c :: rest → c.gap = 0 → c.rst = false) :
    ∃ u, NextEdge s u ∧ s.unresetEdge = u.unspecified := by
  cases hp : s.port with
  | nil => exact ⟨s.after 1 [], ⟨rfl, rfl, rfl, rfl⟩, by rw [State.unresetEdge, hp]; rfl⟩
  | cons c rest =>
    by_cases hgap : c.gap = 0
    · have hc := h c rest hp hgap
      have hnext : NextEdge s (s.after 1 rest) := ⟨rfl, rfl, rfl, rfl⟩
      refine ⟨_, hnext.portEdge hc, ?_⟩
      simp only [State.unresetEdge, hp, hgap, hc, if_true, Bool.false_eq_true, if_false]
      rfl
    · refine ⟨s.after 1 ({ c with gap := c.gap - 1 } :: rest), ⟨rfl, rfl, rfl, rfl⟩, ?_⟩
      simp only [State.unresetEdge, hp, hgap, if_false]
      rfl

end Sys2Proof.Machine

open Sys2Proof Sys2Proof.Machine

/-- Settles O56: the reset edge lies after the completion edge (`CompletesFirst`), or the command ends at
it (`ResetFirst`). -/
theorem resetEndsACommandAtItsEdge : Obligations.ResetEndsACommandAtItsEdge := by
  intro i s hb
  obtain ⟨u, t, hu, hidle, hdone, ht, hends⟩ := exec_completes_or_reset_first i hb
  refine ⟨u, t, hu, hidle, hdone, ht, fun e access rest hfirst hle => ?atReset, fun hlater => ?completes⟩
  case atReset =>
    obtain hcomplete | ⟨access', hreset⟩ := hends
    · exact absurd (hcomplete.earlier e access rest hfirst) (Nat.not_lt.2 hle)
    · cases hreset.first.symm.trans hfirst
      exact ⟨rfl, rfl, hreset.frame, hreset.wave, hreset.reads⟩
  case completes =>
    obtain hcomplete | ⟨access', hreset⟩ := hends
    · exact hcomplete.eq
    · exact absurd (hlater _ _ _ hreset.first) (Nat.not_lt.2 hreset.notLater)

/-- Settles O13: with an empty port the idle block's step is the passing of one cycle. -/
theorem idleBlockKeepsEverything : Obligations.IdleBlockKeepsEverything := by
  intro s hr hb hp
  rw [step_idle hr hb, idle_nil hp]

/-- Settles O49: one edge with `rst_n` low is a reset edge like any other (`portEdge_afterReset`), every
other edge draws the free values again. -/
theorem unresetBlockAwaitsOneResetEdge : Obligations.UnresetBlockAwaitsOneResetEdge := by
  refine ⟨fun s hr => ⟨fun c rest hp hgap hc => ?reset, fun h => ?unspecified⟩, fun _ => ⟨rfl, rfl⟩⟩
  case reset =>
    have hafter := portEdge_afterReset (s.after 1 rest) hc
    obtain ⟨hnow, hport⟩ := portEdge_reset_keeps (s.after 1 rest) hc
    refine ⟨_, by rw [step_unreset hr, unresetEdge_reset hp hgap hc], ?_, hnow, hport, hafter.readReg, ?_⟩
    · rw [hafter]; rfl
    · rw [hafter]; exact ⟨rfl, rfl, rfl, rfl⟩
  case unspecified =>
    obtain ⟨u, hu, hstep⟩ := unresetEdge_unspecified h
    refine ⟨u.unspecified, u, by rw [step_unreset hr, hstep], hu.awaitingReset.trans hr, hu.now, hu.cfg,
      rfl, rfl, rfl, rfl, rfl, rfl, rfl, rfl, rfl, rfl, rfl, rfl, ?_⟩
    rw [State.unspecified_wave, hu.wave, State.unspecified_now]
end
